-- ==== Sys2Proof/Word.lean ====
section
/-! DEFINITION. The words of the block: 32-bit registers and bus data (R5, R7), bytes, and bit strings (R6). -/

namespace Sys2Proof

/-- A register value or bus data word: an unsigned 32-bit integer (R5 `REG_WIDTH`, R7). -/
abbrev Word := BitVec 32

/-- One byte of a byte sequence (R10). -/
abbrev Byte := BitVec 8

/-- A bit string (R6): a finite sequence of bits with an explicit length, position 0 first. -/
abbrev BitString := List Bool

end Sys2Proof
end

