-- ==== Sys2Proof/Config.lean ====
section
/-! DEFINITION. The block's parameters (R5): the fixed ones as numbers, the open ones as opaque constants, and
the free value of a read while BUSY (R66). An opaque constant has no body, so no proof can know its value. -/

namespace Sys2Proof

/-- `WINDOW_SIZE` (R5, R60): bytes of register window. -/
abbrev Config.windowSize : Nat := 0x200

/-- `MAX_ENT_BITS` (R5): capacity of `ENT` and of the hashed message. -/
abbrev Config.maxEntBits : Nat := 256

/-- `MAX_CB_BITS` (R5): capacity of the combined buffer. -/
abbrev Config.maxCbBits : Nat := 264

/-- `MAX_WORDS` (R5): capacity of `IDX`. -/
abbrev Config.maxWords : Nat := 24

/-- `INDEX_BITS` (R5): width of one word index. -/
abbrev Config.indexBits : Nat := 11

/-- `WORDLIST_SIZE` (R5): indices are 0..2047. -/
abbrev Config.wordlistSize : Nat := 2048

/-- `DICE_MAX_BITS` (R5): largest target of the die-roll sampler. -/
abbrev Config.diceMaxBits : Nat := 256

/-- The largest value of a roll counter (R5 `DICE_COUNTER_BITS` = 16, R7 `sat16`). -/
abbrev Config.diceCounterMax : Nat := 0xFFFF

/-- The constant of the `ID` register (R1, R21), ASCII "B39E". -/
abbrev Config.idValue : Word := 0x42333945

/-- `BASE` (R5, D2), OPEN: the address of the register window in the host's address space (log 5). -/
opaque Config.base : Nat

/-- `IRQ_LINE` (R5, R210, D13), OPEN: the platform's line that `irq` is connected to (log 6). -/
opaque Config.irqLine : Nat

/-- How many clock cycles beyond the first a command with this opcode stays BUSY, OPEN (log 7). -/
opaque Config.latencyBeyondFirst : Byte → Nat

/-- `LAT(op)` (R5, R250, D37): clock cycles from issue to completion, at least 1. No rule of the spec, and so nothing
in the model, depends on its value: latency shows only as the number of host turns before the engine's (log 7). -/
def Config.latency (op : Byte) : Nat := Config.latencyBeyondFirst op + 1

/-- The free draw of the n-th read while BUSY (R66, D10): an unspecified 32-bit value under no law (log 3). -/
opaque Config.busyRead : Nat → Word

end Sys2Proof
end

