-- ==== Sys2Proof/Syntax.lean ====
section
/-! DEFINITION. The ten commands of the opcode map (R83), one constructor per row of spec/opcode_table.json.
Operands are unsigned integers (R82); `WellFormed` says which ones an encoding has room for. -/

namespace Sys2Proof

/-- A command: what one write of `CMD` asks the block to do (R83). -/
inductive Instr where
  /-- `NOP` (0x00, format N), R202. -/
  | nop
  /-- `CHECKSUM` (0x01, format N), R112. -/
  | checksum
  /-- `VALIDATE` (0x02, format N), R116. -/
  | validate
  /-- `ENCODE` (0x03, format N), R135. -/
  | encode
  /-- `DECODE` (0x04, format N), R137. -/
  | decode
  /-- `SLICE pos, width` (0x05, format S), R143: `width` is w = WM1 + 1 (R82). -/
  | slice (pos width : Nat)
  /-- `DICE_START n` (0x10, format T), R161. -/
  | diceStart (n : Nat)
  /-- `DICE_ROLL face` (0x11, format R), R164. -/
  | diceRoll (face : Nat)
  /-- `DICE_FINISH` (0x12, format N), R167. -/
  | diceFinish
  /-- `DICE_MINROLLS n` (0x13, format T), R175. -/
  | diceMinRolls (n : Nat)
  deriving DecidableEq, Repr

end Sys2Proof
end

