-- ==== Sys2Proof/WellFormed.lean ====
section
/-! DEFINITION. Which commands have an encoding: each operand in the range of its field (R81). -/

namespace Sys2Proof

/-- Every operand fits its field: POS is 9 bits, w is 1..16, N is 16 bits, FACE is 3 bits (R81). -/
def Instr.wellFormed : Instr → Bool
  | .nop => true
  | .checksum => true
  | .validate => true
  | .encode => true
  | .decode => true
  | .slice pos width => pos < 2 ^ 9 && 1 ≤ width && width ≤ 16
  | .diceStart n => n < 2 ^ 16
  | .diceRoll face => face < 2 ^ 3
  | .diceFinish => true
  | .diceMinRolls n => n < 2 ^ 16

/-- `i` is a command that some command word encodes. -/
abbrev WellFormed (i : Instr) : Prop := i.wellFormed = true

end Sys2Proof
end

