-- ==== Sys2Proof/Decode.lean ====
section
/-! DEFINITION. The decoder (R81, R82, R85), the match and mask table with the decoding procedure over it (R84, R86),
the encoder (R87), and the host's entry `decodeTableWord`. -/

namespace Sys2Proof

/-- Why a command word is illegal (R85). Both kinds complete with `IllegalCommand`. -/
inductive Illegal where
  /-- The opcode OP is not in the opcode map (R83). -/
  | unknownOpcode
  /-- OP is in the map, but a bit of its format's RSV field is 1 (R81). -/
  | reservedBits
  deriving DecidableEq, Repr

/-- `c[lo + width - 1 : lo]` as an unsigned integer (R7, R82). -/
def bitsAt (c : Word) (lo width : Nat) : Nat := (c.extractLsb' lo width).toNat

/-- A format whose RSV field is `c[31:lo]`: the command if RSV is 0, illegal otherwise (R81, R85). -/
def reservedFrom (lo : Nat) (c : Word) (i : Instr) : Except Illegal Instr :=
  if bitsAt c lo (32 - lo) = 0 then .ok i else .error .reservedBits

/-- Decoding of a command word, total on every word (R83, R85): the opcode picks the format, the format's RSV field must
be 0, and every operand is read directly from its bits (R82). -/
def decode (c : Word) : Except Illegal Instr :=
  match bitsAt c 0 8 with
  | 0x00 => reservedFrom 8 c .nop
  | 0x01 => reservedFrom 8 c .checksum
  | 0x02 => reservedFrom 8 c .validate
  | 0x03 => reservedFrom 8 c .encode
  | 0x04 => reservedFrom 8 c .decode
  | 0x05 => reservedFrom 21 c (.slice (bitsAt c 8 9) (bitsAt c 17 4 + 1))
  | 0x10 => reservedFrom 24 c (.diceStart (bitsAt c 8 16))
  | 0x11 => reservedFrom 11 c (.diceRoll (bitsAt c 8 3))
  | 0x12 => reservedFrom 8 c .diceFinish
  | 0x13 => reservedFrom 24 c (.diceMinRolls (bitsAt c 8 16))
  | _ => .error .unknownOpcode

/-- One row of the match and mask table (R84), with the command its free fields give. -/
structure MatchRow where
  /-- The row's `match`. -/
  pattern : Word
  /-- The row's `mask`. -/
  mask : Word
  /-- The row's command, its free fields read from the word. -/
  command : Word → Instr

/-- The match and mask table (R84), in table order. -/
def matchTable : List MatchRow :=
  [ ⟨0x00000000, 0xFFFFFFFF, fun _ => .nop⟩,
    ⟨0x00000001, 0xFFFFFFFF, fun _ => .checksum⟩,
    ⟨0x00000002, 0xFFFFFFFF, fun _ => .validate⟩,
    ⟨0x00000003, 0xFFFFFFFF, fun _ => .encode⟩,
    ⟨0x00000004, 0xFFFFFFFF, fun _ => .decode⟩,
    ⟨0x00000005, 0xFFE000FF, fun c => .slice (bitsAt c 8 9) (bitsAt c 17 4 + 1)⟩,
    ⟨0x00000010, 0xFF0000FF, fun c => .diceStart (bitsAt c 8 16)⟩,
    ⟨0x00000011, 0xFFFFF8FF, fun c => .diceRoll (bitsAt c 8 3)⟩,
    ⟨0x00000012, 0xFFFFFFFF, fun _ => .diceFinish⟩,
    ⟨0x00000013, 0xFF0000FF, fun c => .diceMinRolls (bitsAt c 8 16)⟩ ]

/-- `c` matches the row: `(c & mask) == match` (R84). -/
def MatchRow.fits (r : MatchRow) (c : Word) : Bool := c &&& r.mask == r.pattern

/-- The decoding procedure of R86, word for word: the first row that fits, or ILLEGAL. The machine decodes with `decode`;
that the two agree is a statement. -/
def decodeByTable (c : Word) : Option Instr :=
  (matchTable.find? (·.fits c)).map (·.command c)

/-- The opcode OP of a command (R83). -/
def opcode : Instr → Byte
  | .nop => 0x00
  | .checksum => 0x01
  | .validate => 0x02
  | .encode => 0x03
  | .decode => 0x04
  | .slice _ _ => 0x05
  | .diceStart _ => 0x10
  | .diceRoll _ => 0x11
  | .diceFinish => 0x12
  | .diceMinRolls _ => 0x13

/-- The encoder (R81, R87): the fields of the command's format from bit 31 down, RSV first and OP last. DESIGN CHOICE (log 15):
for a command that is not `WellFormed`, which has no word by R81, an operand is cut to the low bits of its field, and a SLICE
width of 0 counts as 1. -/
def encode : Instr → Word
  | .nop => 0#24 ++ opcode .nop
  | .checksum => 0#24 ++ opcode .checksum
  | .validate => 0#24 ++ opcode .validate
  | .encode => 0#24 ++ opcode .encode
  | .decode => 0#24 ++ opcode .decode
  | .slice pos width =>
    0#11 ++ (BitVec.ofNat 4 (width - 1) ++ (BitVec.ofNat 9 pos ++ opcode (.slice pos width)))
  | .diceStart n => 0#8 ++ (BitVec.ofNat 16 n ++ opcode (.diceStart n))
  | .diceRoll face => 0#21 ++ (BitVec.ofNat 3 face ++ opcode (.diceRoll face))
  | .diceFinish => 0#24 ++ opcode .diceFinish
  | .diceMinRolls n => 0#8 ++ (BitVec.ofNat 16 n ++ opcode (.diceMinRolls n))

/-- The command the decoder reads from an instruction whose bits are `w`, of which the table gives `nbits`; the bits above
`nbits` are 0. A command is ONE 32-bit word (R80), so there are no further words. -/
def decodeTableWord (nbits w : Nat) : Option Instr :=
  (decode (BitVec.ofNat 32 (w % 2 ^ nbits))).toOption

end Sys2Proof
end

