-- ==== Sys2Proof/Machine/State.lean ====
section
/-! DEFINITION. The machine's state as plain data: the registers of R22 field by field, the internal elements of R45 and
R46, the reset input of R230, and the model's own fields (turns, response, draws); reset (R48); faults and refusals. -/

namespace Sys2Proof.Machine

/-- The completion codes the block can name (R201). `ErrCode.bits` (Flags.lean) gives their numbers. -/
inductive ErrCode where
  | noError
  | invalidArgument
  | lengthMismatch
  | unknownWord
  | wordIndexOutOfRange
  | checksumMismatch
  | insufficientEntropy
  | entropyLengthViolation
  | illegalCommand
  | sequenceError
  deriving DecidableEq, Repr

/-- What a host access does at its address. -/
inductive AccessKind where
  /-- `HostRead` (R66). -/
  | read
  /-- `HostWrite` of a 32-bit value (R65). -/
  | write (v : Word)
  deriving DecidableEq, Repr

/-- One access the host puts on the bus: its byte address, its width in bits, and what it does. Only aligned 32-bit
accesses have an effect (R61); the others are refused. -/
structure Access where
  addr  : Nat
  width : Nat
  kind  : AccessKind
  deriving DecidableEq, Repr

/-- One turn of one agent (R11), or a change of the hardware reset input (R230). -/
inductive Turn where
  /-- The engine's turn: it completes the pending command if there is one (R200). -/
  | engine
  /-- The host's turn: one access. -/
  | host (a : Access)
  /-- The hardware reset input goes to this level (R230; log 9). -/
  | resetPin (asserted : Bool)
  deriving DecidableEq, Repr

/-- `CTRL` (R23): IE is its only stored bit. -/
structure Ctrl where
  ie : Bool
  deriving DecidableEq, Repr

/-- `STATUS` (R24). -/
structure Status where
  busy    : Bool
  done    : Bool
  err     : Bool
  overrun : Bool
  errCode : BitVec 4
  deriving DecidableEq, Repr

/-- `FLAGS` (R27); `matched` is the field MATCH. -/
structure Flags where
  lenv     : BitVec 2
  weakZero : Bool
  weakOnes : Bool
  weakNa   : Bool
  matched  : Bool
  atypical : Bool
  deriving DecidableEq, Repr

/-- `CSUM` and `CSUM_SUPPLIED` (R28, R29): a checksum of `len` bits, right-aligned in `value`. -/
structure ChecksumReg where
  value : BitVec 8
  len   : BitVec 4
  deriving DecidableEq, Repr

/-- `DICE_STATE` (R36). -/
structure DiceState where
  armed   : Bool
  badRoll : Bool
  target  : BitVec 9
  deriving DecidableEq, Repr

/-- `DICE_COUNT` (R37). -/
structure DiceCount where
  accepted : BitVec 16
  raw      : BitVec 16
  deriving DecidableEq, Repr

/-- The whole machine. `ID` is a constant (R21), `CMD` holds nothing (R25) and `CB_LEN` is the length of `cb` (R31), so
none of the three is a field. -/
structure State where
  /-- `CTRL` (R23). -/
  ctrl         : Ctrl
  /-- `STATUS` (R24). -/
  status       : Status
  /-- `ENT_LEN.LEN` (R26). -/
  entLen       : BitVec 16
  /-- `FLAGS` (R27). -/
  flags        : Flags
  /-- `CSUM` (R28). -/
  csum         : ChecksumReg
  /-- `CSUM_SUPPLIED` (R29). -/
  csumSupplied : ChecksumReg
  /-- `WORD_COUNT.W` (R30). -/
  wordCount    : BitVec 5
  /-- `RESULT` (R32). -/
  result       : Word
  /-- `ENT[0..7]` (R33). -/
  ent          : Vector Word 8
  /-- `DIGEST[0..7]` (R34). -/
  digest       : Vector Word 8
  /-- `IDX[0..23].INDEX` (R35). -/
  idx          : Vector (BitVec 11) 24
  /-- `DICE_STATE` (R36). -/
  diceState    : DiceState
  /-- `DICE_COUNT` (R37). -/
  diceCount    : DiceCount
  /-- `DICE_OUT[0..7]` (R38). -/
  diceOut      : Vector Word 8
  /-- `CB`, the combined bits (R45). -/
  cb           : BitString
  /-- `ACC`, the sampler's accumulator (R45). -/
  acc          : BitVec 256
  /-- `PEND`, the pending-command latch; `none` is empty (R46). -/
  pend         : Option Word
  /-- The hardware reset input is asserted (R230). -/
  resetPin     : Bool
  /-- The turns to come, the next one first: the free schedule (R69, R200). The MODEL'S OWN field (log 1). -/
  turns        : List Turn
  /-- What the block answered to the newest host turn: a read's data, or nothing. The MODEL'S OWN field (log 4). -/
  response     : Option Word
  /-- How many free draws reads while BUSY have taken (R66). The MODEL'S OWN field (log 3). -/
  draws        : Nat
  deriving DecidableEq, Repr

/-- Right after reset (R48, R230): every register and internal element 0 or empty, the reset input released. The model's
own fields are empty: no turn is scheduled, nothing was answered, nothing was drawn (logs 1, 3, 4). -/
def State.reset : State where
  ctrl         := ⟨false⟩
  status       := ⟨false, false, false, false, 0⟩
  entLen       := 0
  flags        := ⟨0, false, false, false, false, false⟩
  csum         := ⟨0, 0⟩
  csumSupplied := ⟨0, 0⟩
  wordCount    := 0
  result       := 0
  ent          := #v[0, 0, 0, 0, 0, 0, 0, 0]
  digest       := #v[0, 0, 0, 0, 0, 0, 0, 0]
  idx          := #v[0, 0, 0, 0, 0, 0, 0, 0, 0, 0, 0, 0, 0, 0, 0, 0, 0, 0, 0, 0, 0, 0, 0, 0]
  diceState    := ⟨false, false, 0⟩
  diceCount    := ⟨0, 0⟩
  diceOut      := #v[0, 0, 0, 0, 0, 0, 0, 0]
  cb           := []
  acc          := 0
  pend         := none
  resetPin     := false
  turns        := []
  response     := none
  draws        := 0

/-- Reasons the machine stops with a fault. -/
inductive Fault where
  /-- Raised by the engine's turn (`engineTurn`) when BUSY = 1 while PEND is empty, which R46 excludes and no run from
  reset reaches: the spec gives the completion no command word. Safe (log 10). -/
  | emptyLatch
  deriving DecidableEq, Repr

/-- Reasons a step is refused. -/
inductive Refusal where
  /-- Raised by an arm of `exec` for a command that has no meaning yet. Safe. -/
  | notModelled (mnemonic : String)
  /-- Raised by the host's turn (`hostTurn`) for an access inside the window that is not 32 bits wide, which has no
  defined effect (R61: "a model refuses such an access"). Safe (log 8). -/
  | accessWidth
  /-- Raised by the host's turn (`hostTurn`) for a 32-bit access inside the window at an offset that is no multiple of 4,
  which has no defined effect (R61). Safe (log 8). -/
  | accessAlignment
  deriving DecidableEq, Repr

end Sys2Proof.Machine
end

