-- ==== Sys2Proof/Machine/Bits.lean ====
section
/-! DEFINITION. Bit strings (R6), their packing into registers (R9, R63) and bytes (R10), the word operations of R7, and
the bit-indexer's primitives (R130, R131, R133, R134). -/

namespace Sys2Proof.Machine

/-- `sat16` (R7). -/
def sat16 (v : Nat) : BitVec 16 := BitVec.ofNat 16 (min v Config.diceCounterMax)

/-- `ROTR^n` (R7). -/
def rotr (n : Nat) (x : Word) : Word := (x >>> n) ||| (x <<< (32 - n))

/-- `SHR^n` (R7). -/
def shr (n : Nat) (x : Word) : Word := x >>> n

/-- `uint(s)` (R6): position 0 is the most significant bit. -/
def uint (s : BitString) : Nat := s.foldl (fun v b => 2 * v + b.toNat) 0

/-- `bits_n(v)` (R6): the string of length n whose value is v, for v below 2^n. -/
def bitsOf (n v : Nat) : BitString := (List.range n).map fun p => v.testBit (n - 1 - p)

/-- `s[a..b)` (R6). -/
def substr (s : BitString) (a b : Nat) : BitString := (s.drop a).take (b - a)

/-- `n` registers holding `f 0`, `f 1`, … in order. -/
def tabulate {α : Type} (n : Nat) (f : Nat → α) : Vector α n :=
  ⟨((List.range n).map f).toArray, by simp⟩

/-- The bit at position `p` of the string packed in `x`: bit `31 - p mod 32` of register `p div 32` (R9). -/
def packedBit {k : Nat} (x : Vector Word k) (p : Nat) : Bool :=
  (x.toList.getD (p / 32) 0).getLsbD (31 - p % 32)

/-- `str(X, n)` (R9): the first n positions packed in `x`. -/
def str {k : Nat} (x : Vector Word k) (n : Nat) : BitString := (List.range n).map (packedBit x)

/-- `put(X, s)` for a group of eight registers (R9): `s` packed from position 0, every later position 0. -/
def put (s : BitString) : Vector Word 8 :=
  tabulate 8 fun i => BitVec.ofNat 32 (uint ((List.range 32).map fun b => s.getD (32 * i + b) false))

/-- `bytes(s)` (R10): byte j is `uint(s[8j..8j+8))`. -/
def bytes (s : BitString) : List Byte :=
  (List.range (s.length / 8)).map fun j => BitVec.ofNat 8 (uint (substr s (8 * j) (8 * j + 8)))

/-- `Field(s, p, w)`, the bit-indexer (R130): the w bits from position p on, as an unsigned integer. -/
def field (s : BitString) (p w : Nat) : Nat := uint (substr s p (p + w))

/-- `Group(s)` (R131): consecutive 11-bit chunks, the remainder dropped. -/
def group (s : BitString) : List Nat :=
  (List.range (s.length / Config.indexBits)).map fun i => field s (Config.indexBits * i) Config.indexBits

/-- `Ungroup(x)` (R133): each index's 11 bits, one after the other. -/
def ungroup (xs : List (BitVec 11)) : BitString := xs.flatMap fun x => bitsOf Config.indexBits x.toNat

/-- `Split(t)` (R134): the entropy length of t decoded bits. -/
def splitPoint (t : Nat) : Nat := 32 * t / 33

end Sys2Proof.Machine
end

