-- ==== Sys2Proof/Machine/Sha256.lean ====
section
/-! DEFINITION. SHA-256 of a message of at most 32 bytes, always one 64-byte block (R100 to R107), and the checksum
primitive over it (R109 to R111). The spec marks R100 to R107 as general knowledge (G1, log 16). -/

namespace Sys2Proof.Machine

/-- `Ch` (R100). -/
def shaCh (x y z : Word) : Word := (x &&& y) ^^^ (~~~x &&& z)

/-- `Maj` (R100). -/
def shaMaj (x y z : Word) : Word := (x &&& y) ^^^ (x &&& z) ^^^ (y &&& z)

/-- `BSIG0` (R100). -/
def bsig0 (x : Word) : Word := rotr 2 x ^^^ rotr 13 x ^^^ rotr 22 x

/-- `BSIG1` (R100). -/
def bsig1 (x : Word) : Word := rotr 6 x ^^^ rotr 11 x ^^^ rotr 25 x

/-- `SSIG0` (R100). -/
def ssig0 (x : Word) : Word := rotr 7 x ^^^ rotr 18 x ^^^ shr 3 x

/-- `SSIG1` (R100). -/
def ssig1 (x : Word) : Word := rotr 17 x ^^^ rotr 19 x ^^^ shr 10 x

/-- The round constants K[0..63] (R101), one line of the rule's listing a line. -/
def roundConstants : List Word :=
  [0x428a2f98, 0x71374491, 0xb5c0fbcf, 0xe9b5dba5, 0x3956c25b, 0x59f111f1, 0x923f82a4, 0xab1c5ed5] ++
  [0xd807aa98, 0x12835b01, 0x243185be, 0x550c7dc3, 0x72be5d74, 0x80deb1fe, 0x9bdc06a7, 0xc19bf174] ++
  [0xe49b69c1, 0xefbe4786, 0x0fc19dc6, 0x240ca1cc, 0x2de92c6f, 0x4a7484aa, 0x5cb0a9dc, 0x76f988da] ++
  [0x983e5152, 0xa831c66d, 0xb00327c8, 0xbf597fc7, 0xc6e00bf3, 0xd5a79147, 0x06ca6351, 0x14292967] ++
  [0x27b70a85, 0x2e1b2138, 0x4d2c6dfc, 0x53380d13, 0x650a7354, 0x766a0abb, 0x81c2c92e, 0x92722c85] ++
  [0xa2bfe8a1, 0xa81a664b, 0xc24b8b70, 0xc76c51a3, 0xd192e819, 0xd6990624, 0xf40e3585, 0x106aa070] ++
  [0x19a4c116, 0x1e376c08, 0x2748774c, 0x34b0bcb5, 0x391c0cb3, 0x4ed8aa4a, 0x5b9cca4f, 0x682e6ff3] ++
  [0x748f82ee, 0x78a5636f, 0x84c87814, 0x8cc70208, 0x90befffa, 0xa4506ceb, 0xbef9a3f7, 0xc67178f2]

/-- The working variables a to h of the compression (R105). -/
structure Working where
  a : Word
  b : Word
  c : Word
  d : Word
  e : Word
  f : Word
  g : Word
  h : Word
  deriving DecidableEq, Repr

/-- The initial hash value H0[0..7] (R102). -/
def initialHash : Working :=
  ⟨0x6a09e667, 0xbb67ae85, 0x3c6ef372, 0xa54ff53a, 0x510e527f, 0x9b05688c, 0x1f83d9ab, 0x5be0cd19⟩

/-- The padded message P[0..64) of a message of at most 32 bytes (R103): the bytes, 0x80, zeros up to position 56, and
the 64-bit big-endian bit count. -/
def shaPad (b : List Byte) : List Byte :=
  b ++ [0x80] ++ List.replicate (55 - b.length) 0 ++ bytes (bitsOf 64 (8 * b.length))

/-- The message word `Wt`, 0 ≤ t ≤ 15 (R104): four bytes of the padded message, big-endian. -/
def messageWord (p : List Byte) (t : Nat) : Word :=
  p.getD (4 * t) 0 ++ p.getD (4 * t + 1) 0 ++ p.getD (4 * t + 2) 0 ++ p.getD (4 * t + 3) 0

/-- `n` further schedule words, where `ws` holds the words so far, the newest first (R104, 16 ≤ t). -/
def extendSchedule : Nat → List Word → List Word
  | 0, ws => ws
  | n + 1, ws =>
    extendSchedule n ((ssig1 (ws.getD 1 0) + ws.getD 6 0 + ssig0 (ws.getD 14 0) + ws.getD 15 0) :: ws)

/-- The message schedule W0 to W63 of a padded message (R104). -/
def schedule (p : List Byte) : List Word :=
  (extendSchedule 48 ((List.range 16).map (messageWord p)).reverse).reverse

/-- One round of the compression with its constant K[t] and schedule word Wt (R105). -/
def shaRound (s : Working) (kw : Word × Word) : Working :=
  let t1 := s.h + bsig1 s.e + shaCh s.e s.f s.g + kw.1 + kw.2
  let t2 := bsig0 s.a + shaMaj s.a s.b s.c
  ⟨t1 + t2, s.a, s.b, s.c, s.d + t1, s.e, s.f, s.g⟩

/-- The final hash H[0..7] (R106): the initial hash value plus the working variables, word by word. -/
def finalHash (s : Working) : Vector Word 8 :=
  #v[initialHash.a + s.a, initialHash.b + s.b, initialHash.c + s.c, initialHash.d + s.d,
     initialHash.e + s.e, initialHash.f + s.f, initialHash.g + s.g, initialHash.h + s.h]

/-- `SHA256(B)` (R107), for a message of at most 32 bytes. -/
def sha256 (b : List Byte) : Vector Word 8 :=
  finalHash ((roundConstants.zip (schedule (shaPad b))).foldl shaRound initialHash)

/-- `CS`, the checksum length of an entropy of `n` bits (R110). -/
def checksumLength (n : Nat) : Nat := n / 32

/-- `Checksum(s)` (R109): the digest, and its first CS bits, leading zeros kept (R111). -/
def checksum (s : BitString) : Vector Word 8 × BitString :=
  let h := sha256 (bytes s)
  (h, (str h 256).take (checksumLength s.length))

end Sys2Proof.Machine
end

