-- ==== Sys2Proof/Machine/Flags.lean ====
section
/-! DEFINITION. The flags: the numbers of the completion codes (R201), the bus words of CTRL, STATUS, FLAGS and the
checksum registers (R23, R24, R27 to R29), the verdicts of VALIDATE (R113, R114), DECODE's (R136, R137), and `irq` (R210). -/

namespace Sys2Proof.Machine

/-- The number of a completion code (R201). -/
def ErrCode.bits : ErrCode → BitVec 4
  | .noError => 0
  | .invalidArgument => 1
  | .lengthMismatch => 2
  | .unknownWord => 3
  | .wordIndexOutOfRange => 4
  | .checksumMismatch => 5
  | .insufficientEntropy => 6
  | .entropyLengthViolation => 7
  | .illegalCommand => 8
  | .sequenceError => 9

/-- One bit as a field of a register word. -/
def bit (b : Bool) : BitVec 1 := BitVec.ofBool b

/-- `CTRL` as read: IE in bit 0, SRST reads 0 (R23). -/
def Ctrl.word (c : Ctrl) : Word := 0#31 ++ bit c.ie

/-- `STATUS` as read (R24). -/
def Status.word (t : Status) : Word :=
  0#24 ++ t.errCode ++ bit t.overrun ++ bit t.err ++ bit t.done ++ bit t.busy

/-- `FLAGS` as read (R27). -/
def Flags.word (f : Flags) : Word :=
  0#25 ++ bit f.atypical ++ bit f.matched ++ bit f.weakNa ++ bit f.weakOnes ++ bit f.weakZero ++ f.lenv

/-- `CSUM` or `CSUM_SUPPLIED` as read (R28, R29). -/
def ChecksumReg.word (c : ChecksumReg) : Word := 0#20 ++ c.len ++ c.value

/-- The register contents for a checksum bit string: `VALUE <- uint(c); LEN <- len(c)` (R28, R29). -/
def ChecksumReg.ofBits (c : BitString) : ChecksumReg := ⟨BitVec.ofNat 8 (uint c), BitVec.ofNat 4 c.length⟩

/-- `DICE_STATE` as read (R36). -/
def DiceState.word (d : DiceState) : Word := 0#7 ++ d.target ++ 0#14 ++ bit d.badRoll ++ bit d.armed

/-- `DICE_COUNT` as read (R37). -/
def DiceCount.word (d : DiceCount) : Word := d.raw ++ d.accepted

/-- `LengthVerdict(L)` (R113), in the encoding of `FLAGS.LENV` (R27). -/
def lengthVerdict (len : Nat) : BitVec 2 :=
  if len % 32 ≠ 0 then 1
  else if len < 128 then 2
  else if len > 256 then 3
  else 0

/-- `s = zeros(len(s))` (R114). -/
def allZeros (s : BitString) : Bool := s.all (!·)

/-- `s = ones(len(s))` (R114). -/
def allOnes (s : BitString) : Bool := s.all (·)

/-- The word counts of a standard mnemonic; any other sets `FLAGS.ATYPICAL` (R27, R137). -/
def standardWordCount (w : Nat) : Bool := [12, 15, 18, 21, 24].contains w

/-- `Matches(sc, c)` (R136): equal length and equal bits. -/
def checksumMatches (sc c : BitString) : Bool := sc == c

/-- The interrupt output: `irq = CTRL.IE & STATUS.DONE` at every instant (R210). -/
def irq (s : State) : Bool := s.ctrl.ie && s.status.done

/-- The level the block drives on a platform line: `irq` on the line it is connected to, `IRQ_LINE` (R5, R210; log 6). -/
def irqDrives (s : State) (line : Nat) : Bool := line == Config.irqLine && irq s

end Sys2Proof.Machine
end

