-- ==== Sys2Proof/Machine/Operands.lean ====
section
/-! DEFINITION. The operands of the commands that are not in the command word (R82): the entropy, the word indices and the
die-roll session; and the operand checks several commands share. -/

namespace Sys2Proof.Machine

/-- `L = ENT_LEN[15:0]` (R26). -/
def entropyLength (s : State) : Nat := s.entLen.toNat

/-- `str(ENT, L)`, the entropy (R33). -/
def entropy (s : State) : BitString := str s.ent (entropyLength s)

/-- `L mod 8 != 0 or L > 256`: a length CHECKSUM and ENCODE reject (R112, R135). -/
def badEntropyLength (len : Nat) : Bool := len % 8 != 0 || len > Config.maxEntBits

/-- `W = WORD_COUNT[4:0]` (R30). -/
def mnemonicLength (s : State) : Nat := s.wordCount.toNat

/-- `IDX[0].INDEX, ..., IDX[W-1].INDEX` (R137). -/
def mnemonicIndices (s : State) : List (BitVec 11) := s.idx.toList.take (mnemonicLength s)

/-- What a die face is to the sampler (R160). -/
inductive FaceClass where
  | accepted (digit : Nat)
  | discarded
  | invalid
  deriving DecidableEq, Repr

/-- The rejection policy (R160): 1, 2, 3 are their own digit, 6 is digit 0, 4 and 5 are discarded, the rest is invalid. -/
def classifyFace (face : Nat) : FaceClass :=
  if face = 1 ∨ face = 2 ∨ face = 3 then .accepted face
  else if face = 6 then .accepted 0
  else if face = 4 ∨ face = 5 then .discarded
  else .invalid

/-- `N == 0 or N mod 2 != 0`: not a positive even bit count (R161, R175). -/
def notPositiveEven (n : Nat) : Bool := n == 0 || n % 2 != 0

/-- `minimumRollsForBits(n) = ceil(n/2)` (R167, R175). -/
def minimumRolls (n : Nat) : Nat := (n + 1) / 2

/-- `ACC[2i+1:2i] <- d` (R164, R165). -/
def setDigit (acc : BitVec 256) (i d : Nat) : BitVec 256 :=
  (acc &&& ~~~(3#256 <<< (2 * i))) ||| (BitVec.ofNat 256 d <<< (2 * i))

/-- `bits_n(ACC[n-1:0])` (R167). -/
def sessionOutput (acc : BitVec 256) (n : Nat) : BitString := bitsOf n (acc.toNat % 2 ^ n)

end Sys2Proof.Machine
end

