-- ==== Sys2Proof/Machine/Ops.lean ====
section
/-! DEFINITION. The named operations: completion with a code (the block's whole exception mechanism, R8, R200, R205) and
its acknowledgement (R207), issue (R200), reset (R230, R231), the register map (R22), and the host's accesses (R61 to R66). -/

namespace Sys2Proof.Machine

open Host (Outcome)

/-- The end of `Complete()` once the command's rule has given its code (R200): PEND empty, BUSY 0, DONE 1, ERR and
ERRCODE from the code; OVERRUN keeps its value. -/
def State.complete (code : ErrCode) (s : State) : State :=
  { s with
    pend := none
    status := { s.status with busy := false, done := true, err := code != .noError, errCode := code.bits } }

/-- `fail <Code>` (R8): ends the command with that code. The writes made before it stand; nothing after it happens. This is
what this hardware has for TAKING AN EXCEPTION (R205): no state is saved, no vector taken, no mode changed. -/
def fail (code : ErrCode) (s : State) : Outcome State Fault Refusal := .next (s.complete code)

/-- `done` (R8): ends the command with code 0. -/
def done (s : State) : Outcome State Fault Refusal := .next (s.complete .noError)

/-- An illegal command word at completion: code `IllegalCommand` and no other state change (R85, R204). -/
def completeIllegal (s : State) : Outcome State Fault Refusal := fail .illegalCommand s

/-- `DIGEST[i] <- H[i]; CSUM.VALUE <- uint(c); CSUM.LEN <- len(c)` (R108, R112). -/
def State.withChecksum (hc : Vector Word 8 × BitString) (s : State) : State :=
  { s with digest := hc.1, csum := ChecksumReg.ofBits hc.2 }

/-- `Issue(v)` (R200): PEND takes the command word, BUSY 1, DONE, ERR and ERRCODE 0; OVERRUN stays (R24). -/
def State.issue (v : Word) (s : State) : State :=
  { s with
    pend := some v
    status := { s.status with busy := true, done := false, err := false, errCode := 0 } }

/-- Every state element of R48 at its reset value, PEND empty (R230, R231). The reset input and the model's own fields
are not elements of R48 and stay. -/
def State.resetBlock (s : State) : State :=
  { State.reset with
    resetPin := s.resetPin
    turns := s.turns
    response := s.response
    draws := s.draws }

/-- The turns still to come. -/
def State.withTurns (ts : List Turn) (s : State) : State := { s with turns := ts }

/-- What the block answers to the host's turn: a read's data, or nothing (log 4). -/
def State.answer (v : Option Word) (s : State) : State := { s with response := v }

/-- The answer is the next free draw (R66; log 3). -/
def State.answerFree (s : State) : State :=
  { s with response := some (Config.busyRead s.draws), draws := s.draws + 1 }

/-- A dropped write: OVERRUN is set and nothing else changes (R65, R241). -/
def State.markOverrun (s : State) : State := { s with status := { s.status with overrun := true } }

/-- The registers of the register map (R22). -/
inductive Reg where
  | id
  | ctrl
  | status
  | cmd
  | entLen
  | flags
  | csum
  | csumSupplied
  | wordCount
  | cbLen
  | result
  | ent (i : Nat)
  | digest (i : Nat)
  | idx (i : Nat)
  | diceState
  | diceCount
  | diceOut (i : Nat)
  deriving DecidableEq, Repr

/-- The register at an aligned byte offset of the window, if the register map lists one (R22). -/
def regAt (off : Nat) : Option Reg :=
  if off = 0x000 then some .id
  else if off = 0x004 then some .ctrl
  else if off = 0x008 then some .status
  else if off = 0x00C then some .cmd
  else if off = 0x010 then some .entLen
  else if off = 0x014 then some .flags
  else if off = 0x018 then some .csum
  else if off = 0x01C then some .csumSupplied
  else if off = 0x020 then some .wordCount
  else if off = 0x024 then some .cbLen
  else if off = 0x028 then some .result
  else if 0x040 ≤ off ∧ off ≤ 0x05C then some (.ent ((off - 0x040) / 4))
  else if 0x060 ≤ off ∧ off ≤ 0x07C then some (.digest ((off - 0x060) / 4))
  else if 0x080 ≤ off ∧ off ≤ 0x0DC then some (.idx ((off - 0x080) / 4))
  else if off = 0x100 then some .diceState
  else if off = 0x104 then some .diceCount
  else if 0x120 ≤ off ∧ off ≤ 0x13C then some (.diceOut ((off - 0x120) / 4))
  else none

/-- A register's value assembled from its fields, reserved fields 0, `CMD` 0 (R21 to R38, R66). -/
def readReg (s : State) : Reg → Word
  | .id => Config.idValue
  | .ctrl => s.ctrl.word
  | .status => s.status.word
  | .cmd => 0
  | .entLen => s.entLen.setWidth 32
  | .flags => s.flags.word
  | .csum => s.csum.word
  | .csumSupplied => s.csumSupplied.word
  | .wordCount => s.wordCount.setWidth 32
  | .cbLen => BitVec.ofNat 32 s.cb.length
  | .result => s.result
  | .ent i => s.ent.toList.getD i 0
  | .digest i => s.digest.toList.getD i 0
  | .idx i => (s.idx.toList.getD i 0).setWidth 32
  | .diceState => s.diceState.word
  | .diceCount => s.diceCount.word
  | .diceOut i => s.diceOut.toList.getD i 0

/-- The value at an aligned offset: the register's, or 0 where the map lists none (R64). -/
def readAt (s : State) (off : Nat) : Word :=
  match regAt off with
  | some r => readReg s r
  | none => 0

/-- The offsets that read normally while BUSY = 1: `ID`, `CTRL`, `STATUS`, `CMD` (R66). -/
def readableWhileBusy (off : Nat) : Bool := off == 0x000 || off == 0x004 || off == 0x008 || off == 0x00C

/-- `HostRead(off)` with an aligned offset (R66): the answer goes into `response` and no state of the block changes (R67).
While BUSY = 1 most offsets answer a fresh free draw (log 3). -/
def hostRead (off : Nat) (s : State) : State :=
  if s.status.busy && !readableWhileBusy off then s.answerFree else s.answer (some (readAt s off))

/-- IE takes a value (R23). -/
def State.withEnable (b : Bool) (s : State) : State := { s with ctrl := ⟨b⟩ }

/-- `ENT_LEN.LEN` takes the low 16 bits of a write (R26). -/
def State.withEntLen (v : Word) (s : State) : State := { s with entLen := v.setWidth 16 }

/-- `WORD_COUNT.W` takes the low 5 bits of a write (R30). -/
def State.withWordCount (v : Word) (s : State) : State := { s with wordCount := v.setWidth 5 }

/-- `ENT[i]` takes a write (R33). -/
def State.withEnt (i : Nat) (v : Word) (s : State) : State := { s with ent := s.ent.setIfInBounds i v }

/-- `IDX[i].INDEX` takes the low 11 bits of a write (R35). -/
def State.withIdx (i : Nat) (v : Word) (s : State) : State := { s with idx := s.idx.setIfInBounds i (v.setWidth 11) }

/-- A write of `CTRL` (R65): soft reset if bit 1 is set, else IE takes bit 0 (R23). -/
def writeCtrl (v : Word) (s : State) : State :=
  if v.getLsbD 1 then s.resetBlock else s.withEnable (v.getLsbD 0)

/-- A write of `STATUS` (R24, R65): a 1 in bit 1, 2 or 3 clears DONE, ERR or OVERRUN. It acknowledges a completion (R207). -/
def writeStatus (v : Word) (s : State) : State :=
  { s with
    status := { s.status with
      done := s.status.done && !v.getLsbD 1
      err := s.status.err && !v.getLsbD 2
      overrun := s.status.overrun && !v.getLsbD 3 } }

/-- A write of any other register while BUSY = 0 (R65): RO registers and unlisted offsets ignore it (R64). -/
def writeReg (v : Word) (s : State) : Reg → State
  | .cmd => s.issue v
  | .entLen => s.withEntLen v
  | .wordCount => s.withWordCount v
  | .ent i => s.withEnt i v
  | .idx i => s.withIdx i v
  | _ => s

/-- `HostWrite(off, v)` with an aligned offset (R65): `CTRL` and `STATUS` at once, everything else dropped with OVERRUN set
while BUSY = 1 (R241). -/
def hostWrite (off : Nat) (v : Word) (s : State) : State :=
  if off = 0x004 then writeCtrl v s
  else if off = 0x008 then writeStatus v s
  else if s.status.busy then s.markOverrun
  else
    match regAt off with
    | some r => writeReg v s r
    | none => s

/-- How many bytes an access covers: those its bits reach, and never fewer than the one it addresses. DESIGN CHOICE (log 5):
R61 names 8, 16 and 32 bits; a width that is no multiple of 8 counts as the next one, and a width of 0 as 8. -/
def Access.bytes (a : Access) : Nat := max 1 ((a.width + 7) / 8)

/-- The access touches no byte of the window: it is not the block's (R60; log 5). -/
def Access.outside (a : Access) : Bool :=
  a.addr + a.bytes ≤ Config.base || Config.base + Config.windowSize ≤ a.addr

/-- The effect of an aligned 32-bit access at an offset. While the reset input is asserted every element holds its reset
value, so a write changes nothing and a read answers the reset value (R230; log 9). -/
def accessAt (off : Nat) (kind : AccessKind) (s : State) : State :=
  match kind with
  | .read => hostRead off (if s.resetPin then s.resetBlock else s)
  | .write v => if s.resetPin then (s.answer none).resetBlock else hostWrite off v (s.answer none)

/-- The host's turn: one access (R11). Outside the window the block does nothing and answers nothing (R60); of the accesses
that touch it, the block accepts only 32 bits at a multiple of 4, and any other, one that straddles an edge of the window
among them, is refused (R61; logs 5, 8). -/
def hostTurn (a : Access) (s : State) : Outcome State Fault Refusal :=
  if a.outside then .next (s.answer none)
  else if a.width ≠ 32 then .refused .accessWidth
  else if a.addr < Config.base ∨ (a.addr - Config.base) % 4 ≠ 0 then .refused .accessAlignment
  else .next (accessAt (a.addr - Config.base) a.kind s)

/-- A turn of the hardware reset input: asserted or released, every element of R48 holds its reset value (R230). DESIGN
CHOICE (log 9): a turn to the level the input already has resets the block too; at the low level, where R230 has no edge, it
stands for a pulse that begins and ends within the turn. -/
def resetPinTurn (asserted : Bool) (s : State) : State := { s.resetBlock with resetPin := asserted }

end Sys2Proof.Machine
end

