-- ==== Sys2Proof/Machine/Checksum.lean ====
section
/-! DEFINITION. The meanings of the checksum unit's commands: CHECKSUM (R112) and VALIDATE (R116). -/

namespace Sys2Proof.Machine

open Host (Outcome)

/-- `CHECKSUM` (R112): the digest and checksum of the entropy, or `InvalidArgument` for a length that is no multiple of 8
or above 256. -/
def execChecksum (s : State) : Outcome State Fault Refusal :=
  if badEntropyLength (entropyLength s) then fail .invalidArgument s
  else done (s.withChecksum (checksum (entropy s)))

/-- What `VALIDATE` writes (R116): the length verdict, and the weak-entropy flags where the length is at most 256. -/
def State.withVerdicts (s : State) : State :=
  let tooLong : Bool := entropyLength s > Config.maxEntBits
  { s with
    flags := { s.flags with
      lenv := lengthVerdict (entropyLength s)
      weakZero := !tooLong && allZeros (entropy s)
      weakOnes := !tooLong && allOnes (entropy s)
      weakNa := tooLong } }

/-- `VALIDATE` (R116): the verdicts; never an error (R115). -/
def execValidate (s : State) : Outcome State Fault Refusal := done s.withVerdicts

end Sys2Proof.Machine
end

