-- ==== Sys2Proof/Machine/Control.lean ====
section
/-! DEFINITION. The meaning of NOP (R202). A meaning is `Execute(c)` for its command together with the rest of
`Complete()` (R200): it ends in `done` or `fail`, which write PEND and STATUS (log 11). -/

namespace Sys2Proof.Machine

open Host (Outcome)

/-- `NOP` (R202): `done`. -/
def execNop (s : State) : Outcome State Fault Refusal := done s

end Sys2Proof.Machine
end

