-- ==== Sys2Proof/Machine/Dice.lean ====
section
/-! DEFINITION. The meanings of the die-roll sampler's commands: DICE_START (R161), DICE_ROLL (R164), DICE_FINISH (R167)
and DICE_MINROLLS (R175), each over the named writes its rule makes. -/

namespace Sys2Proof.Machine

open Host (Outcome)

/-- A new session for target `n` (R161): armed, with no rolls, an empty accumulator and no output. -/
def State.withSession (n : Nat) (s : State) : State :=
  { s with
    diceState := ⟨true, false, BitVec.ofNat 9 n⟩
    diceCount := ⟨0, 0⟩
    acc := 0
    diceOut := put [] }

/-- ARMED 0, everything else of the sampler kept (R161). -/
def State.disarmed (s : State) : State := { s with diceState := { s.diceState with armed := false } }

/-- `DICE_START` (R161): opens a session; a target that is 0, odd or above 256 closes any session and fails. -/
def execDiceStart (n : Nat) (s : State) : Outcome State Fault Refusal :=
  if notPositiveEven n || n > Config.diceMaxBits then fail .invalidArgument s.disarmed
  else done (s.withSession n)

/-- Every roll of a session is counted in RAW (R164). -/
def State.countRoll (s : State) : State :=
  { s with diceCount := { s.diceCount with raw := sat16 (s.diceCount.raw.toNat + 1) } }

/-- BADROLL 1 (R164, R166). -/
def State.markBadRoll (s : State) : State := { s with diceState := { s.diceState with badRoll := true } }

/-- An accepted digit of a session (R164): placed while one of the first TARGET/2 (R165), counted always. -/
def State.acceptDigit (d : Nat) (s : State) : State :=
  let k := s.diceState.target.toNat / 2
  let i := s.diceCount.accepted.toNat
  { s with
    acc := if i < k then setDigit s.acc i d else s.acc
    diceCount := { s.diceCount with accepted := sat16 (i + 1) } }

/-- `DICE_ROLL` (R164): one die face for the open session. -/
def execDiceRoll (face : Nat) (s : State) : Outcome State Fault Refusal :=
  if !s.diceState.armed then fail .sequenceError s
  else
    match classifyFace face with
    | .invalid => fail .invalidArgument s.countRoll.markBadRoll
    | .discarded => done s.countRoll
    | .accepted d => done (s.countRoll.acceptDigit d)

/-- The session's output into DICE_OUT (R167). -/
def State.withOutput (s : State) : State :=
  { s with diceOut := put (sessionOutput s.acc s.diceState.target.toNat) }

/-- `DICE_FINISH` (R167): the session's bit string; the session stays open (R170). The order of the checks is R169's. -/
def execDiceFinish (s : State) : Outcome State Fault Refusal :=
  if !s.diceState.armed then fail .sequenceError s
  else if s.diceState.badRoll then fail .invalidArgument s
  else if s.diceCount.accepted.toNat < minimumRolls s.diceState.target.toNat then fail .insufficientEntropy s
  else done s.withOutput

/-- The least number of accepted rolls into RESULT (R175). -/
def State.withMinimumRolls (n : Nat) (s : State) : State := { s with result := BitVec.ofNat 32 (minimumRolls n) }

/-- `DICE_MINROLLS` (R175): the least number of accepted rolls for N bits; the session is neither read nor written. -/
def execDiceMinRolls (n : Nat) (s : State) : Outcome State Fault Refusal :=
  if notPositiveEven n then fail .invalidArgument s
  else done (s.withMinimumRolls n)

end Sys2Proof.Machine
end

