-- ==== Sys2Proof/Machine/Grouper.lean ====
section
/-! DEFINITION. The meanings of the grouper's commands: ENCODE (R135), DECODE (R137) and SLICE (R143), each over the named
bit strings its rule builds and the named writes it makes. -/

namespace Sys2Proof.Machine

open Host (Outcome)

/-- ENCODE's combined bits: the entropy, then its checksum (R135). -/
def combinedBits (s : State) : BitString := entropy s ++ (checksum (entropy s)).2

/-- What a successful `ENCODE` writes (R135): DIGEST, CSUM, CB, the word count and all 24 indices, 0 past the word count. -/
def State.withEncoded (s : State) : State :=
  { s.withChecksum (checksum (entropy s)) with
    cb := combinedBits s
    wordCount := BitVec.ofNat 5 (group (combinedBits s)).length
    idx := tabulate 24 fun i => BitVec.ofNat 11 ((group (combinedBits s)).getD i 0) }

/-- `ENCODE` (R135): entropy and checksum to word indices. The check for an index above 2047 stands as the rule writes it
and is never taken (R132; log 12). -/
def execEncode (s : State) : Outcome State Fault Refusal :=
  if badEntropyLength (entropyLength s) then fail .invalidArgument s
  else if (group (combinedBits s)).any (2047 < ·) then fail .wordIndexOutOfRange s
  else done s.withEncoded

/-- DECODE's combined bits: the word indices' bits (R137). -/
def decodedBits (s : State) : BitString := ungroup (mnemonicIndices s)

/-- `e`, the entropy length DECODE splits its bits at (R137). -/
def decodedLength (s : State) : Nat := splitPoint (11 * mnemonicLength s)

/-- `raw`, the entropy part of the decoded bits (R137). -/
def decodedEntropy (s : State) : BitString := substr (decodedBits s) 0 (decodedLength s)

/-- `sc`, the supplied checksum: the rest of the decoded bits (R137). -/
def suppliedChecksum (s : State) : BitString := substr (decodedBits s) (decodedLength s) (11 * mnemonicLength s)

/-- What `DECODE` writes before its later checks (R137): CB, CSUM_SUPPLIED, ATYPICAL, and MATCH 0. -/
def State.withDecoded (s : State) : State :=
  { s with
    cb := decodedBits s
    csumSupplied := ChecksumReg.ofBits (suppliedChecksum s)
    flags := { s.flags with atypical := !standardWordCount (mnemonicLength s), matched := false } }

/-- What `DECODE` has written when it compares the checksums (R137): also DIGEST and CSUM of the decoded entropy. -/
def State.withRechecked (s : State) : State := s.withDecoded.withChecksum (checksum (decodedEntropy s))

/-- What a successful `DECODE` writes (R137): also MATCH 1, the entropy and its length. -/
def State.withRecovered (s : State) : State :=
  { s.withRechecked with
    flags := { s.withRechecked.flags with matched := true }
    ent := put (decodedEntropy s)
    entLen := BitVec.ofNat 16 (decodedLength s) }

/-- `DECODE` (R137): word indices to entropy, with the checksum check (R136). -/
def execDecode (s : State) : Outcome State Fault Refusal :=
  if mnemonicLength s > Config.maxWords then fail .invalidArgument s
  else if decodedLength s % 8 ≠ 0 then fail .invalidArgument s.withDecoded
  else if !checksumMatches (suppliedChecksum s) (checksum (decodedEntropy s)).2 then
    fail .checksumMismatch s.withRechecked
  else done s.withRecovered

/-- What a successful `SLICE` writes (R143). -/
def State.withField (pos width : Nat) (s : State) : State := { s with result := BitVec.ofNat 32 (field s.cb pos width) }

/-- `SLICE` (R143): a field of the combined bits, or `InvalidArgument` where it runs past their end. -/
def execSlice (pos width : Nat) (s : State) : Outcome State Fault Refusal :=
  if pos + width > s.cb.length then fail .invalidArgument s
  else done (s.withField pos width)

end Sys2Proof.Machine
end

