-- ==== Sys2Proof/Machine/Dispatch.lean ====
section
/-! DEFINITION. The dispatch: one arm per command, each one call of its meaning (R83, R204). -/

namespace Sys2Proof.Machine

open Host (Outcome)

def exec (i : Instr) (s : State) : Host.Outcome State Fault Refusal :=
  match i with
  | .nop => Sys2Proof.Machine.execNop s
  | .checksum => Sys2Proof.Machine.execChecksum s
  | .validate => Sys2Proof.Machine.execValidate s
  | .encode => Sys2Proof.Machine.execEncode s
  | .decode => Sys2Proof.Machine.execDecode s
  | .slice pos width => Sys2Proof.Machine.execSlice pos width s
  | .diceStart n => Sys2Proof.Machine.execDiceStart n s
  | .diceRoll face => Sys2Proof.Machine.execDiceRoll face s
  | .diceFinish => Sys2Proof.Machine.execDiceFinish s
  | .diceMinRolls n => Sys2Proof.Machine.execDiceMinRolls n s

end Sys2Proof.Machine
end

