-- ==== Sys2Proof/Machine/Engine.lean ====
section
/-! DEFINITION. The engine's turn (R200): decode the pending command word and execute it. -/

namespace Sys2Proof.Machine

open Host (Outcome)

/-- `Complete()` with the command word `c` (R200, R204): an illegal word reports `IllegalCommand` and executes nothing,
a command runs its meaning. -/
def completeWord (c : Word) (s : State) : Outcome State Fault Refusal :=
  match decode c with
  | .ok i => exec i s
  | .error _ => completeIllegal s

/-- The engine's turn: its one step is enabled iff BUSY = 1 (R200); otherwise nothing happens. While the reset input is
asserted every element holds its reset value (R230; log 9). -/
def engineTurn (s : State) : Outcome State Fault Refusal :=
  if s.resetPin then .next s.resetBlock
  else if s.status.busy then
    match s.pend with
    | some c => completeWord c s
    | none => .fault .emptyLatch
  else .next s

/-- One turn of whoever the schedule names next (R11, R69). When the schedule is empty the host makes no access, and the
engine completes whatever is pending: its weak fairness (R200; log 1). -/
def takeTurn (s : State) : Outcome State Fault Refusal :=
  match s.turns with
  | [] => engineTurn s
  | .engine :: rest => engineTurn (s.withTurns rest)
  | .host a :: rest => hostTurn a (s.withTurns rest)
  | .resetPin asserted :: rest => .next (resetPinTurn asserted (s.withTurns rest))

/-- The state in which the engine's next turn completes the command word `c`: PEND holds it and BUSY is 1, as after a `CMD`
write (R200), and the engine's turn comes next (log 14). -/
def State.withPending (c : Word) (s : State) : State :=
  { s with
    pend := some c
    status := { s.status with busy := true }
    resetPin := false
    turns := .engine :: s.turns }

end Sys2Proof.Machine
end

