-- ==== Sys2Proof/Machine/Step.lean ====
section
/-! DEFINITION. One step of the machine: one turn of one agent; and the host's `withFetchWord`. -/

namespace Sys2Proof.Machine

open Host (Outcome)

/-- One step: the next turn of the schedule (R11, R69). -/
def step (s : State) : Outcome State Fault Refusal := takeTurn s

/-- `s` with the command word whose bits are `w` (the bits above `nbits` 0) where the next step takes its command from: the
pending-command latch, with the engine's turn next (log 14). -/
def State.withFetchWord (s : State) (nbits w : Nat) : State :=
  s.withPending (BitVec.ofNat 32 (w % 2 ^ nbits))

end Sys2Proof.Machine
end

