-- ==== Sys2Proof/Laws/PerInstr.lean ====
section
/-! SUPPORT. The family of statements made per command: the low byte of a command's word is its opcode (R80, R83). -/

namespace Sys2Proof.Laws

/-- The low byte of fields laid one after the other is that of the last ones. -/
theorem lowByte_append {m n : Nat} (x : BitVec m) (y : BitVec n) (h : 8 ≤ n) :
    (x ++ y).extractLsb' 0 8 = y.extractLsb' 0 8 := by
  ext k hk
  have hn : k < n := by omega
  simp [hn, BitVec.getLsbD_append]

theorem lowByte_self (x : BitVec 8) : x.extractLsb' 0 8 = x := by
  ext k hk
  simp

namespace OpcodeByte

/-- Bits 7:0 of the command's word are its opcode OP (R80). -/
def Statement (i : Instr) : Prop := (Sys2Proof.encode i).extractLsb' 0 8 = opcode i

theorem nop : Statement .nop := rfl

theorem checksum : Statement .checksum := rfl

theorem validate : Statement .validate := rfl

theorem encode : Statement .encode := rfl

theorem decode : Statement .decode := rfl

theorem slice (pos width : Nat) : Statement (.slice pos width) :=
  (lowByte_append _ _ (by decide)).trans <| (lowByte_append _ _ (by decide)).trans <|
    (lowByte_append _ _ (by decide)).trans (lowByte_self _)

theorem diceStart (n : Nat) : Statement (.diceStart n) :=
  (lowByte_append _ _ (by decide)).trans <| (lowByte_append _ _ (by decide)).trans (lowByte_self _)

theorem diceRoll (face : Nat) : Statement (.diceRoll face) :=
  (lowByte_append _ _ (by decide)).trans <| (lowByte_append _ _ (by decide)).trans (lowByte_self _)

theorem diceFinish : Statement .diceFinish := rfl

theorem diceMinRolls (n : Nat) : Statement (.diceMinRolls n) :=
  (lowByte_append _ _ (by decide)).trans <| (lowByte_append _ _ (by decide)).trans (lowByte_self _)

end OpcodeByte

end Sys2Proof.Laws
end

