-- ==== Sys2Proof/Machine/Assembler.lean ====
section
/-! DEFINITION. The host's notation of R87 and its pseudo-operations of R88, as turns of the host, and the order a host
follows for one command (R234). -/

namespace Sys2Proof.Machine

/-- The offset of a register (R22). -/
def Reg.offset : Reg → Nat
  | .id => 0x000
  | .ctrl => 0x004
  | .status => 0x008
  | .cmd => 0x00C
  | .entLen => 0x010
  | .flags => 0x014
  | .csum => 0x018
  | .csumSupplied => 0x01C
  | .wordCount => 0x020
  | .cbLen => 0x024
  | .result => 0x028
  | .ent i => 0x040 + 4 * i
  | .digest i => 0x060 + 4 * i
  | .idx i => 0x080 + 4 * i
  | .diceState => 0x100
  | .diceCount => 0x104
  | .diceOut i => 0x120 + 4 * i

/-- The register exists: its number is in its group (R22). -/
def Reg.valid : Reg → Bool
  | .ent i => i < 8
  | .digest i => i < 8
  | .idx i => i < 24
  | .diceOut i => i < 8
  | _ => true

/-- `W <reg>, <value>`: `HostWrite` at the register's offset (R87). -/
def hostW (r : Reg) (v : Word) : Turn := .host ⟨Config.base + r.offset, 32, .write v⟩

/-- `R <reg>`: `HostRead` at the register's offset (R87). -/
def hostR (r : Reg) : Turn := .host ⟨Config.base + r.offset, 32, .read⟩

/-- A command by its mnemonic: `W CMD, <word>` (R87). -/
def command (i : Instr) : Turn := hostW .cmd (encode i)

/-- `WAIT` (R88) when the engine completes after `polls` reads that still see BUSY = 1, and the next read sees 0. -/
def waitTurns (polls : Nat) : List Turn := List.replicate polls (hostR .status) ++ [.engine, hostR .status]

/-- `<command> !` (R88): the command, then WAIT. -/
def commandAndWait (i : Instr) (polls : Nat) : List Turn := command i :: waitTurns polls

/-- `DICE_ROLLS f1, f2, ..., fk` (R88), each roll waited for with the same number of polls. -/
def diceRolls (faces : List Nat) (polls : Nat) : List Turn :=
  faces.flatMap fun f => commandAndWait (.diceRoll f) polls

/-- `W ENT, <hex string>` (R88): the given words into ENT[0], ENT[1], and so on. -/
def writeEntropy (ws : List Word) : List Turn := (List.range ws.length).map fun i => hostW (.ent i) (ws.getD i 0)

/-- `CLEAR` (R88): `W STATUS, 0xE` clears DONE, ERR and OVERRUN. -/
def clearStatus : Turn := hostW .status 0xE

end Sys2Proof.Machine
end

