-- ==== Sys2Proof/Safety.lean ====
section
/-! DEFINITION. What the claims mean by a sound state and a safe step: the invariants of the machine, each a property the
spec states of every reachable state, and the runs that never stop. -/

namespace Sys2Proof.Machine

/-- PEND holds a word exactly while BUSY = 1 (R46). -/
def LatchAgrees (s : State) : Prop := s.pend.isSome = s.status.busy

/-- The completion codes some command produces (R201); the others are never reported (R203). -/
def codeProduced (c : BitVec 4) : Bool := c == 0 || c == 1 || c == 5 || c == 6 || c == 8 || c == 9

/-- STATUS as the rules leave it (R24, R200, R203): a produced code, none while a command is in flight, and ERR only with a
code. -/
structure StatusSound (s : State) : Prop where
  code_produced : codeProduced s.status.errCode = true
  busy_clean : s.status.busy = true → s.status.done = false ∧ s.status.err = false ∧ s.status.errCode = 0
  err_has_code : s.status.err = true → s.status.errCode ≠ 0

/-- A checksum register: at most 8 bits, its value right-aligned in LEN bits (R28, R29, R110). -/
def ChecksumReg.Fits (c : ChecksumReg) : Prop := c.len.toNat ≤ 8 ∧ c.value.toNat < 2 ^ c.len.toNat

/-- The combined bits and the checksums fit their registers (R28, R29, R45), and no weak flag is set with WEAK_NA (R116). -/
structure BuffersFit (s : State) : Prop where
  combined : s.cb.length ≤ Config.maxCbBits
  checksum : s.csum.Fits
  supplied : s.csumSupplied.Fits
  weak : s.flags.weakNa = true → s.flags.weakZero = false ∧ s.flags.weakOnes = false

/-- The die-roll session (R38, R162): an open session's target is even and in 2..256, no more rolls are accepted than seen,
ACC is 0 from the first digit not yet accepted (or not kept) on, and DICE_OUT is 0 from position TARGET on. -/
structure SessionSound (s : State) : Prop where
  target : s.diceState.armed = true →
    s.diceState.target.toNat % 2 = 0 ∧ 2 ≤ s.diceState.target.toNat ∧ s.diceState.target.toNat ≤ Config.diceMaxBits
  counted : s.diceCount.accepted.toNat ≤ s.diceCount.raw.toNat
  digits : s.acc.toNat < 4 ^ min s.diceCount.accepted.toNat (s.diceState.target.toNat / 2)
  output : ∀ p, s.diceState.target.toNat ≤ p → packedBit s.diceOut p = false

/-- While the reset input is asserted every element of R48 holds its reset value (R230). -/
def ResetHeld (s : State) : Prop := s.resetPin = true → s.resetBlock = s

/-- The block is idle and open to a command: no command in flight and the reset input released. -/
def Idle (s : State) : Prop := s.status.busy = false ∧ s.resetPin = false

/-- A command word is in flight and the reset input released. -/
def InFlight (c : Word) (s : State) : Prop := s.status.busy = true ∧ s.pend = some c ∧ s.resetPin = false

/-- An access the block accepts: 32 bits at a multiple of 4 inside the window (R61). -/
def Access.Accepted (a : Access) : Prop :=
  a.width = 32 ∧ ∃ off, off < Config.windowSize ∧ off % 4 = 0 ∧ a.addr = Config.base + off

/-- The access writes `CTRL` with bit 1 set: a soft reset (R231). -/
def Access.SoftReset (a : Access) : Prop :=
  a.addr = Config.base + 0x004 ∧ ∃ v, a.kind = .write v ∧ v.getLsbD 1 = true

/-- The turn that comes next is one of the events that lower `irq` (R210): the host clears DONE, clears IE, resets by
`CTRL`, or issues a command to the idle block, or the reset input has its turn (R230). -/
def LowersIrq (s : State) : Prop :=
  ∃ rest, (∃ b, s.turns = .resetPin b :: rest) ∨ ∃ v,
    (s.turns = hostW .status v :: rest ∧ v.getLsbD 1 = true) ∨
    (s.turns = hostW .ctrl v :: rest ∧ (v.getLsbD 0 = false ∨ v.getLsbD 1 = true)) ∨
    (s.turns = hostW .cmd v :: rest ∧ s.status.busy = false)

/-- The step that follows `s` is no fault. -/
def NoFault (s : State) : Prop := ∀ r, step s ≠ .fault r

/-- `t` is `s` after a command completed with `code` (R200) having written, beside STATUS, no register but those of
`written`: PEND empty, STATUS by the code, every other register as read before; and CTRL, the reset input and the model's
own fields as they were. -/
structure CompletesWith (code : ErrCode) (written : List Reg) (s t : State) : Prop where
  pend : t.pend = none
  status : t.status = ⟨false, true, code != .noError, s.status.overrun, code.bits⟩
  ctrl : t.ctrl = s.ctrl
  resetPin : t.resetPin = s.resetPin
  turns : t.turns = s.turns
  response : t.response = s.response
  draws : t.draws = s.draws
  frame : ∀ r, r ≠ .status → r ∉ written → readReg t r = readReg s r

/-- The internal elements of R45 are as they were. -/
structure KeepsHidden (s t : State) : Prop where
  cb : t.cb = s.cb
  acc : t.acc = s.acc

/-- `ENT[0..7]`. -/
def entRegs : List Reg := (List.range 8).map .ent

/-- `DIGEST[0..7]`. -/
def digestRegs : List Reg := (List.range 8).map .digest

/-- `IDX[0..23]`. -/
def idxRegs : List Reg := (List.range 24).map .idx

/-- `DICE_OUT[0..7]`. -/
def diceOutRegs : List Reg := (List.range 8).map .diceOut

/-- Byte j of a bit string packed in registers, read off the words: `X[j div 4][31 - 8(j mod 4) : 24 - 8(j mod 4)]`
(R63). -/
def packedByte {k : Nat} (x : Vector Word k) (j : Nat) : Byte :=
  (x.toList.getD (j / 4) 0).extractLsb' (24 - 8 * (j % 4)) 8

/-- The message CHECKSUM and ENCODE hash: the first `len / 8` bytes of `ENT` (R63, R109). -/
def entropyMessage (s : State) : List Byte := (List.range (entropyLength s / 8)).map (packedByte s.ent)

/-- A length CHECKSUM and ENCODE accept (R112, R135). -/
def LengthAccepted (s : State) : Prop := entropyLength s % 8 = 0 ∧ entropyLength s ≤ Config.maxEntBits

/-- The checksum registers after hashing `msg`, the message of `len` entropy bits (R108 to R111): DIGEST is the hash, and
CSUM its first `len / 32` bits, which are the top bits of the first hash word. -/
structure ChecksumOf (msg : List Byte) (len : Nat) (t : State) : Prop where
  digest_eq : t.digest = sha256 msg
  len_eq : t.csum.len.toNat = len / 32
  value_eq : t.csum.value.toNat = ((sha256 msg).toList.getD 0 0).toNat / 2 ^ (32 - len / 32)

/-- The bits of RSV in the format of an opcode (R81, R83), or `none` for an opcode not in the map. -/
def reservedMask (op : Nat) : Option Word :=
  if op ∈ [0x00, 0x01, 0x02, 0x03, 0x04, 0x12] then some 0xFFFFFF00
  else if op = 0x05 then some 0xFFE00000
  else if op = 0x10 ∨ op = 0x13 then some 0xFF000000
  else if op = 0x11 then some 0xFFFFF800
  else none

/-- The command words R85 calls illegal: OP not in the map, or a bit of RSV set. -/
def IllegalWord (c : Word) : Prop :=
  reservedMask (c.toNat % 256) = none ∨ ∃ m, reservedMask (c.toNat % 256) = some m ∧ c &&& m ≠ 0

/-- The implemented bits of each register: every other bit reads 0 and ignores writes (R21 to R38). -/
def implementedBits : Reg → Word
  | .ctrl => 0x00000001
  | .status => 0x000000FF
  | .cmd => 0x00000000
  | .entLen => 0x0000FFFF
  | .flags => 0x0000007F
  | .csum => 0x00000FFF
  | .csumSupplied => 0x00000FFF
  | .wordCount => 0x0000001F
  | .cbLen => 0x000001FF
  | .idx _ => 0x000007FF
  | .diceState => 0x01FF0003
  | _ => 0xFFFFFFFF

/-- The read-only registers (R22). -/
def Reg.readOnly : Reg → Bool
  | .ctrl => false
  | .status => false
  | .cmd => false
  | .entLen => false
  | .wordCount => false
  | .ent _ => false
  | .idx _ => false
  | _ => true

/-- The registers the host reads back what it wrote to (R22: RW, but CTRL). -/
def Reg.stores : Reg → Bool
  | .entLen => true
  | .wordCount => true
  | .ent _ => true
  | .idx _ => true
  | _ => false

/-- The commands executed one after the other, each to its completion. -/
def execAll : List Instr → State → Option State
  | [], s => some s
  | i :: is, s =>
    match exec i s with
    | .next t => execAll is t
    | _ => none

/-- The FACE operands of the DICE_ROLLs among some commands, in order (R168). -/
def facesOf (commands : List Instr) : List Nat :=
  commands.filterMap fun
    | .diceRoll f => some f
    | _ => none

/-- The faces R160 accepts. -/
def acceptedFace (f : Nat) : Bool := f == 1 || f == 2 || f == 3 || f == 6

/-- The base-4 digits of the accepted rolls, in order: 4 and 5 discarded, 6 remapped to 0 (R160). -/
def acceptedDigits (rolls : List Nat) : List Nat :=
  (rolls.filter fun f => f != 4 && f != 5).map fun f => if f = 6 then 0 else f

/-- `total`, the sum of digit i times 4^i (R165, R168): the first digit is the least significant. -/
def digitTotal (ds : List Nat) : Nat := ds.foldr (fun d rest => d + 4 * rest) 0

/-- The source's `rollsToBitstring(rolls, targetBits)` as R168 and R169 give it: the whole roll sequence at once. -/
def rollsToBitstring (rolls : List Nat) (n : Nat) : Except ErrCode BitString :=
  if rolls.any fun f => f == 0 || 6 < f then .error .invalidArgument
  else if (acceptedDigits rolls).length < n / 2 then .error .insufficientEntropy
  else .ok (bitsOf n (digitTotal (acceptedDigits rolls) % 2 ^ n))

/-- `k` steps from `s` are all taken, and end in `t`. -/
abbrev Runs (k : Nat) (s t : State) : Prop := core.run k s = .next t

end Sys2Proof.Machine
end

