-- ==== Sys2Proof/Certificates/Slice0/Obligations.lean ====
section
/-! DEFINITION. The statements for the provers, each formalising the rules of spec/ its docstring names. A statement about a
command says what its completion writes (read off the registers), what it leaves, and every way it can fail. A statement
about a step gives the agents' turns as the model does, in `State.turns` (log 1), and a read's answer in `State.response`
(log 4): that form is the model's choice, its effect on the block is the rules'. R84, R138, R140, R141, R162, R168, R171
and R234 are inferences the spec marks as its own ([derived]), and R100 to R107 carry its mark "from general knowledge, not in
source": the statements on them are derived from the rules they rest on. -/

open Sys2Proof Sys2Proof.Machine Host

/-! ### Encoding (30_encoding.md) -/

/-- Words written out from the formats of R81 decode as the commands they encode, and words of R85 do not decode. -/
def Obligations.EncodingExamplesDecode : Prop :=
  decode 0x00000000 = .ok .nop ∧
  decode 0x00000001 = .ok .checksum ∧
  decode 0x00147905 = .ok (.slice 121 11) ∧
  decode 0x00010010 = .ok (.diceStart 256) ∧
  decode 0x00000611 = .ok (.diceRoll 6) ∧
  decode 0x00008013 = .ok (.diceMinRolls 128) ∧
  decode 0x00000811 = .error .reservedBits ∧
  decode 0x00000006 = .error .unknownOpcode

/-- Every command the formats can hold decodes from its own word (R81, R82, R87). -/
def Obligations.DecodeInvertsEncode : Prop :=
  ∀ i : Instr, WellFormed i → decode (encode i) = .ok i

/-- A word that decodes is the word of the command it decodes as, and that command is well formed: decoding drops no bit
(R81, R82, R85). -/
def Obligations.EncodeInvertsDecode : Prop :=
  ∀ (c : Word) (i : Instr), decode c = .ok i → WellFormed i ∧ encode i = c

/-- The machine's decoder is the procedure of R86 over the table of R84, an inference the spec marks as its own: a word
decodes as the row it fits, no two rows fit one word, and a word that fits none is illegal. -/
def Obligations.DecodeFollowsMatchTable : Prop :=
  (∀ c : Word, (decode c).toOption = decodeByTable c) ∧
  ∀ (c : Word) (j k : Nat) (hj : j < matchTable.length) (hk : k < matchTable.length),
    (matchTable[j]).fits c = true → (matchTable[k]).fits c = true → j = k

/-- The illegal words are those of R85; one is issued like any other word, and when the engine's turn comes (scheduled, or
because no turn is) it completes with `IllegalCommand` and no other state change. -/
def Obligations.IllegalWordsCompleteAsIllegal : Prop :=
  ∀ c : Word, (IllegalWord c ↔ ∃ e, decode c = .error e) ∧
    (∀ (s : State) (rest : List Turn), IllegalWord c → Idle s → s.turns = hostW .cmd c :: rest →
      ∃ t, step s = .next t ∧ InFlight c t) ∧
    ∀ s : State, IllegalWord c → InFlight c s → (s.turns = [] ∨ ∃ rest, s.turns = .engine :: rest) →
      ∃ t, step s = .next t ∧ CompletesWith .illegalCommand [] (s.withTurns s.turns.tail) t ∧ KeepsHidden s t

/-! ### The step (R11, R200) -/

/-- With a command word in flight and the engine's turn next (scheduled, or because no turn is), the step is the meaning of
the decoded command, run on the state with that turn taken off the schedule. -/
def Obligations.StepRunsDecodedCommand : Prop :=
  ∀ (s : State) (c : Word) (i : Instr), InFlight c s → decode c = .ok i →
    (s.turns = [] ∨ ∃ rest, s.turns = .engine :: rest) →
    step s = exec i (s.withTurns s.turns.tail)

/-- With no command in flight the block executes nothing (R200, R232). That the schedule may give the idle engine a turn,
which is taken and changes nothing but the schedule, and that with no turn scheduled the machine stays as it is, are the
model's choices (logs 1, 2). -/
def Obligations.IdleBlockExecutesNothing : Prop :=
  ∀ s : State, Idle s →
    (s.turns = [] → step s = .next s) ∧
    ∀ rest, s.turns = .engine :: rest → step s = .next (s.withTurns rest)

/-- A `CMD` write while idle issues the command (R200): PEND holds the word, BUSY is 1, DONE, ERR and ERRCODE are 0, OVERRUN
and everything else stays. -/
def Obligations.CmdWriteIssuesCommand : Prop :=
  ∀ (s : State) (v : Word) (rest : List Turn), Idle s → s.turns = hostW .cmd v :: rest →
    ∃ t, step s = .next t ∧ t.pend = some v ∧ t.status = ⟨true, false, false, s.status.overrun, 0⟩ ∧
      (∀ r, r ≠ .status → readReg t r = readReg s r) ∧ KeepsHidden s t ∧ t.turns = rest ∧ InFlight v t

/-- Every command word in flight completes when the engine's turn comes, legal or not (R200), and reports a code some
command produces: 2, 3, 4, 7 and 10 to 15 are never reported (R203). -/
def Obligations.EveryCommandCompletes : Prop :=
  ∀ (s : State) (c : Word) (rest : List Turn), InFlight c s → s.turns = .engine :: rest →
    ∃ t, step s = .next t ∧ t.pend = none ∧ t.status.busy = false ∧ t.status.done = true ∧
      (t.status.err = true ↔ t.status.errCode ≠ 0) ∧ t.status.overrun = s.status.overrun ∧
      t.ctrl = s.ctrl ∧ t.turns = rest ∧ codeProduced t.status.errCode = true

/-! ### The commands, one statement each (40_checksum.md, 41_grouper.md, 42_dice.md, 60_exceptions.md) -/

/-- NOP completes with code 0 and writes nothing but STATUS (R202). -/
def Obligations.NopOnlyCompletes : Prop :=
  decode 0x00000000 = .ok .nop ∧
  (∀ c : Word, c.toNat % 256 = 0 → c ≠ 0 → decode c = .error .reservedBits) ∧
  ∀ s : State, ∃ t, exec .nop s = .next t ∧ CompletesWith .noError [] s t ∧ KeepsHidden s t

/-- CHECKSUM hashes the first L bits of ENT, for L a multiple of 8 up to 256, into DIGEST and CSUM; for every other L it
fails `InvalidArgument` and changes only STATUS (R112). -/
def Obligations.ChecksumHashesEntropy : Prop :=
  decode 0x00000001 = .ok .checksum ∧
  ∀ s : State,
    (LengthAccepted s → ∃ t, exec .checksum s = .next t ∧
      CompletesWith .noError (.csum :: digestRegs) s t ∧ KeepsHidden s t ∧
      ChecksumOf (entropyMessage s) (entropyLength s) t) ∧
    (¬ LengthAccepted s → ∃ t, exec .checksum s = .next t ∧
      CompletesWith .invalidArgument [] s t ∧ KeepsHidden s t)

/-- VALIDATE classifies the length in the order of R113, finds all-zero and all-one entropy over exactly L bits for L up to
256 and sets WEAK_NA above (R114, R116), and never fails (R115). -/
def Obligations.ValidateClassifiesEntropy : Prop :=
  decode 0x00000002 = .ok .validate ∧
  ∀ s : State, ∃ t, exec .validate s = .next t ∧
    CompletesWith .noError [.flags] s t ∧ KeepsHidden s t ∧
    (entropyLength s % 32 ≠ 0 → t.flags.lenv = 1) ∧
    (entropyLength s % 32 = 0 → entropyLength s < 128 → t.flags.lenv = 2) ∧
    (entropyLength s % 32 = 0 → 256 < entropyLength s → t.flags.lenv = 3) ∧
    (entropyLength s % 32 = 0 → 128 ≤ entropyLength s → entropyLength s ≤ 256 → t.flags.lenv = 0) ∧
    (256 < entropyLength s →
      t.flags.weakZero = false ∧ t.flags.weakOnes = false ∧ t.flags.weakNa = true) ∧
    (entropyLength s ≤ 256 →
      (t.flags.weakZero = true ↔ ∀ p < entropyLength s, packedBit s.ent p = false) ∧
      (t.flags.weakOnes = true ↔ ∀ p < entropyLength s, packedBit s.ent p = true) ∧
      t.flags.weakNa = false) ∧
    t.flags.matched = s.flags.matched ∧ t.flags.atypical = s.flags.atypical

/-- ENCODE appends the checksum to the entropy, splits the result into 11-bit indices, drops the remainder, and clears the
indices past the word count; a length CHECKSUM rejects fails `InvalidArgument` and changes only STATUS (R135). -/
def Obligations.EncodeProducesIndices : Prop :=
  decode 0x00000003 = .ok .encode ∧
  ∀ s : State,
    (LengthAccepted s → ∃ t, exec .encode s = .next t ∧
      CompletesWith .noError (.csum :: .wordCount :: .cbLen :: (digestRegs ++ idxRegs)) s t ∧
      t.acc = s.acc ∧ ChecksumOf (entropyMessage s) (entropyLength s) t ∧
      t.cb.length = entropyLength s + entropyLength s / 32 ∧
      (∀ p < entropyLength s, t.cb.getD p false = packedBit s.ent p) ∧
      (∀ p < entropyLength s / 32, t.cb.getD (entropyLength s + p) false = packedBit t.digest p) ∧
      t.wordCount.toNat = (entropyLength s + entropyLength s / 32) / 11 ∧
      (∀ i < t.wordCount.toNat, ∀ b < 11,
        (t.idx.toList.getD i 0).getLsbD (10 - b) = t.cb.getD (11 * i + b) false) ∧
      (∀ i < 24, t.wordCount.toNat ≤ i → t.idx.toList.getD i 0 = 0)) ∧
    (¬ LengthAccepted s → ∃ t, exec .encode s = .next t ∧
      CompletesWith .invalidArgument [] s t ∧ KeepsHidden s t)

/-- DECODE (R137): more than 24 words fail with only STATUS changed; otherwise CB, CSUM_SUPPLIED, ATYPICAL and MATCH are
written, a split that is no whole number of bytes fails, a checksum that differs from the recomputed one fails
(R136), and a match writes the entropy back. -/
def Obligations.DecodeRecoversEntropy : Prop :=
  decode 0x00000004 = .ok .decode ∧
  ∀ s : State,
    (24 < s.wordCount.toNat → ∃ t, exec .decode s = .next t ∧
      CompletesWith .invalidArgument [] s t ∧ KeepsHidden s t) ∧
    (s.wordCount.toNat ≤ 24 → ∃ t, exec .decode s = .next t ∧ t.acc = s.acc ∧
      t.cb.length = 11 * s.wordCount.toNat ∧
      (∀ i < s.wordCount.toNat, ∀ b < 11,
        t.cb.getD (11 * i + b) false = (s.idx.toList.getD i 0).getLsbD (10 - b)) ∧
      t.csumSupplied.len.toNat = 11 * s.wordCount.toNat - 32 * (11 * s.wordCount.toNat) / 33 ∧
      (∀ k < 8, t.csumSupplied.value.getLsbD k =
        (decide (k < t.csumSupplied.len.toNat) && t.cb.getD (11 * s.wordCount.toNat - 1 - k) false)) ∧
      (t.flags.atypical = true ↔ s.wordCount.toNat ∉ [12, 15, 18, 21, 24]) ∧
      t.flags.lenv = s.flags.lenv ∧ t.flags.weakZero = s.flags.weakZero ∧
      t.flags.weakOnes = s.flags.weakOnes ∧ t.flags.weakNa = s.flags.weakNa ∧
      ((32 * (11 * s.wordCount.toNat) / 33) % 8 ≠ 0 →
        CompletesWith .invalidArgument [.cbLen, .csumSupplied, .flags] s t ∧ t.flags.matched = false) ∧
      ((32 * (11 * s.wordCount.toNat) / 33) % 8 = 0 →
        ChecksumOf (bytes (t.cb.take (32 * (11 * s.wordCount.toNat) / 33)))
          (32 * (11 * s.wordCount.toNat) / 33) t ∧
        (t.csum ≠ t.csumSupplied →
          CompletesWith .checksumMismatch (.cbLen :: .csumSupplied :: .flags :: .csum :: digestRegs) s t ∧
          t.flags.matched = false) ∧
        (t.csum = t.csumSupplied →
          CompletesWith .noError
            (.cbLen :: .csumSupplied :: .flags :: .csum :: .entLen :: (digestRegs ++ entRegs)) s t ∧
          t.flags.matched = true ∧
          t.entLen.toNat = 32 * (11 * s.wordCount.toNat) / 33 ∧
          ∀ p < 256, packedBit t.ent p =
            (decide (p < 32 * (11 * s.wordCount.toNat) / 33) && t.cb.getD p false))))

/-- Which word counts DECODE can split (R138, the spec's own inference): for W up to 24 the split is a whole number of bytes
exactly for the multiples of 3, where both checksums have W / 3 bits; every other W fails `InvalidArgument`. -/
def Obligations.DecodableWordCounts : Prop :=
  ∀ s : State, s.wordCount.toNat ≤ 24 → ∃ t, exec .decode s = .next t ∧
    (splitPoint (11 * s.wordCount.toNat) % 8 = 0 ↔
      s.wordCount.toNat ∈ [0, 3, 6, 9, 12, 15, 18, 21, 24]) ∧
    (s.wordCount.toNat ∈ [0, 3, 6, 9, 12, 15, 18, 21, 24] →
      splitPoint (11 * s.wordCount.toNat) = 32 * s.wordCount.toNat / 3 ∧
      t.csumSupplied.len.toNat = s.wordCount.toNat / 3 ∧ t.csum.len.toNat = s.wordCount.toNat / 3 ∧
      t.status.errCode ≠ 1) ∧
    (s.wordCount.toNat ∉ [0, 3, 6, 9, 12, 15, 18, 21, 24] →
      (s.wordCount.toNat, splitPoint (11 * s.wordCount.toNat)) ∈
        [(1, 10), (2, 21), (4, 42), (5, 53), (7, 74), (8, 85), (10, 106), (11, 117), (13, 138), (14, 149), (16, 170),
          (17, 181), (19, 202), (20, 213), (22, 234), (23, 245)] ∧
      t.status.errCode = 1)

/-- After a successful DECODE `str(ENT, ENT_LEN.LEN)` is the raw entropy, the indices' bits without the checksum bits, and
every later bit of ENT is 0 (R139). -/
def Obligations.DecodedEntropyExcludesChecksum : Prop :=
  ∀ s t : State, exec .decode s = .next t → t.status.err = false →
    str t.ent t.entLen.toNat = (ungroup (mnemonicIndices s)).take (splitPoint (11 * mnemonicLength s)) ∧
    ∀ p, t.entLen.toNat ≤ p → p < 256 → packedBit t.ent p = false

/-- SLICE reads w bits of the combined bits from POS on, the first the most significant; past the end it fails
`InvalidArgument` and changes only STATUS (R143). -/
def Obligations.SliceReadsField : Prop :=
  ∀ (s : State) (pos width : Nat), WellFormed (.slice pos width) →
    decode (BitVec.ofNat 32 (0x05 ||| pos <<< 8 ||| (width - 1) <<< 17)) = .ok (.slice pos width) ∧
    (pos + width ≤ s.cb.length → ∃ t, exec (.slice pos width) s = .next t ∧
      CompletesWith .noError [.result] s t ∧ KeepsHidden s t ∧
      ∀ k < 32, t.result.getLsbD k = (decide (k < width) && s.cb.getD (pos + (width - 1 - k)) false)) ∧
    (s.cb.length < pos + width → ∃ t, exec (.slice pos width) s = .next t ∧
      CompletesWith .invalidArgument [] s t ∧ KeepsHidden s t)

/-- After a successful ENCODE, SLICE of the 11 bits at 11i reads word index i (R131, R143). -/
def Obligations.SliceAfterEncodeReadsIndex : Prop :=
  ∀ (s t : State) (i : Nat), exec .encode s = .next t → t.status.err = false → i < t.wordCount.toNat →
    ∃ u, exec (.slice (11 * i) 11) t = .next u ∧ u.status.err = false ∧
      u.result = (t.idx.toList.getD i 0).setWidth 32

/-- DICE_START opens a session for an even target of 2..256, with no rolls and no output; any other target closes the
session and fails `InvalidArgument`, all other sampler state kept (R161). -/
def Obligations.DiceStartOpensSession : Prop :=
  ∀ (s : State) (n : Nat), WellFormed (.diceStart n) →
    decode (BitVec.ofNat 32 (0x10 ||| n <<< 8)) = .ok (.diceStart n) ∧
    (n ≠ 0 → n % 2 = 0 → n ≤ 256 → ∃ t, exec (.diceStart n) s = .next t ∧
      CompletesWith .noError (.diceState :: .diceCount :: diceOutRegs) s t ∧ t.cb = s.cb ∧ t.acc = 0 ∧
      t.diceState.armed = true ∧ t.diceState.badRoll = false ∧ t.diceState.target.toNat = n ∧
      readReg t .diceState = BitVec.ofNat 32 (n * 0x10000 + 1) ∧ readReg t .diceCount = 0 ∧
      ∀ r ∈ diceOutRegs, readReg t r = 0) ∧
    (n = 0 ∨ n % 2 ≠ 0 ∨ 256 < n → ∃ t, exec (.diceStart n) s = .next t ∧
      CompletesWith .invalidArgument [.diceState] s t ∧ KeepsHidden s t ∧
      t.diceState = { s.diceState with armed := false })

/-- DICE_ROLL (R164 with the policy of R160 and the placement of R165): without a session `SequenceError` and nothing else;
with one, RAW counts every face, 0 and 7 set BADROLL and fail, 4 and 5 do no more, and the rest are counted and, while
one of the first TARGET/2, placed at bits 2i+1:2i of ACC. -/
def Obligations.DiceRollFeedsFace : Prop :=
  ∀ (s : State) (face : Nat), WellFormed (.diceRoll face) →
    decode (BitVec.ofNat 32 (0x11 ||| face <<< 8)) = .ok (.diceRoll face) ∧
    (s.diceState.armed = false → ∃ t, exec (.diceRoll face) s = .next t ∧
      CompletesWith .sequenceError [] s t ∧ KeepsHidden s t) ∧
    (s.diceState.armed = true → ∃ t, exec (.diceRoll face) s = .next t ∧ t.cb = s.cb ∧
      t.diceCount.raw.toNat = min (s.diceCount.raw.toNat + 1) 0xFFFF ∧
      (face = 0 ∨ face = 7 →
        CompletesWith .invalidArgument [.diceState, .diceCount] s t ∧ t.acc = s.acc ∧
        t.diceState = { s.diceState with badRoll := true } ∧
        t.diceCount.accepted = s.diceCount.accepted) ∧
      (face = 4 ∨ face = 5 →
        CompletesWith .noError [.diceCount] s t ∧ t.acc = s.acc ∧
        t.diceCount.accepted = s.diceCount.accepted) ∧
      (face = 1 ∨ face = 2 ∨ face = 3 ∨ face = 6 →
        CompletesWith .noError [.diceCount] s t ∧
        t.diceCount.accepted.toNat = min (s.diceCount.accepted.toNat + 1) 0xFFFF ∧
        (s.diceState.target.toNat / 2 ≤ s.diceCount.accepted.toNat → t.acc = s.acc) ∧
        (s.diceCount.accepted.toNat < s.diceState.target.toNat / 2 → ∀ b < 256,
          t.acc.getLsbD b =
            if b / 2 = s.diceCount.accepted.toNat then (if face = 6 then 0 else face).testBit (b % 2)
            else s.acc.getLsbD b)))

/-- DICE_FINISH (R167): `SequenceError`, `InvalidArgument` and `InsufficientEntropy` in that order (R169), with nothing but
STATUS changed; else DICE_OUT takes the low TARGET bits of ACC, most significant first. The session stays as it is
(R170). -/
def Obligations.DiceFinishPacksOutput : Prop :=
  decode 0x00000012 = .ok .diceFinish ∧
  ∀ s : State,
    (s.diceState.armed = false → ∃ t, exec .diceFinish s = .next t ∧
      CompletesWith .sequenceError [] s t ∧ KeepsHidden s t) ∧
    (s.diceState.armed = true → s.diceState.badRoll = true → ∃ t, exec .diceFinish s = .next t ∧
      CompletesWith .invalidArgument [] s t ∧ KeepsHidden s t) ∧
    (s.diceState.armed = true → s.diceState.badRoll = false →
      s.diceCount.accepted.toNat < (s.diceState.target.toNat + 1) / 2 → ∃ t, exec .diceFinish s = .next t ∧
      CompletesWith .insufficientEntropy [] s t ∧ KeepsHidden s t) ∧
    (s.diceState.armed = true → s.diceState.badRoll = false →
      (s.diceState.target.toNat + 1) / 2 ≤ s.diceCount.accepted.toNat → ∃ t, exec .diceFinish s = .next t ∧
      CompletesWith .noError diceOutRegs s t ∧ KeepsHidden s t ∧
      ∀ p < 256, packedBit t.diceOut p =
        (decide (p < s.diceState.target.toNat) && s.acc.getLsbD (s.diceState.target.toNat - 1 - p)))

/-- DICE_MINROLLS gives half of any even N of its field but 0; 0 and odd N fail `InvalidArgument` with RESULT kept (R175). -/
def Obligations.DiceMinRollsHalves : Prop :=
  ∀ (s : State) (n : Nat), WellFormed (.diceMinRolls n) →
    decode (BitVec.ofNat 32 (0x13 ||| n <<< 8)) = .ok (.diceMinRolls n) ∧
    (n ≠ 0 → n % 2 = 0 → ∃ t, exec (.diceMinRolls n) s = .next t ∧
      CompletesWith .noError [.result] s t ∧ KeepsHidden s t ∧ t.result.toNat * 2 = n) ∧
    (n = 0 ∨ n % 2 ≠ 0 → ∃ t, exec (.diceMinRolls n) s = .next t ∧
      CompletesWith .invalidArgument [] s t ∧ KeepsHidden s t)

/-! ### What several commands compute together -/

/-- The round trip (R140, the spec's own inference): for L in 0, 32, .., 256 every ENCODE is followed by a DECODE that
succeeds with MATCH and gives the same length and entropy back, whatever else changed between the two as long as
WORD_COUNT and IDX did not. For a length with a grouping remainder it does not hold: DECODE fails or gives another
length, for L = 40 (3 words) 32 where it succeeds. -/
def Obligations.EncodeDecodeRoundTrip : Prop :=
  ∀ s : State,
    (entropyLength s ∈ [0, 32, 64, 96, 128, 160, 192, 224, 256] →
      ∃ t, exec .encode s = .next t ∧ t.status.err = false ∧
        ∀ t' : State, t'.wordCount = t.wordCount → t'.idx = t.idx →
          ∃ u, exec .decode t' = .next u ∧ u.status.err = false ∧ u.flags.matched = true ∧
            u.entLen = s.entLen ∧ str u.ent (entropyLength s) = entropy s) ∧
    (LengthAccepted s → (entropyLength s + entropyLength s / 32) % 11 ≠ 0 →
      ∃ t u, exec .encode s = .next t ∧ t.status.err = false ∧ exec .decode t = .next u ∧
        (u.status.err = true ∨ u.entLen ≠ s.entLen)) ∧
    (entropyLength s = 40 →
      ∃ t u, exec .encode s = .next t ∧ exec .decode t = .next u ∧ t.wordCount = 3 ∧
        (u.status.err = false → u.entLen = 32))

/-- Checksum sensitivity (R141, the spec's own inference). Where DECODE succeeds, an index sequence of the same length with
the same entropy part and another checksum part fails `ChecksumMismatch`; one with the same checksum part and another
entropy part succeeds exactly if its entropy's checksum is the old one. It can be: zero entropy of 128 bits with bit 0
set keeps the checksum 0011. -/
def Obligations.ChangedChecksumBitsFail : Prop :=
  (∀ s s' t : State, exec .decode s = .next t → t.status.err = false → s'.wordCount = s.wordCount →
    mnemonicIndices s' ≠ mnemonicIndices s →
    (decodedEntropy s' = decodedEntropy s →
      ∃ u, exec .decode s' = .next u ∧ u.status.errCode = ErrCode.checksumMismatch.bits ∧ u.ent = s'.ent) ∧
    (suppliedChecksum s' = suppliedChecksum s →
      ∃ u, exec .decode s' = .next u ∧ (u.status.errCode = 0 ∨ u.status.errCode = ErrCode.checksumMismatch.bits) ∧
        (u.status.errCode = 0 ↔ (checksum (decodedEntropy s')).2 = (checksum (decodedEntropy s)).2))) ∧
  ∃ u, exec .decode { State.reset with
      wordCount := 12
      idx := tabulate 24 fun i => if i = 0 then 0x400 else if i = 11 then 3 else 0 } = .next u ∧
    u.status.err = false ∧ u.csum = ⟨3, 4⟩ ∧ u.ent.toList.getD 0 0 = 0x80000000

/-- The stream computes the source's function (R168, the spec's own inference): after a successful DICE_START and any
commands but another DICE_START, DICE_FINISH gives `rollsToBitstring` of the faces of the DICE_ROLLs among them, in
their order: its output, or its failure. -/
def Obligations.DiceStreamComputesSourceFunction : Prop :=
  ∀ (s : State) (n : Nat) (commands : List Instr), n ≠ 0 → n % 2 = 0 → n ≤ 256 →
    (∀ m, Instr.diceStart m ∉ commands) → (∀ f ∈ facesOf commands, f < 8) →
    ∃ t u, execAll (.diceStart n :: commands) s = some t ∧ exec .diceFinish t = .next u ∧
      match rollsToBitstring (facesOf commands) n with
      | .ok out => u.status.errCode = 0 ∧ str u.diceOut n = out
      | .error e => u.status.errCode = e.bits ∧ u.diceOut = t.diceOut

/-- Uniformity (R171, the spec's own inference): whatever the state before and whatever the pattern of accepted and
discarded rolls, with at least n/2 accepted, every n-bit string is the output of exactly one choice of the first n/2
accepted digits, so that uniform faces give uniform strings. -/
def Obligations.DiceOutputsAreBijective : Prop :=
  ∀ (s : State) (n : Nat) (pattern : List Bool) (out : BitString), n ≠ 0 → n % 2 = 0 → n ≤ 256 →
    n / 2 ≤ pattern.count true → out.length = n →
    ∃ digits : List Nat,
      (∃ faces, faces.map acceptedFace = pattern ∧ (∀ f ∈ faces, 1 ≤ f ∧ f ≤ 6) ∧
        (acceptedDigits faces).take (n / 2) = digits) ∧
      ∀ faces : List Nat, faces.map acceptedFace = pattern → (∀ f ∈ faces, 1 ≤ f ∧ f ≤ 6) →
        ∃ t u, execAll (.diceStart n :: faces.map .diceRoll) s = some t ∧ exec .diceFinish t = .next u ∧
          u.status.err = false ∧ (str u.diceOut n = out ↔ (acceptedDigits faces).take (n / 2) = digits)

/-- No command writes a flag its rule does not name (R39, R27, R36): OVERRUN is no command's, the verdict and the weak flags
are VALIDATE's, MATCH and ATYPICAL are DECODE's, ARMED and TARGET are DICE_START's, BADROLL is DICE_START's and
DICE_ROLL's. -/
def Obligations.CommandsKeepForeignFlags : Prop :=
  ∀ (i : Instr) (s : State), ∃ t, exec i s = .next t ∧ t.status.overrun = s.status.overrun ∧
    (i ≠ .validate → t.flags.lenv = s.flags.lenv ∧ t.flags.weakZero = s.flags.weakZero ∧
      t.flags.weakOnes = s.flags.weakOnes ∧ t.flags.weakNa = s.flags.weakNa) ∧
    (i ≠ .decode → t.flags.matched = s.flags.matched ∧ t.flags.atypical = s.flags.atypical) ∧
    ((∀ n, i ≠ .diceStart n) → t.diceState.armed = s.diceState.armed ∧
      t.diceState.target = s.diceState.target ∧
      ((∀ f, i ≠ .diceRoll f) → t.diceState = s.diceState ∧ t.diceCount = s.diceCount ∧ t.acc = s.acc))

/-- The bits of ENT past ENT_LEN are ignored (R33): two states whose lengths and entropies agree, whatever else differs, get
the same digest, checksum, combined bits, indices and code from CHECKSUM and ENCODE, and the same verdicts from
VALIDATE. -/
def Obligations.ResultsDependOnlyOnEntropy : Prop :=
  ∀ s s' : State, s'.entLen = s.entLen →
    (∀ p < entropyLength s, p < 256 → packedBit s'.ent p = packedBit s.ent p) →
    (∃ t t', exec .checksum s = .next t ∧ exec .checksum s' = .next t' ∧
      t'.status.errCode = t.status.errCode ∧
      (t.status.err = false → t'.digest = t.digest ∧ t'.csum = t.csum)) ∧
    (∃ t t', exec .encode s = .next t ∧ exec .encode s' = .next t' ∧
      t'.status.errCode = t.status.errCode ∧
      (t.status.err = false → t'.digest = t.digest ∧ t'.csum = t.csum ∧ t'.cb = t.cb ∧
        t'.wordCount = t.wordCount ∧ t'.idx = t.idx)) ∧
    ∃ t t', exec .validate s = .next t ∧ exec .validate s' = .next t' ∧ t'.flags.lenv = t.flags.lenv ∧
      t'.flags.weakZero = t.flags.weakZero ∧ t'.flags.weakOnes = t.flags.weakOnes ∧
      t'.flags.weakNa = t.flags.weakNa

/-! ### The host's accesses (20_memory.md, 70_reset_and_hazards.md) -/

/-- A write of `CTRL` with bit 1 set is the soft reset (R231), whatever its other bits and whether or not a command is in
flight: every register reads its reset value, CB, ACC and PEND are empty, and `irq` is low. -/
def Obligations.SoftResetClearsBlock : Prop :=
  ∀ (s : State) (v : Word) (rest : List Turn), s.turns = hostW .ctrl v :: rest → v.getLsbD 1 = true →
    ∃ t, step s = .next t ∧ (∀ r, readReg t r = if r = .id then 0x42333945 else 0) ∧
      t.cb = [] ∧ t.acc = 0 ∧ t.pend = none ∧ irq t = false ∧ t.turns = rest

/-- The hardware reset input (R230): at either edge every register reads its reset value, while it is asserted no access and
no turn of the engine takes the block out of reset, and only a turn of the input itself moves its level. The input's
form, a level changed by a turn, that a turn to the level it already has resets too, and the answers while it is
asserted are the model's (log 9). -/
def Obligations.HardwareResetHoldsBlock : Prop :=
  (∀ (s : State) (b : Bool) (rest : List Turn), s.turns = .resetPin b :: rest →
    ∃ t, step s = .next t ∧ (∀ r, readReg t r = if r = .id then 0x42333945 else 0) ∧
      t.cb = [] ∧ t.acc = 0 ∧ t.pend = none ∧ irq t = false ∧ t.resetPin = b ∧ t.turns = rest) ∧
  (∀ s t : State, s.resetPin = true → ResetHeld s → step s = .next t → t.resetPin = true →
    (∀ r, readReg t r = if r = .id then 0x42333945 else 0) ∧ t.cb = [] ∧ t.acc = 0 ∧ t.pend = none) ∧
  ∀ s t : State, step s = .next t → (∀ b rest, s.turns ≠ .resetPin b :: rest) → t.resetPin = s.resetPin

/-- A write while BUSY = 1 to anything but `CTRL` and `STATUS` is dropped (R241): no register but OVERRUN changes, the
command in flight stays, and nothing is issued. -/
def Obligations.WriteWhileBusyDropped : Prop :=
  ∀ (s : State) (c v : Word) (off : Nat) (rest : List Turn), InFlight c s → off < 0x200 → off % 4 = 0 →
    off ≠ 0x004 → off ≠ 0x008 → s.turns = .host ⟨Config.base + off, 32, .write v⟩ :: rest →
    ∃ t, step s = .next t ∧ (∀ r, r ≠ .status → readReg t r = readReg s r) ∧
      readReg t .status = readReg s .status ||| 0x8 ∧ KeepsHidden s t ∧ InFlight c t ∧ t.turns = rest

/-- Nothing but a write of 1 to `STATUS` bit 3 and a reset clears OVERRUN (R24, R241). -/
def Obligations.OverrunClearedOnlyByHost : Prop :=
  ∀ s t : State, s.resetPin = false → s.status.overrun = true → step s = .next t →
    t.status.overrun = false →
    ∃ rest, (∃ b, s.turns = .resetPin b :: rest) ∨
      ∃ v, (s.turns = hostW .status v :: rest ∧ v.getLsbD 3 = true) ∨
        (s.turns = hostW .ctrl v :: rest ∧ v.getLsbD 1 = true)

/-- What an accepted read answers (R66, R242): while BUSY = 1 a fresh free draw, but for `ID`, `CTRL`, `STATUS` and `CMD`;
otherwise the register's value, and 0 where the map lists none. Nothing else changes (R67). The form of the draw, the
opaque `Config.busyRead` at the counter `State.draws`, is the model's (log 3): the statement names it and rests on no
value of it. While the reset input is asserted a read answers the reset value, because every register holds it (R230);
that the block answers at all is the model's choice (log 9). -/
def Obligations.ReadsAnswerAndChangeNothing : Prop :=
  ∀ (s : State) (off : Nat) (rest : List Turn), off < 0x200 → off % 4 = 0 →
    s.turns = .host ⟨Config.base + off, 32, .read⟩ :: rest →
    (s.resetPin = true →
      step s = .next ((s.withTurns rest).resetBlock.answer (some (if off = 0x000 then 0x42333945 else 0)))) ∧
    (s.resetPin = false → s.status.busy = false ∨ off ∈ [0x000, 0x004, 0x008, 0x00C] →
      step s = .next ((s.withTurns rest).answer (some (readAt s off)))) ∧
    (s.resetPin = false → s.status.busy = true → off ∉ [0x000, 0x004, 0x008, 0x00C] →
      step s = .next { s with
        turns := rest, response := some (Config.busyRead s.draws), draws := s.draws + 1 }) ∧
    (∀ r : Reg, r.valid = true → off = r.offset → readAt s off = readReg s r) ∧
    ((∀ r : Reg, r.valid = true → off ≠ r.offset) → readAt s off = 0)

/-- A write of ENT_LEN, WORD_COUNT, ENT[i] or IDX[i] while idle is read back with the register's implemented bits (R26, R30,
R33, R35, R65), and every other register, STATUS, CB and ACC stay. -/
def Obligations.WritesReadBack : Prop :=
  ∀ (s : State) (r : Reg) (v : Word) (rest : List Turn), Idle s → r.valid = true → r.stores = true →
    s.turns = hostW r v :: rest →
    ∃ t, step s = .next t ∧ readReg t r = v &&& implementedBits r ∧
      (∀ r', r' ≠ r → readReg t r' = readReg s r') ∧ t.status = s.status ∧ t.pend = s.pend ∧
      KeepsHidden s t ∧ t.turns = rest

/-- Reserved space (R64): an unlisted offset reads 0 and ignores writes, a read-only register ignores writes, and a reserved
field reads 0 and ignores writes. -/
def Obligations.ReservedSpaceReadsZero : Prop :=
  ∀ s : State,
    (∀ (off : Nat) (v : Word), (∀ r : Reg, r.valid = true → r.offset ≠ off) → off < 0x200 → off % 4 = 0 →
      readAt s off = 0 ∧ (s.status.busy = false → hostWrite off v s = s)) ∧
    (∀ (r : Reg) (v : Word), r.valid = true → r.readOnly = true → s.status.busy = false → hostWrite r.offset v s = s) ∧
    (s.cb.length ≤ 264 → ∀ r, readReg s r &&& ~~~ implementedBits r = 0) ∧
    (∀ (r : Reg) (v : Word), r.valid = true → r.stores = true →
      hostWrite r.offset v s = hostWrite r.offset (v &&& implementedBits r) s) ∧
    ∀ v : Word, hostWrite Reg.ctrl.offset v s = hostWrite Reg.ctrl.offset (v &&& 0x3) s ∧
      hostWrite Reg.status.offset v s = hostWrite Reg.status.offset (v &&& 0xE) s

/-- Access shape (R61): an access that touches the window is taken if it is 32 bits at a multiple of 4, and refused if not,
also where it straddles an edge of the window. The names of the refusals, that the width is looked at first (log 8), how
many bytes a width covers, and the straddling access (log 5) are the model's choices. -/
def Obligations.OnlyAlignedWordsAccepted : Prop :=
  ∀ (s : State) (a : Access) (rest : List Turn), s.turns = .host a :: rest →
    Config.base < a.addr + a.bytes → a.addr < Config.base + 0x200 →
    (a.width = 32 → Config.base ≤ a.addr → (a.addr - Config.base) % 4 = 0 → ∃ t, step s = .next t ∧ t.turns = rest) ∧
    (a.width ≠ 32 → step s = .refused .accessWidth) ∧
    (a.width = 32 → a.addr < Config.base ∨ (a.addr - Config.base) % 4 ≠ 0 → step s = .refused .accessAlignment)

/-- A host access outside the window is not the block's (R60): the block neither changes nor answers. That addresses do not
wrap, how many bytes a width covers, and that the missing answer is `none`, are the model's choices (logs 4, 5). -/
def Obligations.OutsideWindowIsNotTheBlocks : Prop :=
  ∀ (s : State) (a : Access) (rest : List Turn), s.turns = .host a :: rest →
    a.addr + a.bytes ≤ Config.base ∨ Config.base + 0x200 ≤ a.addr →
    step s = .next ((s.withTurns rest).answer none)

/-- `STATUS` (R24): its layout as read, and its writes, accepted also while BUSY: a 1 clears DONE, ERR, OVERRUN, a 0 has no
effect, BUSY and ERRCODE are not writable. -/
def Obligations.StatusWriteOneClears : Prop :=
  ∀ (s : State) (v : Word) (rest : List Turn), s.resetPin = false → s.turns = hostW .status v :: rest →
    ∃ t, step s = .next t ∧
      (∀ k < 32, (readReg t .status).getLsbD k =
        if k = 1 ∨ k = 2 ∨ k = 3 then (readReg s .status).getLsbD k && !v.getLsbD k
        else (readReg s .status).getLsbD k) ∧
      (readReg s .status).getLsbD 0 = s.status.busy ∧ (readReg s .status).getLsbD 1 = s.status.done ∧
      (readReg s .status).getLsbD 2 = s.status.err ∧ (readReg s .status).getLsbD 3 = s.status.overrun ∧
      (readReg s .status).extractLsb' 4 4 = s.status.errCode ∧
      (∀ r, r ≠ .status → readReg t r = readReg s r) ∧ t.pend = s.pend ∧ KeepsHidden s t ∧ t.turns = rest

/-- `CTRL` (R23): a write with bit 1 clear sets IE to bit 0 and changes nothing else, also while BUSY; SRST and the reserved
bits read 0. -/
def Obligations.CtrlWriteSetsEnable : Prop :=
  ∀ (s : State) (v : Word) (rest : List Turn), s.resetPin = false → s.turns = hostW .ctrl v :: rest →
    v.getLsbD 1 = false →
    ∃ t, step s = .next t ∧ readReg t .ctrl = v &&& 0x1 ∧
      (∀ r, r ≠ .ctrl → readReg t r = readReg s r) ∧ t.pend = s.pend ∧ KeepsHidden s t ∧ t.turns = rest

/-- The interrupt (R210): `irq` is IE and DONE at every instant; it rises at a step only when a command completes with
IE set or the host sets IE, and with IE set every completion raises it; clearing DONE, clearing IE, issuing to the
idle block and resetting each leave it low, and nothing else lowers it, in any state in which an asserted reset input
holds every element at reset (R230). A turn of the reset input to the level it already has is a reset by the model's
choice (log 9). -/
def Obligations.InterruptFollowsDoneAndEnable : Prop :=
  (∀ s : State, irq s = ((readReg s .ctrl).getLsbD 0 && (readReg s .status).getLsbD 1)) ∧
  (∀ (s : State) (c : Word) (rest : List Turn), InFlight c s → s.turns = .engine :: rest →
    ∃ t, step s = .next t ∧ irq t = s.ctrl.ie) ∧
  (∀ s t : State, step s = .next t → irq s = false → irq t = true →
    (s.status.busy = true ∧ t.status.busy = false ∧ t.ctrl = s.ctrl) ∨
      ∃ v rest, s.turns = hostW .ctrl v :: rest ∧ v.getLsbD 0 = true ∧ s.status.done = true) ∧
  (∀ s : State, s.resetPin = false → LowersIrq s → ∃ t, step s = .next t ∧ irq t = false) ∧
  ∀ s t : State, ResetHeld s → step s = .next t → irq s = true → irq t = false → LowersIrq s

/-- BADROLL is sticky (R166): once set, a step clears it only by completing a DICE_START successfully or by a reset. -/
def Obligations.BadRollIsSticky : Prop :=
  ∀ s t : State, s.resetPin = false → s.diceState.badRoll = true → step s = .next t →
    t.diceState.badRoll = false →
    (∃ c n, s.pend = some c ∧ decode c = .ok (.diceStart n) ∧ s.status.busy = true ∧
      t.status.done = true ∧ t.status.err = false) ∨
    ∃ rest, (∃ b, s.turns = .resetPin b :: rest) ∨
      ∃ v, s.turns = hostW .ctrl v :: rest ∧ v.getLsbD 1 = true

/-- Who writes ENT (R33): a step changes it only by the host's write of an ENT register while idle, by a DECODE that
completes successfully, or by a reset. -/
def Obligations.EntropyWrittenOnlyByHostAndDecode : Prop :=
  ∀ s t : State, s.resetPin = false → step s = .next t → t.ent ≠ s.ent →
    (∃ i v rest, i < 8 ∧ s.turns = hostW (.ent i) v :: rest ∧ s.status.busy = false) ∨
    (∃ c, s.pend = some c ∧ s.status.busy = true ∧ decode c = .ok .decode ∧ t.status.err = false ∧
      t.flags.matched = true) ∨
    ∃ rest, (∃ b, s.turns = .resetPin b :: rest) ∨
      ∃ v, s.turns = hostW .ctrl v :: rest ∧ v.getLsbD 1 = true

/-! ### Schedules (R69, R72, R200, R234) -/

/-- The schedule never changes a command's result (R72, R200, R250): whatever accepted accesses the host makes between issue
and completion, but a soft reset, the completed state is the one of an immediate completion, but for IE, OVERRUN and the
host's own reads. -/
def Obligations.ScheduleNeverChangesResult : Prop :=
  ∀ (s : State) (c : Word) (accesses : List Access) (rest : List Turn), InFlight c s →
    (∀ a ∈ accesses, a.Accepted ∧ ¬ a.SoftReset) →
    ∃ t u, Runs (accesses.length + 1) (s.withTurns (accesses.map .host ++ .engine :: rest)) t ∧
      Runs 1 (s.withTurns (.engine :: rest)) u ∧
      t = { u with
        ctrl := t.ctrl
        status := { u.status with overrun := t.status.overrun }
        response := t.response
        draws := t.draws }

/-- Every command in flight completes within one step more than there are turns (R200), whatever accepted accesses and
engine turns are scheduled, if none of them is a reset: DONE is set, and the state is the one of an immediate
completion, but for IE, OVERRUN and the host's own reads. With resets scheduled as well, which end a command without a
completion (R231), BUSY is 0 within as many steps, from any state with PEND and BUSY in agreement. -/
def Obligations.CommandCompletesEventually : Prop :=
  (∀ (s : State) (c : Word), InFlight c s → (∀ a, Turn.host a ∈ s.turns → a.Accepted ∧ ¬ a.SoftReset) →
    (∀ b, Turn.resetPin b ∉ s.turns) →
    ∃ k t u, k ≤ s.turns.length + 1 ∧ Runs k s t ∧ Runs 1 (s.withTurns (.engine :: t.turns)) u ∧
      t.pend = none ∧ t.status.busy = false ∧ t.status.done = true ∧
      t = { u with
        ctrl := t.ctrl
        status := { u.status with overrun := t.status.overrun }
        response := t.response
        draws := t.draws }) ∧
  ∀ s : State, LatchAgrees s → (∀ a, Turn.host a ∈ s.turns → a.Accepted) →
    ∃ k t, k ≤ s.turns.length + 1 ∧ Runs k s t ∧ t.status.busy = false

/-- The host's order for one command (R88; R234, the spec's own inference): from an idle block, the command's `CMD`
write, any number of STATUS polls, the completion and a last poll leave the state the command's meaning gives, and the
last poll answers its STATUS. -/
def Obligations.IssueAndWaitRunsCommand : Prop :=
  ∀ (s : State) (i : Instr) (polls : Nat) (rest : List Turn), Idle s → WellFormed i →
    s.turns = commandAndWait i polls ++ rest →
    ∃ t, exec i (s.issue (encode i)) = .next t ∧
      Runs (polls + 3) s ((t.withTurns rest).answer (some (readReg t .status))) ∧
      (readReg t .status).getLsbD 0 = false

/-! ### Invariants (R24, R45, R46, R162, R203, R230) -/

/-- Every step keeps PEND in agreement with BUSY (R46) and STATUS sound: only produced codes (R203), DONE, ERR and ERRCODE 0
while a command is in flight (R200), ERR only with a code (R24). -/
def Obligations.StepKeepsLatchAndStatus : Prop :=
  ∀ s t : State, LatchAgrees s → StatusSound s → step s = .next t → LatchAgrees t ∧ StatusSound t

/-- Every step keeps CB within 264 bits, the checksums within 8 bits and right-aligned, and the weak flags clear under
WEAK_NA (R28, R29, R45, R110, R116). -/
def Obligations.StepKeepsBuffers : Prop :=
  ∀ s t : State, BuffersFit s → step s = .next t → BuffersFit t

/-- Every step keeps the die-roll session sound (R38; R162, the spec's own inference). -/
def Obligations.StepKeepsSession : Prop :=
  ∀ s t : State, SessionSound s → step s = .next t → SessionSound t

/-- Every step keeps the block in reset while the reset input is asserted (R230). -/
def Obligations.StepKeepsReset : Prop :=
  ∀ s t : State, ResetHeld s → step s = .next t → ResetHeld t

/-- The state after reset meets every invariant, whatever turns are scheduled. -/
def Obligations.ResetMeetsInvariants : Prop :=
  ∀ turns : List Turn,
    LatchAgrees (State.reset.withTurns turns) ∧ StatusSound (State.reset.withTurns turns) ∧
    BuffersFit (State.reset.withTurns turns) ∧ SessionSound (State.reset.withTurns turns) ∧
    ResetHeld (State.reset.withTurns turns)

/-- The machine's one fault is a latch R46 excludes (log 10, the model's inference): no step faults from a state whose
PEND agrees with BUSY, and so no run from reset does, whatever is scheduled. -/
def Obligations.NoScheduleFaults : Prop :=
  (∀ s : State, LatchAgrees s → NoFault s) ∧
  ∀ (turns : List Turn) (k : Nat) (r : Fault), core.run k (State.reset.withTurns turns) ≠ .fault r

/-! ### SHA-256 and packing (40_checksum.md section 1, 20_memory.md section 2) -/

/-- Padding (R103): for a message of n bytes, n up to 32, one block of 64 bytes: the message, 0x80, zeros, and the bit count
8n in the last bytes. -/
def Obligations.PaddingIsOneBlock : Prop :=
  ∀ b : List Byte, b.length ≤ 32 →
    (shaPad b).length = 64 ∧
    (∀ j < b.length, (shaPad b).getD j 0 = b.getD j 0) ∧
    (shaPad b).getD b.length 0 = 0x80 ∧
    (∀ j < 62, b.length < j → (shaPad b).getD j 0 = 0) ∧
    (shaPad b).getD 62 0 = BitVec.ofNat 8 (8 * b.length / 256) ∧
    (shaPad b).getD 63 0 = BitVec.ofNat 8 (8 * b.length % 256)

/-- The message schedule (R104): 64 words, the first 16 the big-endian words of the padded message, the rest by the
recurrence; where the entropy fills k registers, the first k words are those registers. -/
def Obligations.ScheduleFollowsRecurrence : Prop :=
  (∀ p : List Byte,
    (schedule p).length = 64 ∧
    (∀ t < 16, (schedule p).getD t 0 =
      (p.getD (4 * t) 0).setWidth 32 <<< 24 ||| (p.getD (4 * t + 1) 0).setWidth 32 <<< 16 |||
        (p.getD (4 * t + 2) 0).setWidth 32 <<< 8 ||| (p.getD (4 * t + 3) 0).setWidth 32) ∧
    ∀ t, 16 ≤ t → t < 64 → (schedule p).getD t 0 =
      ssig1 ((schedule p).getD (t - 2) 0) + (schedule p).getD (t - 7) 0 +
        ssig0 ((schedule p).getD (t - 15) 0) + (schedule p).getD (t - 16) 0) ∧
  ∀ (x : Vector Word 8) (k t : Nat), k ≤ 8 → t < k →
    (schedule (shaPad (bytes (str x (32 * k))))).getD t 0 = x.toList.getD t 0

/-- The check values of R107. -/
def Obligations.ShaCheckValues : Prop :=
  (sha256 []).toList.getD 0 0 = 0xe3b0c442 ∧
  sha256 [0x61, 0x62, 0x63] =
    #v[0xba7816bf, 0x8f01cfea, 0x414140de, 0x5dae2223, 0xb00361a3, 0x96177a9c, 0xb410ff61, 0xf20015ad]

/-- Packing (R63): position p of a string in registers is bit 31 - (p mod 32) of register p div 32, and byte j of the string
is the big-endian byte j mod 4 of register j div 4. -/
def Obligations.BytesOfPackedRegisters : Prop :=
  ∀ (x : Vector Word 8) (n : Nat), n ≤ 256 →
    (∀ p < n, (str x n).getD p false = (x.toList.getD (p / 32) 0).getLsbD (31 - p % 32)) ∧
    (n % 8 = 0 → ∀ j < n / 8, (bytes (str x n)).getD j 0 =
      (x.toList.getD (j / 4) 0).extractLsb' (24 - 8 * (j % 4)) 8)

/-- Grouping and ungrouping (R131, R133): grouping the bits of indices gives them back, and ungrouping the groups of a
string gives the string without its last `len mod 11` bits. -/
def Obligations.GroupInvertsUngroup : Prop :=
  (∀ xs : List (BitVec 11), group (ungroup xs) = xs.map BitVec.toNat) ∧
  ∀ s : BitString, ungroup ((group s).map (BitVec.ofNat 11)) = s.take (11 * (s.length / 11))

/-! ### Register words (10_state.md sections 2 to 5) -/

/-- The word a host reads from each register (R21 to R38): an idle read answers the register's word, and that word holds
every field at the bits of its row, with 0 in the reserved bits. CB is
within the 264 bits of R45, which every step keeps (StepKeepsBuffers). -/
def Obligations.RegistersReadTheirFields : Prop :=
  ∀ s : State,
    (∀ (r : Reg) (rest : List Turn), Idle s → r.valid = true → s.turns = hostR r :: rest →
      step s = .next ((s.withTurns rest).answer (some (readReg s r)))) ∧
    readReg s .id = 0x42333945 ∧
    (readReg s .ctrl).toNat = s.ctrl.ie.toNat ∧
    (readReg s .status).toNat = s.status.busy.toNat + 2 * s.status.done.toNat + 4 * s.status.err.toNat +
      8 * s.status.overrun.toNat + 16 * s.status.errCode.toNat ∧
    readReg s .cmd = 0 ∧
    (readReg s .entLen).toNat = s.entLen.toNat ∧
    (readReg s .flags).toNat = s.flags.lenv.toNat + 4 * s.flags.weakZero.toNat + 8 * s.flags.weakOnes.toNat +
      16 * s.flags.weakNa.toNat + 32 * s.flags.matched.toNat + 64 * s.flags.atypical.toNat ∧
    (readReg s .csum).toNat = s.csum.value.toNat + 256 * s.csum.len.toNat ∧
    (readReg s .csumSupplied).toNat = s.csumSupplied.value.toNat + 256 * s.csumSupplied.len.toNat ∧
    (readReg s .wordCount).toNat = s.wordCount.toNat ∧
    (s.cb.length ≤ 264 → (readReg s .cbLen).toNat = s.cb.length) ∧
    readReg s .result = s.result ∧
    (∀ i : Fin 8, readReg s (.ent i) = s.ent[i] ∧ readReg s (.digest i) = s.digest[i] ∧
      readReg s (.diceOut i) = s.diceOut[i]) ∧
    (∀ i : Fin 24, (readReg s (.idx i)).toNat = s.idx[i].toNat) ∧
    (readReg s .diceState).toNat = s.diceState.armed.toNat + 2 * s.diceState.badRoll.toNat +
      0x10000 * s.diceState.target.toNat ∧
    (readReg s .diceCount).toNat = s.diceCount.accepted.toNat + 0x10000 * s.diceCount.raw.toNat
end

