-- ==== Sys2Proof/Laws/Bits.lean ====
section
/-! SUPPORT. The small lemmas of bit strings, packing and the checksum primitive: lengths, bounds and round trips, so that
no later proof unfolds their definitions. -/

namespace Sys2Proof.Machine

/-! ### Lengths -/

@[simp] theorem bitsOf_length (n v : Nat) : (bitsOf n v).length = n := by simp [bitsOf]

@[simp] theorem str_length {k : Nat} (x : Vector Word k) (n : Nat) : (str x n).length = n := by simp [str]

theorem substr_length {s : BitString} {a b : Nat} (hb : b ≤ s.length) : (substr s a b).length = b - a := by
  simp only [substr, List.length_take, List.length_drop]; omega

@[simp] theorem bytes_length (s : BitString) : (bytes s).length = s.length / 8 := by simp [bytes]

@[simp] theorem group_length (s : BitString) : (group s).length = s.length / 11 := by simp [group]

@[simp] theorem ungroup_nil : ungroup [] = [] := rfl

@[simp] theorem ungroup_cons (x : BitVec 11) (xs : List (BitVec 11)) :
    ungroup (x :: xs) = bitsOf 11 x.toNat ++ ungroup xs := rfl

@[simp] theorem ungroup_length (xs : List (BitVec 11)) : (ungroup xs).length = 11 * xs.length := by
  induction xs with
  | nil => rfl
  | cons x xs ih => simp [ih]; omega

theorem checksum_length {s : BitString} (h : s.length ≤ 256) : (checksum s).2.length = s.length / 32 := by
  simp only [checksum, checksumLength, List.length_take, str_length]; omega

/-! ### Tabulated registers -/

@[simp] theorem tabulate_toList {α : Type} (n : Nat) (f : Nat → α) :
    (tabulate n f).toList = (List.range n).map f := by
  simp [tabulate]

theorem tabulate_getElem {α : Type} {n : Nat} (f : Nat → α) {i : Nat} (h : i < n) : (tabulate n f)[i] = f i := by
  simp [tabulate]

/-! ### Values -/

theorem uint_append_bit (s : BitString) (b : Bool) : uint (s ++ [b]) = 2 * uint s + b.toNat := by
  simp [uint, List.foldl_append]

@[simp] theorem uint_nil : uint [] = 0 := rfl

theorem uint_lt (s : BitString) : uint s < 2 ^ s.length := by
  induction s using List.reverseRecOn with
  | nil => simp
  | append_singleton s b ih =>
    rw [uint_append_bit, List.length_append, List.length_singleton, Nat.pow_succ]
    cases b <;> simp <;> omega

theorem bitsOf_succ (n v : Nat) : bitsOf (n + 1) v = bitsOf n (v / 2) ++ [v.testBit 0] := by
  simp only [bitsOf, List.range_succ, List.map_append, List.map_cons, List.map_nil]
  congr 1
  · apply List.map_congr_left
    intro p hp
    have hp : p < n := List.mem_range.mp hp
    rw [Nat.testBit_div_two]
    congr 1; omega
  · simp

/-- `bits_n` then `uint` is the value modulo 2^n. -/
theorem uint_bitsOf (n v : Nat) : uint (bitsOf n v) = v % 2 ^ n := by
  induction n generalizing v with
  | zero => simp [bitsOf, Nat.mod_one]
  | succ n ih =>
    rw [bitsOf_succ, uint_append_bit, ih, Nat.pow_succ, Nat.mul_comm (2 ^ n) 2, Nat.mod_mul]
    have : (v.testBit 0).toNat = v % 2 := by
      rw [Nat.testBit_zero]; rcases Nat.mod_two_eq_zero_or_one v with h | h <;> simp [h]
    omega

/-- `uint` then `bits_n` is the string itself. -/
theorem bitsOf_uint (s : BitString) : bitsOf s.length (uint s) = s := by
  induction s using List.reverseRecOn with
  | nil => rfl
  | append_singleton s b ih =>
    rw [uint_append_bit, List.length_append, List.length_singleton, bitsOf_succ]
    have h2 : (2 * uint s + b.toNat) / 2 = uint s := by have := b.toNat_lt; omega
    have h0 : (2 * uint s + b.toNat).testBit 0 = b := by
      rw [Nat.testBit_zero]; cases b <;> simp
    rw [h2, h0, ih]

/-- Two strings of one length with one value are equal. -/
theorem uint_inj {s t : BitString} (hl : s.length = t.length) (hv : uint s = uint t) : s = t := by
  rw [← bitsOf_uint s, ← bitsOf_uint t, hl, hv]

theorem field_lt (s : BitString) (p w : Nat) : field s p w < 2 ^ w := by
  refine Nat.lt_of_lt_of_le (uint_lt _) (Nat.pow_le_pow_right (by decide) ?_)
  simp only [substr, List.length_take]; omega

/-- Every chunk of `Group` is a word index (R132). -/
theorem group_le {s : BitString} {x : Nat} (h : x ∈ group s) : x ≤ 2047 := by
  simp only [group, List.mem_map] at h
  obtain ⟨i, -, rfl⟩ := h
  have : field s (Config.indexBits * i) Config.indexBits < 2 ^ 11 := field_lt s _ _
  omega

theorem group_any_false (s : BitString) : (group s).any (2047 < ·) = false := by
  rw [List.any_eq_false]
  intro x hx
  have := group_le hx
  simpa using this

/-! ### Bits by position -/

theorem str_getElem {k : Nat} (x : Vector Word k) {n p : Nat} (h : p < (str x n).length) :
    (str x n)[p] = packedBit x p := by simp [str]

theorem bitsOf_getElem {n v p : Nat} (h : p < (bitsOf n v).length) : (bitsOf n v)[p] = v.testBit (n - 1 - p) := by
  simp [bitsOf]

/-- Bit `len - 1 - p` of a string's value is its position `p`. -/
theorem uint_testBit (s : BitString) {p : Nat} (h : p < s.length) : (uint s).testBit (s.length - 1 - p) = s[p] := by
  have h' : p < (bitsOf s.length (uint s)).length := by simpa using h
  rw [← bitsOf_getElem h']
  simp [bitsOf_uint]

/-- What `put` packs at a position: the string's bit, and 0 past its end (R9). -/
theorem packedBit_put (s : BitString) {p : Nat} (hp : p < 256) : packedBit (put s) p = s.getD p false := by
  have hi : p / 32 < 8 := by omega
  have hl : ((List.range 32).map fun b => s.getD (32 * (p / 32) + b) false).length = 32 := by simp
  have hr : p % 32 < ((List.range 32).map fun b => s.getD (32 * (p / 32) + b) false).length := by
    rw [hl]; omega
  have hb := uint_testBit ((List.range 32).map fun b => s.getD (32 * (p / 32) + b) false) hr
  rw [hl] at hb
  have hw : (put s).toList.getD (p / 32) 0 =
      BitVec.ofNat 32 (uint ((List.range 32).map fun b => s.getD (32 * (p / 32) + b) false)) := by
    simp only [put, tabulate_toList, List.getD_eq_getElem?_getD, List.getElem?_map, List.getElem?_range hi,
      Option.map_some, Option.getD_some]
  have h31 : 31 - p % 32 = 32 - 1 - p % 32 := by omega
  rw [packedBit, hw, BitVec.getLsbD_ofNat, h31, hb]
  have : 32 - 1 - p % 32 < 32 := by omega
  simp only [this, decide_true, Bool.true_and, List.getElem_map, List.getElem_range]
  congr 1; omega

/-- Reading back a packed string gives it (R9, R139). -/
theorem str_put {s : BitString} (h : s.length ≤ 256) : str (put s) s.length = s := by
  apply List.ext_getElem (by simp)
  intro p h1 h2
  rw [str_getElem, packedBit_put s (by omega), List.getD_eq_getElem?_getD, List.getElem?_eq_getElem h2,
    Option.getD_some]

/-! ### Values of parts -/

/-- A concatenation's value: the first string's, moved up by the length of the second, plus the second's (R6). -/
theorem uint_append (a b : BitString) : uint (a ++ b) = uint a * 2 ^ b.length + uint b := by
  induction b using List.reverseRecOn with
  | nil => simp
  | append_singleton b x ih =>
    rw [← List.append_assoc, uint_append_bit, ih, uint_append_bit, List.length_append, List.length_singleton,
      Nat.pow_succ]
    ring

/-- The first `k` bits are the value's top bits (R109). -/
theorem uint_take (s : BitString) (k : Nat) : uint (s.take k) = uint s / 2 ^ (s.length - k) := by
  have hl : (s.drop k).length = s.length - k := by simp
  have hd := uint_lt (s.drop k)
  have ha := uint_append (s.take k) (s.drop k)
  rw [List.take_append_drop, hl] at ha
  rw [hl] at hd
  rw [ha, Nat.mul_comm, Nat.mul_add_div (Nat.two_pow_pos _), Nat.div_eq_of_lt hd, Nat.add_zero]

/-- Bit `k` of a string as a number of `w` bits: the string's bit `len - 1 - k`, and 0 above its length. -/
theorem ofNat_uint_getLsbD (s : BitString) {w k : Nat} (hk : k < w) :
    (BitVec.ofNat w (uint s)).getLsbD k = (decide (k < s.length) && s.getD (s.length - 1 - k) false) := by
  rw [BitVec.getLsbD_ofNat]
  simp only [hk, decide_true, Bool.true_and]
  by_cases h : k < s.length
  · have hp : s.length - 1 - k < s.length := by omega
    have := uint_testBit s hp
    rw [show s.length - 1 - (s.length - 1 - k) = k by omega] at this
    simp [this, h, List.getD_eq_getElem?_getD, List.getElem?_eq_getElem hp]
  · rw [Nat.testBit_lt_two_pow
      (Nat.lt_of_lt_of_le (uint_lt s) (Nat.pow_le_pow_right (by decide) (Nat.not_lt.mp h)))]
    simp [h]

theorem bitsOf_getD {n v p : Nat} (h : p < n) : (bitsOf n v).getD p false = v.testBit (n - 1 - p) := by
  simp [bitsOf, List.getD_eq_getElem?_getD, h]

theorem str_getD {k : Nat} (x : Vector Word k) {n p : Nat} (h : p < n) : (str x n).getD p false = packedBit x p := by
  simp [str, List.getD_eq_getElem?_getD, h]

theorem str_take {k : Nat} (x : Vector Word k) {n m : Nat} (h : m ≤ n) : (str x n).take m = str x m := by
  simp only [str, ← List.map_take, List.take_range, Nat.min_eq_left h]

/-- The first 32 bits packed in registers are the first register. -/
theorem uint_str_word {k : Nat} (x : Vector Word k) : uint (str x 32) = (x.toList.getD 0 0).toNat := by
  have hw : BitVec.ofNat 32 (uint (str x 32)) = x.toList.getD 0 0 := by
    apply BitVec.eq_of_getLsbD_eq
    intro b hb
    rw [ofNat_uint_getLsbD _ hb, str_length, str_getD _ (by omega)]
    have h0 : (32 - 1 - b) / 32 = 0 := by omega
    have h1 : 31 - (32 - 1 - b) % 32 = b := by omega
    simp [hb, packedBit, h0, h1]
  have hl : uint (str x 32) < 2 ^ 32 := by simpa using uint_lt (str x 32)
  rw [← hw, BitVec.toNat_ofNat, Nat.mod_eq_of_lt hl]

theorem tabulate_getD {α : Type} {n : Nat} (f : Nat → α) (d : α) {i : Nat} (h : i < n) :
    (tabulate n f).toList.getD i d = f i := by
  simp [List.getD_eq_getElem?_getD, h]

/-! ### Fields and groups -/

/-- Bit `k` of a field inside its string (R130). -/
theorem field_testBit (s : BitString) {p w k : Nat} (h : p + w ≤ s.length) (hk : k < w) :
    (field s p w).testBit k = s.getD (p + (w - 1 - k)) false := by
  have hl : (substr s p (p + w)).length = w := by rw [substr_length h]; omega
  have := uint_testBit (substr s p (p + w)) (p := w - 1 - k) (by omega)
  rw [show (substr s p (p + w)).length - 1 - (w - 1 - k) = k by omega] at this
  rw [field, this, List.getD_eq_getElem?_getD, List.getElem?_eq_getElem (by omega)]
  simp [substr]

theorem group_getD (s : BitString) {i : Nat} (h : i < s.length / 11) : (group s).getD i 0 = field s (11 * i) 11 := by
  simp [group, List.getD_eq_getElem?_getD, h]

/-- Bit `b` of index `i` in the combined bits of indices (R133). -/
theorem ungroup_getD (xs : List (BitVec 11)) (i : Nat) {b : Nat} (hb : b < 11) :
    (ungroup xs).getD (11 * i + b) false = (xs.getD i 0).getLsbD (10 - b) := by
  induction xs generalizing i with
  | nil => simp
  | cons x xs ih =>
    cases i with
    | zero =>
      have hl : 11 * 0 + b < (bitsOf 11 x.toNat).length := by simp; omega
      simp only [ungroup_cons, List.getD_eq_getElem?_getD]
      rw [List.getElem?_append_left hl, ← List.getD_eq_getElem?_getD, bitsOf_getD (by omega)]
      simp [BitVec.getLsbD]
    | succ i =>
      have hl : (bitsOf 11 x.toNat).length ≤ 11 * (i + 1) + b := by simp; omega
      have he : 11 * (i + 1) + b - (bitsOf 11 x.toNat).length = 11 * i + b := by simp; omega
      simp only [ungroup_cons, List.getD_eq_getElem?_getD]
      rw [List.getElem?_append_right hl, he, ← List.getD_eq_getElem?_getD, ih]
      simp

/-! ### The checksum registers and the sampler's counters -/

/-- The checksum's bits are the first ones packed in the digest (R109). -/
theorem checksum_bits {s : BitString} (h : s.length ≤ 256) :
    (checksum s).2 = str (sha256 (bytes s)) (s.length / 32) := by
  simp only [checksum, checksumLength]
  exact str_take _ (by omega)

/-- A checksum register tells strings of up to 8 bits apart (R28, R29, R136). -/
theorem ChecksumReg.ofBits_inj {a b : BitString} (ha : a.length ≤ 8) (hb : b.length ≤ 8) :
    ChecksumReg.ofBits a = ChecksumReg.ofBits b ↔ a = b := by
  constructor
  · intro h
    simp only [ChecksumReg.ofBits, ChecksumReg.mk.injEq] at h
    have h1 := congrArg BitVec.toNat h.1
    have h2 := congrArg BitVec.toNat h.2
    simp only [BitVec.toNat_ofNat] at h1 h2
    have la : uint a < 2 ^ 8 := Nat.lt_of_lt_of_le (uint_lt a) (Nat.pow_le_pow_right (by decide) ha)
    have lb : uint b < 2 ^ 8 := Nat.lt_of_lt_of_le (uint_lt b) (Nat.pow_le_pow_right (by decide) hb)
    exact uint_inj (by omega) (by omega)
  · rintro rfl; rfl

theorem sat16_toNat (n : Nat) : (sat16 n).toNat = min n 0xFFFF := by simp [sat16]

/-- A digit's two bits in ACC, every other bit kept (R164, R165). -/
theorem setDigit_getLsbD (acc : BitVec 256) (i : Nat) {d b : Nat} (hd : d < 4) (hb : b < 256) :
    (setDigit acc i d).getLsbD b = if b / 2 = i then d.testBit (b % 2) else acc.getLsbD b := by
  have small : ∀ v < 4, ∀ k, 2 ≤ k → (BitVec.ofNat 256 v).getLsbD k = false := by
    intro v hv k hk
    have hv' : v < 2 ^ k := Nat.lt_of_lt_of_le (by omega : v < 2 ^ 2) (Nat.pow_le_pow_right (by decide) hk)
    simp [BitVec.getLsbD_ofNat, Nat.testBit_lt_two_pow hv']
  simp only [setDigit, BitVec.getLsbD_or, BitVec.getLsbD_and, BitVec.getLsbD_not, BitVec.getLsbD_shiftLeft, hb,
    decide_true, Bool.true_and]
  by_cases h : b / 2 = i
  · have h1 : ¬ b < 2 * i := by omega
    have h2 : b - 2 * i = b % 2 := by omega
    have h3 : (3#256).getLsbD (b % 2) = true := by
      rcases Nat.mod_two_eq_zero_or_one b with e | e <;> rw [e] <;> decide
    have h4 : b % 2 < 256 := by omega
    simp only [h, h1, h2, h3, if_true, decide_false, Bool.not_false, Bool.true_and, Bool.not_true, Bool.and_false,
      Bool.false_or, BitVec.getLsbD_ofNat, h4, decide_true]
  · by_cases h1 : b < 2 * i
    · simp [h, h1]
    · have h2 : 2 ≤ b - 2 * i := by omega
      simp [h, h1, small d hd _ h2, small 3 (by decide) _ h2]

end Sys2Proof.Machine
end

