-- ==== Sys2Proof/Laws/State.lean ====
section
/-! SUPPORT. One lemma per field per named update of State, each true by rfl, so that no proof unfolds a record update.
-/

namespace Sys2Proof.Machine

-- State.reset
@[simp] theorem State.reset_ctrl : State.reset.ctrl = ⟨false⟩ := rfl
@[simp] theorem State.reset_status : State.reset.status = ⟨false, false, false, false, 0⟩ := rfl
@[simp] theorem State.reset_entLen : State.reset.entLen = 0 := rfl
@[simp] theorem State.reset_flags : State.reset.flags = ⟨0, false, false, false, false, false⟩ := rfl
@[simp] theorem State.reset_csum : State.reset.csum = ⟨0, 0⟩ := rfl
@[simp] theorem State.reset_csumSupplied : State.reset.csumSupplied = ⟨0, 0⟩ := rfl
@[simp] theorem State.reset_wordCount : State.reset.wordCount = 0 := rfl
@[simp] theorem State.reset_result : State.reset.result = 0 := rfl
@[simp] theorem State.reset_ent : State.reset.ent = #v[0, 0, 0, 0, 0, 0, 0, 0] := rfl
@[simp] theorem State.reset_digest : State.reset.digest = #v[0, 0, 0, 0, 0, 0, 0, 0] := rfl
@[simp] theorem State.reset_idx : State.reset.idx = #v[0, 0, 0, 0, 0, 0, 0, 0, 0, 0, 0, 0, 0, 0, 0, 0, 0, 0, 0, 0, 0, 0, 0, 0] := rfl
@[simp] theorem State.reset_diceState : State.reset.diceState = ⟨false, false, 0⟩ := rfl
@[simp] theorem State.reset_diceCount : State.reset.diceCount = ⟨0, 0⟩ := rfl
@[simp] theorem State.reset_diceOut : State.reset.diceOut = #v[0, 0, 0, 0, 0, 0, 0, 0] := rfl
@[simp] theorem State.reset_cb : State.reset.cb = [] := rfl
@[simp] theorem State.reset_acc : State.reset.acc = 0 := rfl
@[simp] theorem State.reset_pend : State.reset.pend = none := rfl
@[simp] theorem State.reset_resetPin : State.reset.resetPin = false := rfl
@[simp] theorem State.reset_turns : State.reset.turns = [] := rfl
@[simp] theorem State.reset_response : State.reset.response = none := rfl
@[simp] theorem State.reset_draws : State.reset.draws = 0 := rfl

-- State.complete
@[simp] theorem State.complete_ctrl (code : ErrCode) (s : State) : (s.complete code).ctrl = s.ctrl := rfl
@[simp] theorem State.complete_status_busy (code : ErrCode) (s : State) : (s.complete code).status.busy = false := rfl
@[simp] theorem State.complete_status_done (code : ErrCode) (s : State) : (s.complete code).status.done = true := rfl
@[simp] theorem State.complete_status_err (code : ErrCode) (s : State) : (s.complete code).status.err = (code != .noError) := rfl
@[simp] theorem State.complete_status_overrun (code : ErrCode) (s : State) : (s.complete code).status.overrun = s.status.overrun := rfl
@[simp] theorem State.complete_status_errCode (code : ErrCode) (s : State) : (s.complete code).status.errCode = code.bits := rfl
@[simp] theorem State.complete_entLen (code : ErrCode) (s : State) : (s.complete code).entLen = s.entLen := rfl
@[simp] theorem State.complete_flags (code : ErrCode) (s : State) : (s.complete code).flags = s.flags := rfl
@[simp] theorem State.complete_csum (code : ErrCode) (s : State) : (s.complete code).csum = s.csum := rfl
@[simp] theorem State.complete_csumSupplied (code : ErrCode) (s : State) : (s.complete code).csumSupplied = s.csumSupplied := rfl
@[simp] theorem State.complete_wordCount (code : ErrCode) (s : State) : (s.complete code).wordCount = s.wordCount := rfl
@[simp] theorem State.complete_result (code : ErrCode) (s : State) : (s.complete code).result = s.result := rfl
@[simp] theorem State.complete_ent (code : ErrCode) (s : State) : (s.complete code).ent = s.ent := rfl
@[simp] theorem State.complete_digest (code : ErrCode) (s : State) : (s.complete code).digest = s.digest := rfl
@[simp] theorem State.complete_idx (code : ErrCode) (s : State) : (s.complete code).idx = s.idx := rfl
@[simp] theorem State.complete_diceState (code : ErrCode) (s : State) : (s.complete code).diceState = s.diceState := rfl
@[simp] theorem State.complete_diceCount (code : ErrCode) (s : State) : (s.complete code).diceCount = s.diceCount := rfl
@[simp] theorem State.complete_diceOut (code : ErrCode) (s : State) : (s.complete code).diceOut = s.diceOut := rfl
@[simp] theorem State.complete_cb (code : ErrCode) (s : State) : (s.complete code).cb = s.cb := rfl
@[simp] theorem State.complete_acc (code : ErrCode) (s : State) : (s.complete code).acc = s.acc := rfl
@[simp] theorem State.complete_pend (code : ErrCode) (s : State) : (s.complete code).pend = none := rfl
@[simp] theorem State.complete_resetPin (code : ErrCode) (s : State) : (s.complete code).resetPin = s.resetPin := rfl
@[simp] theorem State.complete_turns (code : ErrCode) (s : State) : (s.complete code).turns = s.turns := rfl
@[simp] theorem State.complete_response (code : ErrCode) (s : State) : (s.complete code).response = s.response := rfl
@[simp] theorem State.complete_draws (code : ErrCode) (s : State) : (s.complete code).draws = s.draws := rfl

-- State.withChecksum
@[simp] theorem State.withChecksum_ctrl (hc : Vector Word 8 × BitString) (s : State) : (s.withChecksum hc).ctrl = s.ctrl := rfl
@[simp] theorem State.withChecksum_status (hc : Vector Word 8 × BitString) (s : State) : (s.withChecksum hc).status = s.status := rfl
@[simp] theorem State.withChecksum_entLen (hc : Vector Word 8 × BitString) (s : State) : (s.withChecksum hc).entLen = s.entLen := rfl
@[simp] theorem State.withChecksum_flags (hc : Vector Word 8 × BitString) (s : State) : (s.withChecksum hc).flags = s.flags := rfl
@[simp] theorem State.withChecksum_csum (hc : Vector Word 8 × BitString) (s : State) : (s.withChecksum hc).csum = ChecksumReg.ofBits hc.2 := rfl
@[simp] theorem State.withChecksum_csumSupplied (hc : Vector Word 8 × BitString) (s : State) : (s.withChecksum hc).csumSupplied = s.csumSupplied := rfl
@[simp] theorem State.withChecksum_wordCount (hc : Vector Word 8 × BitString) (s : State) : (s.withChecksum hc).wordCount = s.wordCount := rfl
@[simp] theorem State.withChecksum_result (hc : Vector Word 8 × BitString) (s : State) : (s.withChecksum hc).result = s.result := rfl
@[simp] theorem State.withChecksum_ent (hc : Vector Word 8 × BitString) (s : State) : (s.withChecksum hc).ent = s.ent := rfl
@[simp] theorem State.withChecksum_digest (hc : Vector Word 8 × BitString) (s : State) : (s.withChecksum hc).digest = hc.1 := rfl
@[simp] theorem State.withChecksum_idx (hc : Vector Word 8 × BitString) (s : State) : (s.withChecksum hc).idx = s.idx := rfl
@[simp] theorem State.withChecksum_diceState (hc : Vector Word 8 × BitString) (s : State) : (s.withChecksum hc).diceState = s.diceState := rfl
@[simp] theorem State.withChecksum_diceCount (hc : Vector Word 8 × BitString) (s : State) : (s.withChecksum hc).diceCount = s.diceCount := rfl
@[simp] theorem State.withChecksum_diceOut (hc : Vector Word 8 × BitString) (s : State) : (s.withChecksum hc).diceOut = s.diceOut := rfl
@[simp] theorem State.withChecksum_cb (hc : Vector Word 8 × BitString) (s : State) : (s.withChecksum hc).cb = s.cb := rfl
@[simp] theorem State.withChecksum_acc (hc : Vector Word 8 × BitString) (s : State) : (s.withChecksum hc).acc = s.acc := rfl
@[simp] theorem State.withChecksum_pend (hc : Vector Word 8 × BitString) (s : State) : (s.withChecksum hc).pend = s.pend := rfl
@[simp] theorem State.withChecksum_resetPin (hc : Vector Word 8 × BitString) (s : State) : (s.withChecksum hc).resetPin = s.resetPin := rfl
@[simp] theorem State.withChecksum_turns (hc : Vector Word 8 × BitString) (s : State) : (s.withChecksum hc).turns = s.turns := rfl
@[simp] theorem State.withChecksum_response (hc : Vector Word 8 × BitString) (s : State) : (s.withChecksum hc).response = s.response := rfl
@[simp] theorem State.withChecksum_draws (hc : Vector Word 8 × BitString) (s : State) : (s.withChecksum hc).draws = s.draws := rfl

-- State.issue
@[simp] theorem State.issue_ctrl (v : Word) (s : State) : (s.issue v).ctrl = s.ctrl := rfl
@[simp] theorem State.issue_status_busy (v : Word) (s : State) : (s.issue v).status.busy = true := rfl
@[simp] theorem State.issue_status_done (v : Word) (s : State) : (s.issue v).status.done = false := rfl
@[simp] theorem State.issue_status_err (v : Word) (s : State) : (s.issue v).status.err = false := rfl
@[simp] theorem State.issue_status_overrun (v : Word) (s : State) : (s.issue v).status.overrun = s.status.overrun := rfl
@[simp] theorem State.issue_status_errCode (v : Word) (s : State) : (s.issue v).status.errCode = 0 := rfl
@[simp] theorem State.issue_entLen (v : Word) (s : State) : (s.issue v).entLen = s.entLen := rfl
@[simp] theorem State.issue_flags (v : Word) (s : State) : (s.issue v).flags = s.flags := rfl
@[simp] theorem State.issue_csum (v : Word) (s : State) : (s.issue v).csum = s.csum := rfl
@[simp] theorem State.issue_csumSupplied (v : Word) (s : State) : (s.issue v).csumSupplied = s.csumSupplied := rfl
@[simp] theorem State.issue_wordCount (v : Word) (s : State) : (s.issue v).wordCount = s.wordCount := rfl
@[simp] theorem State.issue_result (v : Word) (s : State) : (s.issue v).result = s.result := rfl
@[simp] theorem State.issue_ent (v : Word) (s : State) : (s.issue v).ent = s.ent := rfl
@[simp] theorem State.issue_digest (v : Word) (s : State) : (s.issue v).digest = s.digest := rfl
@[simp] theorem State.issue_idx (v : Word) (s : State) : (s.issue v).idx = s.idx := rfl
@[simp] theorem State.issue_diceState (v : Word) (s : State) : (s.issue v).diceState = s.diceState := rfl
@[simp] theorem State.issue_diceCount (v : Word) (s : State) : (s.issue v).diceCount = s.diceCount := rfl
@[simp] theorem State.issue_diceOut (v : Word) (s : State) : (s.issue v).diceOut = s.diceOut := rfl
@[simp] theorem State.issue_cb (v : Word) (s : State) : (s.issue v).cb = s.cb := rfl
@[simp] theorem State.issue_acc (v : Word) (s : State) : (s.issue v).acc = s.acc := rfl
@[simp] theorem State.issue_pend (v : Word) (s : State) : (s.issue v).pend = some v := rfl
@[simp] theorem State.issue_resetPin (v : Word) (s : State) : (s.issue v).resetPin = s.resetPin := rfl
@[simp] theorem State.issue_turns (v : Word) (s : State) : (s.issue v).turns = s.turns := rfl
@[simp] theorem State.issue_response (v : Word) (s : State) : (s.issue v).response = s.response := rfl
@[simp] theorem State.issue_draws (v : Word) (s : State) : (s.issue v).draws = s.draws := rfl

-- State.resetBlock
@[simp] theorem State.resetBlock_ctrl (s : State) : (s.resetBlock).ctrl = State.reset.ctrl := rfl
@[simp] theorem State.resetBlock_status (s : State) : (s.resetBlock).status = State.reset.status := rfl
@[simp] theorem State.resetBlock_entLen (s : State) : (s.resetBlock).entLen = State.reset.entLen := rfl
@[simp] theorem State.resetBlock_flags (s : State) : (s.resetBlock).flags = State.reset.flags := rfl
@[simp] theorem State.resetBlock_csum (s : State) : (s.resetBlock).csum = State.reset.csum := rfl
@[simp] theorem State.resetBlock_csumSupplied (s : State) : (s.resetBlock).csumSupplied = State.reset.csumSupplied := rfl
@[simp] theorem State.resetBlock_wordCount (s : State) : (s.resetBlock).wordCount = State.reset.wordCount := rfl
@[simp] theorem State.resetBlock_result (s : State) : (s.resetBlock).result = State.reset.result := rfl
@[simp] theorem State.resetBlock_ent (s : State) : (s.resetBlock).ent = State.reset.ent := rfl
@[simp] theorem State.resetBlock_digest (s : State) : (s.resetBlock).digest = State.reset.digest := rfl
@[simp] theorem State.resetBlock_idx (s : State) : (s.resetBlock).idx = State.reset.idx := rfl
@[simp] theorem State.resetBlock_diceState (s : State) : (s.resetBlock).diceState = State.reset.diceState := rfl
@[simp] theorem State.resetBlock_diceCount (s : State) : (s.resetBlock).diceCount = State.reset.diceCount := rfl
@[simp] theorem State.resetBlock_diceOut (s : State) : (s.resetBlock).diceOut = State.reset.diceOut := rfl
@[simp] theorem State.resetBlock_cb (s : State) : (s.resetBlock).cb = State.reset.cb := rfl
@[simp] theorem State.resetBlock_acc (s : State) : (s.resetBlock).acc = State.reset.acc := rfl
@[simp] theorem State.resetBlock_pend (s : State) : (s.resetBlock).pend = State.reset.pend := rfl
@[simp] theorem State.resetBlock_resetPin (s : State) : (s.resetBlock).resetPin = s.resetPin := rfl
@[simp] theorem State.resetBlock_turns (s : State) : (s.resetBlock).turns = s.turns := rfl
@[simp] theorem State.resetBlock_response (s : State) : (s.resetBlock).response = s.response := rfl
@[simp] theorem State.resetBlock_draws (s : State) : (s.resetBlock).draws = s.draws := rfl

-- State.withVerdicts
@[simp] theorem State.withVerdicts_ctrl (s : State) : (s.withVerdicts).ctrl = s.ctrl := rfl
@[simp] theorem State.withVerdicts_status (s : State) : (s.withVerdicts).status = s.status := rfl
@[simp] theorem State.withVerdicts_entLen (s : State) : (s.withVerdicts).entLen = s.entLen := rfl
@[simp] theorem State.withVerdicts_flags_lenv (s : State) : (s.withVerdicts).flags.lenv = lengthVerdict (entropyLength s) := rfl
@[simp] theorem State.withVerdicts_flags_weakZero (s : State) : (s.withVerdicts).flags.weakZero = (!decide (entropyLength s > Config.maxEntBits) && allZeros (entropy s)) := rfl
@[simp] theorem State.withVerdicts_flags_weakOnes (s : State) : (s.withVerdicts).flags.weakOnes = (!decide (entropyLength s > Config.maxEntBits) && allOnes (entropy s)) := rfl
@[simp] theorem State.withVerdicts_flags_weakNa (s : State) : (s.withVerdicts).flags.weakNa = decide (entropyLength s > Config.maxEntBits) := rfl
@[simp] theorem State.withVerdicts_flags_matched (s : State) : (s.withVerdicts).flags.matched = s.flags.matched := rfl
@[simp] theorem State.withVerdicts_flags_atypical (s : State) : (s.withVerdicts).flags.atypical = s.flags.atypical := rfl
@[simp] theorem State.withVerdicts_csum (s : State) : (s.withVerdicts).csum = s.csum := rfl
@[simp] theorem State.withVerdicts_csumSupplied (s : State) : (s.withVerdicts).csumSupplied = s.csumSupplied := rfl
@[simp] theorem State.withVerdicts_wordCount (s : State) : (s.withVerdicts).wordCount = s.wordCount := rfl
@[simp] theorem State.withVerdicts_result (s : State) : (s.withVerdicts).result = s.result := rfl
@[simp] theorem State.withVerdicts_ent (s : State) : (s.withVerdicts).ent = s.ent := rfl
@[simp] theorem State.withVerdicts_digest (s : State) : (s.withVerdicts).digest = s.digest := rfl
@[simp] theorem State.withVerdicts_idx (s : State) : (s.withVerdicts).idx = s.idx := rfl
@[simp] theorem State.withVerdicts_diceState (s : State) : (s.withVerdicts).diceState = s.diceState := rfl
@[simp] theorem State.withVerdicts_diceCount (s : State) : (s.withVerdicts).diceCount = s.diceCount := rfl
@[simp] theorem State.withVerdicts_diceOut (s : State) : (s.withVerdicts).diceOut = s.diceOut := rfl
@[simp] theorem State.withVerdicts_cb (s : State) : (s.withVerdicts).cb = s.cb := rfl
@[simp] theorem State.withVerdicts_acc (s : State) : (s.withVerdicts).acc = s.acc := rfl
@[simp] theorem State.withVerdicts_pend (s : State) : (s.withVerdicts).pend = s.pend := rfl
@[simp] theorem State.withVerdicts_resetPin (s : State) : (s.withVerdicts).resetPin = s.resetPin := rfl
@[simp] theorem State.withVerdicts_turns (s : State) : (s.withVerdicts).turns = s.turns := rfl
@[simp] theorem State.withVerdicts_response (s : State) : (s.withVerdicts).response = s.response := rfl
@[simp] theorem State.withVerdicts_draws (s : State) : (s.withVerdicts).draws = s.draws := rfl

-- State.withEncoded
@[simp] theorem State.withEncoded_ctrl (s : State) : (s.withEncoded).ctrl = s.ctrl := rfl
@[simp] theorem State.withEncoded_status (s : State) : (s.withEncoded).status = s.status := rfl
@[simp] theorem State.withEncoded_entLen (s : State) : (s.withEncoded).entLen = s.entLen := rfl
@[simp] theorem State.withEncoded_flags (s : State) : (s.withEncoded).flags = s.flags := rfl
@[simp] theorem State.withEncoded_csum (s : State) : (s.withEncoded).csum = ChecksumReg.ofBits (checksum (entropy s)).2 := rfl
@[simp] theorem State.withEncoded_csumSupplied (s : State) : (s.withEncoded).csumSupplied = s.csumSupplied := rfl
@[simp] theorem State.withEncoded_wordCount (s : State) : (s.withEncoded).wordCount = BitVec.ofNat 5 (group (combinedBits s)).length := rfl
@[simp] theorem State.withEncoded_result (s : State) : (s.withEncoded).result = s.result := rfl
@[simp] theorem State.withEncoded_ent (s : State) : (s.withEncoded).ent = s.ent := rfl
@[simp] theorem State.withEncoded_digest (s : State) : (s.withEncoded).digest = (checksum (entropy s)).1 := rfl
@[simp] theorem State.withEncoded_idx (s : State) : (s.withEncoded).idx = tabulate 24 fun i => BitVec.ofNat 11 ((group (combinedBits s)).getD i 0) := rfl
@[simp] theorem State.withEncoded_diceState (s : State) : (s.withEncoded).diceState = s.diceState := rfl
@[simp] theorem State.withEncoded_diceCount (s : State) : (s.withEncoded).diceCount = s.diceCount := rfl
@[simp] theorem State.withEncoded_diceOut (s : State) : (s.withEncoded).diceOut = s.diceOut := rfl
@[simp] theorem State.withEncoded_cb (s : State) : (s.withEncoded).cb = combinedBits s := rfl
@[simp] theorem State.withEncoded_acc (s : State) : (s.withEncoded).acc = s.acc := rfl
@[simp] theorem State.withEncoded_pend (s : State) : (s.withEncoded).pend = s.pend := rfl
@[simp] theorem State.withEncoded_resetPin (s : State) : (s.withEncoded).resetPin = s.resetPin := rfl
@[simp] theorem State.withEncoded_turns (s : State) : (s.withEncoded).turns = s.turns := rfl
@[simp] theorem State.withEncoded_response (s : State) : (s.withEncoded).response = s.response := rfl
@[simp] theorem State.withEncoded_draws (s : State) : (s.withEncoded).draws = s.draws := rfl

-- State.withDecoded
@[simp] theorem State.withDecoded_ctrl (s : State) : (s.withDecoded).ctrl = s.ctrl := rfl
@[simp] theorem State.withDecoded_status (s : State) : (s.withDecoded).status = s.status := rfl
@[simp] theorem State.withDecoded_entLen (s : State) : (s.withDecoded).entLen = s.entLen := rfl
@[simp] theorem State.withDecoded_flags_lenv (s : State) : (s.withDecoded).flags.lenv = s.flags.lenv := rfl
@[simp] theorem State.withDecoded_flags_weakZero (s : State) : (s.withDecoded).flags.weakZero = s.flags.weakZero := rfl
@[simp] theorem State.withDecoded_flags_weakOnes (s : State) : (s.withDecoded).flags.weakOnes = s.flags.weakOnes := rfl
@[simp] theorem State.withDecoded_flags_weakNa (s : State) : (s.withDecoded).flags.weakNa = s.flags.weakNa := rfl
@[simp] theorem State.withDecoded_flags_matched (s : State) : (s.withDecoded).flags.matched = false := rfl
@[simp] theorem State.withDecoded_flags_atypical (s : State) : (s.withDecoded).flags.atypical = (!standardWordCount (mnemonicLength s)) := rfl
@[simp] theorem State.withDecoded_csum (s : State) : (s.withDecoded).csum = s.csum := rfl
@[simp] theorem State.withDecoded_csumSupplied (s : State) : (s.withDecoded).csumSupplied = ChecksumReg.ofBits (suppliedChecksum s) := rfl
@[simp] theorem State.withDecoded_wordCount (s : State) : (s.withDecoded).wordCount = s.wordCount := rfl
@[simp] theorem State.withDecoded_result (s : State) : (s.withDecoded).result = s.result := rfl
@[simp] theorem State.withDecoded_ent (s : State) : (s.withDecoded).ent = s.ent := rfl
@[simp] theorem State.withDecoded_digest (s : State) : (s.withDecoded).digest = s.digest := rfl
@[simp] theorem State.withDecoded_idx (s : State) : (s.withDecoded).idx = s.idx := rfl
@[simp] theorem State.withDecoded_diceState (s : State) : (s.withDecoded).diceState = s.diceState := rfl
@[simp] theorem State.withDecoded_diceCount (s : State) : (s.withDecoded).diceCount = s.diceCount := rfl
@[simp] theorem State.withDecoded_diceOut (s : State) : (s.withDecoded).diceOut = s.diceOut := rfl
@[simp] theorem State.withDecoded_cb (s : State) : (s.withDecoded).cb = decodedBits s := rfl
@[simp] theorem State.withDecoded_acc (s : State) : (s.withDecoded).acc = s.acc := rfl
@[simp] theorem State.withDecoded_pend (s : State) : (s.withDecoded).pend = s.pend := rfl
@[simp] theorem State.withDecoded_resetPin (s : State) : (s.withDecoded).resetPin = s.resetPin := rfl
@[simp] theorem State.withDecoded_turns (s : State) : (s.withDecoded).turns = s.turns := rfl
@[simp] theorem State.withDecoded_response (s : State) : (s.withDecoded).response = s.response := rfl
@[simp] theorem State.withDecoded_draws (s : State) : (s.withDecoded).draws = s.draws := rfl

-- State.withRechecked
@[simp] theorem State.withRechecked_ctrl (s : State) : (s.withRechecked).ctrl = s.ctrl := rfl
@[simp] theorem State.withRechecked_status (s : State) : (s.withRechecked).status = s.status := rfl
@[simp] theorem State.withRechecked_entLen (s : State) : (s.withRechecked).entLen = s.entLen := rfl
@[simp] theorem State.withRechecked_flags_lenv (s : State) : (s.withRechecked).flags.lenv = s.flags.lenv := rfl
@[simp] theorem State.withRechecked_flags_weakZero (s : State) : (s.withRechecked).flags.weakZero = s.flags.weakZero := rfl
@[simp] theorem State.withRechecked_flags_weakOnes (s : State) : (s.withRechecked).flags.weakOnes = s.flags.weakOnes := rfl
@[simp] theorem State.withRechecked_flags_weakNa (s : State) : (s.withRechecked).flags.weakNa = s.flags.weakNa := rfl
@[simp] theorem State.withRechecked_flags_matched (s : State) : (s.withRechecked).flags.matched = false := rfl
@[simp] theorem State.withRechecked_flags_atypical (s : State) : (s.withRechecked).flags.atypical = (!standardWordCount (mnemonicLength s)) := rfl
@[simp] theorem State.withRechecked_csum (s : State) : (s.withRechecked).csum = ChecksumReg.ofBits (checksum (decodedEntropy s)).2 := rfl
@[simp] theorem State.withRechecked_csumSupplied (s : State) : (s.withRechecked).csumSupplied = ChecksumReg.ofBits (suppliedChecksum s) := rfl
@[simp] theorem State.withRechecked_wordCount (s : State) : (s.withRechecked).wordCount = s.wordCount := rfl
@[simp] theorem State.withRechecked_result (s : State) : (s.withRechecked).result = s.result := rfl
@[simp] theorem State.withRechecked_ent (s : State) : (s.withRechecked).ent = s.ent := rfl
@[simp] theorem State.withRechecked_digest (s : State) : (s.withRechecked).digest = (checksum (decodedEntropy s)).1 := rfl
@[simp] theorem State.withRechecked_idx (s : State) : (s.withRechecked).idx = s.idx := rfl
@[simp] theorem State.withRechecked_diceState (s : State) : (s.withRechecked).diceState = s.diceState := rfl
@[simp] theorem State.withRechecked_diceCount (s : State) : (s.withRechecked).diceCount = s.diceCount := rfl
@[simp] theorem State.withRechecked_diceOut (s : State) : (s.withRechecked).diceOut = s.diceOut := rfl
@[simp] theorem State.withRechecked_cb (s : State) : (s.withRechecked).cb = decodedBits s := rfl
@[simp] theorem State.withRechecked_acc (s : State) : (s.withRechecked).acc = s.acc := rfl
@[simp] theorem State.withRechecked_pend (s : State) : (s.withRechecked).pend = s.pend := rfl
@[simp] theorem State.withRechecked_resetPin (s : State) : (s.withRechecked).resetPin = s.resetPin := rfl
@[simp] theorem State.withRechecked_turns (s : State) : (s.withRechecked).turns = s.turns := rfl
@[simp] theorem State.withRechecked_response (s : State) : (s.withRechecked).response = s.response := rfl
@[simp] theorem State.withRechecked_draws (s : State) : (s.withRechecked).draws = s.draws := rfl

-- State.withRecovered
@[simp] theorem State.withRecovered_ctrl (s : State) : (s.withRecovered).ctrl = s.ctrl := rfl
@[simp] theorem State.withRecovered_status (s : State) : (s.withRecovered).status = s.status := rfl
@[simp] theorem State.withRecovered_entLen (s : State) : (s.withRecovered).entLen = BitVec.ofNat 16 (decodedLength s) := rfl
@[simp] theorem State.withRecovered_flags_lenv (s : State) : (s.withRecovered).flags.lenv = s.flags.lenv := rfl
@[simp] theorem State.withRecovered_flags_weakZero (s : State) : (s.withRecovered).flags.weakZero = s.flags.weakZero := rfl
@[simp] theorem State.withRecovered_flags_weakOnes (s : State) : (s.withRecovered).flags.weakOnes = s.flags.weakOnes := rfl
@[simp] theorem State.withRecovered_flags_weakNa (s : State) : (s.withRecovered).flags.weakNa = s.flags.weakNa := rfl
@[simp] theorem State.withRecovered_flags_matched (s : State) : (s.withRecovered).flags.matched = true := rfl
@[simp] theorem State.withRecovered_flags_atypical (s : State) : (s.withRecovered).flags.atypical = (!standardWordCount (mnemonicLength s)) := rfl
@[simp] theorem State.withRecovered_csum (s : State) : (s.withRecovered).csum = ChecksumReg.ofBits (checksum (decodedEntropy s)).2 := rfl
@[simp] theorem State.withRecovered_csumSupplied (s : State) : (s.withRecovered).csumSupplied = ChecksumReg.ofBits (suppliedChecksum s) := rfl
@[simp] theorem State.withRecovered_wordCount (s : State) : (s.withRecovered).wordCount = s.wordCount := rfl
@[simp] theorem State.withRecovered_result (s : State) : (s.withRecovered).result = s.result := rfl
@[simp] theorem State.withRecovered_ent (s : State) : (s.withRecovered).ent = put (decodedEntropy s) := rfl
@[simp] theorem State.withRecovered_digest (s : State) : (s.withRecovered).digest = (checksum (decodedEntropy s)).1 := rfl
@[simp] theorem State.withRecovered_idx (s : State) : (s.withRecovered).idx = s.idx := rfl
@[simp] theorem State.withRecovered_diceState (s : State) : (s.withRecovered).diceState = s.diceState := rfl
@[simp] theorem State.withRecovered_diceCount (s : State) : (s.withRecovered).diceCount = s.diceCount := rfl
@[simp] theorem State.withRecovered_diceOut (s : State) : (s.withRecovered).diceOut = s.diceOut := rfl
@[simp] theorem State.withRecovered_cb (s : State) : (s.withRecovered).cb = decodedBits s := rfl
@[simp] theorem State.withRecovered_acc (s : State) : (s.withRecovered).acc = s.acc := rfl
@[simp] theorem State.withRecovered_pend (s : State) : (s.withRecovered).pend = s.pend := rfl
@[simp] theorem State.withRecovered_resetPin (s : State) : (s.withRecovered).resetPin = s.resetPin := rfl
@[simp] theorem State.withRecovered_turns (s : State) : (s.withRecovered).turns = s.turns := rfl
@[simp] theorem State.withRecovered_response (s : State) : (s.withRecovered).response = s.response := rfl
@[simp] theorem State.withRecovered_draws (s : State) : (s.withRecovered).draws = s.draws := rfl

-- State.withField
@[simp] theorem State.withField_ctrl (pos width : Nat) (s : State) : (s.withField pos width).ctrl = s.ctrl := rfl
@[simp] theorem State.withField_status (pos width : Nat) (s : State) : (s.withField pos width).status = s.status := rfl
@[simp] theorem State.withField_entLen (pos width : Nat) (s : State) : (s.withField pos width).entLen = s.entLen := rfl
@[simp] theorem State.withField_flags (pos width : Nat) (s : State) : (s.withField pos width).flags = s.flags := rfl
@[simp] theorem State.withField_csum (pos width : Nat) (s : State) : (s.withField pos width).csum = s.csum := rfl
@[simp] theorem State.withField_csumSupplied (pos width : Nat) (s : State) : (s.withField pos width).csumSupplied = s.csumSupplied := rfl
@[simp] theorem State.withField_wordCount (pos width : Nat) (s : State) : (s.withField pos width).wordCount = s.wordCount := rfl
@[simp] theorem State.withField_result (pos width : Nat) (s : State) : (s.withField pos width).result = BitVec.ofNat 32 (field s.cb pos width) := rfl
@[simp] theorem State.withField_ent (pos width : Nat) (s : State) : (s.withField pos width).ent = s.ent := rfl
@[simp] theorem State.withField_digest (pos width : Nat) (s : State) : (s.withField pos width).digest = s.digest := rfl
@[simp] theorem State.withField_idx (pos width : Nat) (s : State) : (s.withField pos width).idx = s.idx := rfl
@[simp] theorem State.withField_diceState (pos width : Nat) (s : State) : (s.withField pos width).diceState = s.diceState := rfl
@[simp] theorem State.withField_diceCount (pos width : Nat) (s : State) : (s.withField pos width).diceCount = s.diceCount := rfl
@[simp] theorem State.withField_diceOut (pos width : Nat) (s : State) : (s.withField pos width).diceOut = s.diceOut := rfl
@[simp] theorem State.withField_cb (pos width : Nat) (s : State) : (s.withField pos width).cb = s.cb := rfl
@[simp] theorem State.withField_acc (pos width : Nat) (s : State) : (s.withField pos width).acc = s.acc := rfl
@[simp] theorem State.withField_pend (pos width : Nat) (s : State) : (s.withField pos width).pend = s.pend := rfl
@[simp] theorem State.withField_resetPin (pos width : Nat) (s : State) : (s.withField pos width).resetPin = s.resetPin := rfl
@[simp] theorem State.withField_turns (pos width : Nat) (s : State) : (s.withField pos width).turns = s.turns := rfl
@[simp] theorem State.withField_response (pos width : Nat) (s : State) : (s.withField pos width).response = s.response := rfl
@[simp] theorem State.withField_draws (pos width : Nat) (s : State) : (s.withField pos width).draws = s.draws := rfl

-- State.withSession
@[simp] theorem State.withSession_ctrl (n : Nat) (s : State) : (s.withSession n).ctrl = s.ctrl := rfl
@[simp] theorem State.withSession_status (n : Nat) (s : State) : (s.withSession n).status = s.status := rfl
@[simp] theorem State.withSession_entLen (n : Nat) (s : State) : (s.withSession n).entLen = s.entLen := rfl
@[simp] theorem State.withSession_flags (n : Nat) (s : State) : (s.withSession n).flags = s.flags := rfl
@[simp] theorem State.withSession_csum (n : Nat) (s : State) : (s.withSession n).csum = s.csum := rfl
@[simp] theorem State.withSession_csumSupplied (n : Nat) (s : State) : (s.withSession n).csumSupplied = s.csumSupplied := rfl
@[simp] theorem State.withSession_wordCount (n : Nat) (s : State) : (s.withSession n).wordCount = s.wordCount := rfl
@[simp] theorem State.withSession_result (n : Nat) (s : State) : (s.withSession n).result = s.result := rfl
@[simp] theorem State.withSession_ent (n : Nat) (s : State) : (s.withSession n).ent = s.ent := rfl
@[simp] theorem State.withSession_digest (n : Nat) (s : State) : (s.withSession n).digest = s.digest := rfl
@[simp] theorem State.withSession_idx (n : Nat) (s : State) : (s.withSession n).idx = s.idx := rfl
@[simp] theorem State.withSession_diceState (n : Nat) (s : State) : (s.withSession n).diceState = ⟨true, false, BitVec.ofNat 9 n⟩ := rfl
@[simp] theorem State.withSession_diceCount (n : Nat) (s : State) : (s.withSession n).diceCount = ⟨0, 0⟩ := rfl
@[simp] theorem State.withSession_diceOut (n : Nat) (s : State) : (s.withSession n).diceOut = put [] := rfl
@[simp] theorem State.withSession_cb (n : Nat) (s : State) : (s.withSession n).cb = s.cb := rfl
@[simp] theorem State.withSession_acc (n : Nat) (s : State) : (s.withSession n).acc = 0 := rfl
@[simp] theorem State.withSession_pend (n : Nat) (s : State) : (s.withSession n).pend = s.pend := rfl
@[simp] theorem State.withSession_resetPin (n : Nat) (s : State) : (s.withSession n).resetPin = s.resetPin := rfl
@[simp] theorem State.withSession_turns (n : Nat) (s : State) : (s.withSession n).turns = s.turns := rfl
@[simp] theorem State.withSession_response (n : Nat) (s : State) : (s.withSession n).response = s.response := rfl
@[simp] theorem State.withSession_draws (n : Nat) (s : State) : (s.withSession n).draws = s.draws := rfl

-- State.disarmed
@[simp] theorem State.disarmed_ctrl (s : State) : (s.disarmed).ctrl = s.ctrl := rfl
@[simp] theorem State.disarmed_status (s : State) : (s.disarmed).status = s.status := rfl
@[simp] theorem State.disarmed_entLen (s : State) : (s.disarmed).entLen = s.entLen := rfl
@[simp] theorem State.disarmed_flags (s : State) : (s.disarmed).flags = s.flags := rfl
@[simp] theorem State.disarmed_csum (s : State) : (s.disarmed).csum = s.csum := rfl
@[simp] theorem State.disarmed_csumSupplied (s : State) : (s.disarmed).csumSupplied = s.csumSupplied := rfl
@[simp] theorem State.disarmed_wordCount (s : State) : (s.disarmed).wordCount = s.wordCount := rfl
@[simp] theorem State.disarmed_result (s : State) : (s.disarmed).result = s.result := rfl
@[simp] theorem State.disarmed_ent (s : State) : (s.disarmed).ent = s.ent := rfl
@[simp] theorem State.disarmed_digest (s : State) : (s.disarmed).digest = s.digest := rfl
@[simp] theorem State.disarmed_idx (s : State) : (s.disarmed).idx = s.idx := rfl
@[simp] theorem State.disarmed_diceState_armed (s : State) : (s.disarmed).diceState.armed = false := rfl
@[simp] theorem State.disarmed_diceState_badRoll (s : State) : (s.disarmed).diceState.badRoll = s.diceState.badRoll := rfl
@[simp] theorem State.disarmed_diceState_target (s : State) : (s.disarmed).diceState.target = s.diceState.target := rfl
@[simp] theorem State.disarmed_diceCount (s : State) : (s.disarmed).diceCount = s.diceCount := rfl
@[simp] theorem State.disarmed_diceOut (s : State) : (s.disarmed).diceOut = s.diceOut := rfl
@[simp] theorem State.disarmed_cb (s : State) : (s.disarmed).cb = s.cb := rfl
@[simp] theorem State.disarmed_acc (s : State) : (s.disarmed).acc = s.acc := rfl
@[simp] theorem State.disarmed_pend (s : State) : (s.disarmed).pend = s.pend := rfl
@[simp] theorem State.disarmed_resetPin (s : State) : (s.disarmed).resetPin = s.resetPin := rfl
@[simp] theorem State.disarmed_turns (s : State) : (s.disarmed).turns = s.turns := rfl
@[simp] theorem State.disarmed_response (s : State) : (s.disarmed).response = s.response := rfl
@[simp] theorem State.disarmed_draws (s : State) : (s.disarmed).draws = s.draws := rfl

-- State.countRoll
@[simp] theorem State.countRoll_ctrl (s : State) : (s.countRoll).ctrl = s.ctrl := rfl
@[simp] theorem State.countRoll_status (s : State) : (s.countRoll).status = s.status := rfl
@[simp] theorem State.countRoll_entLen (s : State) : (s.countRoll).entLen = s.entLen := rfl
@[simp] theorem State.countRoll_flags (s : State) : (s.countRoll).flags = s.flags := rfl
@[simp] theorem State.countRoll_csum (s : State) : (s.countRoll).csum = s.csum := rfl
@[simp] theorem State.countRoll_csumSupplied (s : State) : (s.countRoll).csumSupplied = s.csumSupplied := rfl
@[simp] theorem State.countRoll_wordCount (s : State) : (s.countRoll).wordCount = s.wordCount := rfl
@[simp] theorem State.countRoll_result (s : State) : (s.countRoll).result = s.result := rfl
@[simp] theorem State.countRoll_ent (s : State) : (s.countRoll).ent = s.ent := rfl
@[simp] theorem State.countRoll_digest (s : State) : (s.countRoll).digest = s.digest := rfl
@[simp] theorem State.countRoll_idx (s : State) : (s.countRoll).idx = s.idx := rfl
@[simp] theorem State.countRoll_diceState (s : State) : (s.countRoll).diceState = s.diceState := rfl
@[simp] theorem State.countRoll_diceCount_accepted (s : State) : (s.countRoll).diceCount.accepted = s.diceCount.accepted := rfl
@[simp] theorem State.countRoll_diceCount_raw (s : State) : (s.countRoll).diceCount.raw = sat16 (s.diceCount.raw.toNat + 1) := rfl
@[simp] theorem State.countRoll_diceOut (s : State) : (s.countRoll).diceOut = s.diceOut := rfl
@[simp] theorem State.countRoll_cb (s : State) : (s.countRoll).cb = s.cb := rfl
@[simp] theorem State.countRoll_acc (s : State) : (s.countRoll).acc = s.acc := rfl
@[simp] theorem State.countRoll_pend (s : State) : (s.countRoll).pend = s.pend := rfl
@[simp] theorem State.countRoll_resetPin (s : State) : (s.countRoll).resetPin = s.resetPin := rfl
@[simp] theorem State.countRoll_turns (s : State) : (s.countRoll).turns = s.turns := rfl
@[simp] theorem State.countRoll_response (s : State) : (s.countRoll).response = s.response := rfl
@[simp] theorem State.countRoll_draws (s : State) : (s.countRoll).draws = s.draws := rfl

-- State.markBadRoll
@[simp] theorem State.markBadRoll_ctrl (s : State) : (s.markBadRoll).ctrl = s.ctrl := rfl
@[simp] theorem State.markBadRoll_status (s : State) : (s.markBadRoll).status = s.status := rfl
@[simp] theorem State.markBadRoll_entLen (s : State) : (s.markBadRoll).entLen = s.entLen := rfl
@[simp] theorem State.markBadRoll_flags (s : State) : (s.markBadRoll).flags = s.flags := rfl
@[simp] theorem State.markBadRoll_csum (s : State) : (s.markBadRoll).csum = s.csum := rfl
@[simp] theorem State.markBadRoll_csumSupplied (s : State) : (s.markBadRoll).csumSupplied = s.csumSupplied := rfl
@[simp] theorem State.markBadRoll_wordCount (s : State) : (s.markBadRoll).wordCount = s.wordCount := rfl
@[simp] theorem State.markBadRoll_result (s : State) : (s.markBadRoll).result = s.result := rfl
@[simp] theorem State.markBadRoll_ent (s : State) : (s.markBadRoll).ent = s.ent := rfl
@[simp] theorem State.markBadRoll_digest (s : State) : (s.markBadRoll).digest = s.digest := rfl
@[simp] theorem State.markBadRoll_idx (s : State) : (s.markBadRoll).idx = s.idx := rfl
@[simp] theorem State.markBadRoll_diceState_armed (s : State) : (s.markBadRoll).diceState.armed = s.diceState.armed := rfl
@[simp] theorem State.markBadRoll_diceState_badRoll (s : State) : (s.markBadRoll).diceState.badRoll = true := rfl
@[simp] theorem State.markBadRoll_diceState_target (s : State) : (s.markBadRoll).diceState.target = s.diceState.target := rfl
@[simp] theorem State.markBadRoll_diceCount (s : State) : (s.markBadRoll).diceCount = s.diceCount := rfl
@[simp] theorem State.markBadRoll_diceOut (s : State) : (s.markBadRoll).diceOut = s.diceOut := rfl
@[simp] theorem State.markBadRoll_cb (s : State) : (s.markBadRoll).cb = s.cb := rfl
@[simp] theorem State.markBadRoll_acc (s : State) : (s.markBadRoll).acc = s.acc := rfl
@[simp] theorem State.markBadRoll_pend (s : State) : (s.markBadRoll).pend = s.pend := rfl
@[simp] theorem State.markBadRoll_resetPin (s : State) : (s.markBadRoll).resetPin = s.resetPin := rfl
@[simp] theorem State.markBadRoll_turns (s : State) : (s.markBadRoll).turns = s.turns := rfl
@[simp] theorem State.markBadRoll_response (s : State) : (s.markBadRoll).response = s.response := rfl
@[simp] theorem State.markBadRoll_draws (s : State) : (s.markBadRoll).draws = s.draws := rfl

-- State.acceptDigit
@[simp] theorem State.acceptDigit_ctrl (d : Nat) (s : State) : (s.acceptDigit d).ctrl = s.ctrl := rfl
@[simp] theorem State.acceptDigit_status (d : Nat) (s : State) : (s.acceptDigit d).status = s.status := rfl
@[simp] theorem State.acceptDigit_entLen (d : Nat) (s : State) : (s.acceptDigit d).entLen = s.entLen := rfl
@[simp] theorem State.acceptDigit_flags (d : Nat) (s : State) : (s.acceptDigit d).flags = s.flags := rfl
@[simp] theorem State.acceptDigit_csum (d : Nat) (s : State) : (s.acceptDigit d).csum = s.csum := rfl
@[simp] theorem State.acceptDigit_csumSupplied (d : Nat) (s : State) : (s.acceptDigit d).csumSupplied = s.csumSupplied := rfl
@[simp] theorem State.acceptDigit_wordCount (d : Nat) (s : State) : (s.acceptDigit d).wordCount = s.wordCount := rfl
@[simp] theorem State.acceptDigit_result (d : Nat) (s : State) : (s.acceptDigit d).result = s.result := rfl
@[simp] theorem State.acceptDigit_ent (d : Nat) (s : State) : (s.acceptDigit d).ent = s.ent := rfl
@[simp] theorem State.acceptDigit_digest (d : Nat) (s : State) : (s.acceptDigit d).digest = s.digest := rfl
@[simp] theorem State.acceptDigit_idx (d : Nat) (s : State) : (s.acceptDigit d).idx = s.idx := rfl
@[simp] theorem State.acceptDigit_diceState (d : Nat) (s : State) : (s.acceptDigit d).diceState = s.diceState := rfl
@[simp] theorem State.acceptDigit_diceCount_accepted (d : Nat) (s : State) : (s.acceptDigit d).diceCount.accepted = sat16 (s.diceCount.accepted.toNat + 1) := rfl
@[simp] theorem State.acceptDigit_diceCount_raw (d : Nat) (s : State) : (s.acceptDigit d).diceCount.raw = s.diceCount.raw := rfl
@[simp] theorem State.acceptDigit_diceOut (d : Nat) (s : State) : (s.acceptDigit d).diceOut = s.diceOut := rfl
@[simp] theorem State.acceptDigit_cb (d : Nat) (s : State) : (s.acceptDigit d).cb = s.cb := rfl
@[simp] theorem State.acceptDigit_acc (d : Nat) (s : State) : (s.acceptDigit d).acc =
    (if s.diceCount.accepted.toNat < s.diceState.target.toNat / 2
      then setDigit s.acc s.diceCount.accepted.toNat d else s.acc) := rfl
@[simp] theorem State.acceptDigit_pend (d : Nat) (s : State) : (s.acceptDigit d).pend = s.pend := rfl
@[simp] theorem State.acceptDigit_resetPin (d : Nat) (s : State) : (s.acceptDigit d).resetPin = s.resetPin := rfl
@[simp] theorem State.acceptDigit_turns (d : Nat) (s : State) : (s.acceptDigit d).turns = s.turns := rfl
@[simp] theorem State.acceptDigit_response (d : Nat) (s : State) : (s.acceptDigit d).response = s.response := rfl
@[simp] theorem State.acceptDigit_draws (d : Nat) (s : State) : (s.acceptDigit d).draws = s.draws := rfl

-- State.withOutput
@[simp] theorem State.withOutput_ctrl (s : State) : (s.withOutput).ctrl = s.ctrl := rfl
@[simp] theorem State.withOutput_status (s : State) : (s.withOutput).status = s.status := rfl
@[simp] theorem State.withOutput_entLen (s : State) : (s.withOutput).entLen = s.entLen := rfl
@[simp] theorem State.withOutput_flags (s : State) : (s.withOutput).flags = s.flags := rfl
@[simp] theorem State.withOutput_csum (s : State) : (s.withOutput).csum = s.csum := rfl
@[simp] theorem State.withOutput_csumSupplied (s : State) : (s.withOutput).csumSupplied = s.csumSupplied := rfl
@[simp] theorem State.withOutput_wordCount (s : State) : (s.withOutput).wordCount = s.wordCount := rfl
@[simp] theorem State.withOutput_result (s : State) : (s.withOutput).result = s.result := rfl
@[simp] theorem State.withOutput_ent (s : State) : (s.withOutput).ent = s.ent := rfl
@[simp] theorem State.withOutput_digest (s : State) : (s.withOutput).digest = s.digest := rfl
@[simp] theorem State.withOutput_idx (s : State) : (s.withOutput).idx = s.idx := rfl
@[simp] theorem State.withOutput_diceState (s : State) : (s.withOutput).diceState = s.diceState := rfl
@[simp] theorem State.withOutput_diceCount (s : State) : (s.withOutput).diceCount = s.diceCount := rfl
@[simp] theorem State.withOutput_diceOut (s : State) : (s.withOutput).diceOut = put (sessionOutput s.acc s.diceState.target.toNat) := rfl
@[simp] theorem State.withOutput_cb (s : State) : (s.withOutput).cb = s.cb := rfl
@[simp] theorem State.withOutput_acc (s : State) : (s.withOutput).acc = s.acc := rfl
@[simp] theorem State.withOutput_pend (s : State) : (s.withOutput).pend = s.pend := rfl
@[simp] theorem State.withOutput_resetPin (s : State) : (s.withOutput).resetPin = s.resetPin := rfl
@[simp] theorem State.withOutput_turns (s : State) : (s.withOutput).turns = s.turns := rfl
@[simp] theorem State.withOutput_response (s : State) : (s.withOutput).response = s.response := rfl
@[simp] theorem State.withOutput_draws (s : State) : (s.withOutput).draws = s.draws := rfl

-- State.withMinimumRolls
@[simp] theorem State.withMinimumRolls_ctrl (n : Nat) (s : State) : (s.withMinimumRolls n).ctrl = s.ctrl := rfl
@[simp] theorem State.withMinimumRolls_status (n : Nat) (s : State) : (s.withMinimumRolls n).status = s.status := rfl
@[simp] theorem State.withMinimumRolls_entLen (n : Nat) (s : State) : (s.withMinimumRolls n).entLen = s.entLen := rfl
@[simp] theorem State.withMinimumRolls_flags (n : Nat) (s : State) : (s.withMinimumRolls n).flags = s.flags := rfl
@[simp] theorem State.withMinimumRolls_csum (n : Nat) (s : State) : (s.withMinimumRolls n).csum = s.csum := rfl
@[simp] theorem State.withMinimumRolls_csumSupplied (n : Nat) (s : State) : (s.withMinimumRolls n).csumSupplied = s.csumSupplied := rfl
@[simp] theorem State.withMinimumRolls_wordCount (n : Nat) (s : State) : (s.withMinimumRolls n).wordCount = s.wordCount := rfl
@[simp] theorem State.withMinimumRolls_result (n : Nat) (s : State) : (s.withMinimumRolls n).result = BitVec.ofNat 32 (minimumRolls n) := rfl
@[simp] theorem State.withMinimumRolls_ent (n : Nat) (s : State) : (s.withMinimumRolls n).ent = s.ent := rfl
@[simp] theorem State.withMinimumRolls_digest (n : Nat) (s : State) : (s.withMinimumRolls n).digest = s.digest := rfl
@[simp] theorem State.withMinimumRolls_idx (n : Nat) (s : State) : (s.withMinimumRolls n).idx = s.idx := rfl
@[simp] theorem State.withMinimumRolls_diceState (n : Nat) (s : State) : (s.withMinimumRolls n).diceState = s.diceState := rfl
@[simp] theorem State.withMinimumRolls_diceCount (n : Nat) (s : State) : (s.withMinimumRolls n).diceCount = s.diceCount := rfl
@[simp] theorem State.withMinimumRolls_diceOut (n : Nat) (s : State) : (s.withMinimumRolls n).diceOut = s.diceOut := rfl
@[simp] theorem State.withMinimumRolls_cb (n : Nat) (s : State) : (s.withMinimumRolls n).cb = s.cb := rfl
@[simp] theorem State.withMinimumRolls_acc (n : Nat) (s : State) : (s.withMinimumRolls n).acc = s.acc := rfl
@[simp] theorem State.withMinimumRolls_pend (n : Nat) (s : State) : (s.withMinimumRolls n).pend = s.pend := rfl
@[simp] theorem State.withMinimumRolls_resetPin (n : Nat) (s : State) : (s.withMinimumRolls n).resetPin = s.resetPin := rfl
@[simp] theorem State.withMinimumRolls_turns (n : Nat) (s : State) : (s.withMinimumRolls n).turns = s.turns := rfl
@[simp] theorem State.withMinimumRolls_response (n : Nat) (s : State) : (s.withMinimumRolls n).response = s.response := rfl
@[simp] theorem State.withMinimumRolls_draws (n : Nat) (s : State) : (s.withMinimumRolls n).draws = s.draws := rfl

-- State.withTurns
@[simp] theorem State.withTurns_ctrl (ts : List Turn) (s : State) : (s.withTurns ts).ctrl = s.ctrl := rfl
@[simp] theorem State.withTurns_status (ts : List Turn) (s : State) : (s.withTurns ts).status = s.status := rfl
@[simp] theorem State.withTurns_entLen (ts : List Turn) (s : State) : (s.withTurns ts).entLen = s.entLen := rfl
@[simp] theorem State.withTurns_flags (ts : List Turn) (s : State) : (s.withTurns ts).flags = s.flags := rfl
@[simp] theorem State.withTurns_csum (ts : List Turn) (s : State) : (s.withTurns ts).csum = s.csum := rfl
@[simp] theorem State.withTurns_csumSupplied (ts : List Turn) (s : State) : (s.withTurns ts).csumSupplied = s.csumSupplied := rfl
@[simp] theorem State.withTurns_wordCount (ts : List Turn) (s : State) : (s.withTurns ts).wordCount = s.wordCount := rfl
@[simp] theorem State.withTurns_result (ts : List Turn) (s : State) : (s.withTurns ts).result = s.result := rfl
@[simp] theorem State.withTurns_ent (ts : List Turn) (s : State) : (s.withTurns ts).ent = s.ent := rfl
@[simp] theorem State.withTurns_digest (ts : List Turn) (s : State) : (s.withTurns ts).digest = s.digest := rfl
@[simp] theorem State.withTurns_idx (ts : List Turn) (s : State) : (s.withTurns ts).idx = s.idx := rfl
@[simp] theorem State.withTurns_diceState (ts : List Turn) (s : State) : (s.withTurns ts).diceState = s.diceState := rfl
@[simp] theorem State.withTurns_diceCount (ts : List Turn) (s : State) : (s.withTurns ts).diceCount = s.diceCount := rfl
@[simp] theorem State.withTurns_diceOut (ts : List Turn) (s : State) : (s.withTurns ts).diceOut = s.diceOut := rfl
@[simp] theorem State.withTurns_cb (ts : List Turn) (s : State) : (s.withTurns ts).cb = s.cb := rfl
@[simp] theorem State.withTurns_acc (ts : List Turn) (s : State) : (s.withTurns ts).acc = s.acc := rfl
@[simp] theorem State.withTurns_pend (ts : List Turn) (s : State) : (s.withTurns ts).pend = s.pend := rfl
@[simp] theorem State.withTurns_resetPin (ts : List Turn) (s : State) : (s.withTurns ts).resetPin = s.resetPin := rfl
@[simp] theorem State.withTurns_turns (ts : List Turn) (s : State) : (s.withTurns ts).turns = ts := rfl
@[simp] theorem State.withTurns_response (ts : List Turn) (s : State) : (s.withTurns ts).response = s.response := rfl
@[simp] theorem State.withTurns_draws (ts : List Turn) (s : State) : (s.withTurns ts).draws = s.draws := rfl

-- State.answer
@[simp] theorem State.answer_ctrl (v : Option Word) (s : State) : (s.answer v).ctrl = s.ctrl := rfl
@[simp] theorem State.answer_status (v : Option Word) (s : State) : (s.answer v).status = s.status := rfl
@[simp] theorem State.answer_entLen (v : Option Word) (s : State) : (s.answer v).entLen = s.entLen := rfl
@[simp] theorem State.answer_flags (v : Option Word) (s : State) : (s.answer v).flags = s.flags := rfl
@[simp] theorem State.answer_csum (v : Option Word) (s : State) : (s.answer v).csum = s.csum := rfl
@[simp] theorem State.answer_csumSupplied (v : Option Word) (s : State) : (s.answer v).csumSupplied = s.csumSupplied := rfl
@[simp] theorem State.answer_wordCount (v : Option Word) (s : State) : (s.answer v).wordCount = s.wordCount := rfl
@[simp] theorem State.answer_result (v : Option Word) (s : State) : (s.answer v).result = s.result := rfl
@[simp] theorem State.answer_ent (v : Option Word) (s : State) : (s.answer v).ent = s.ent := rfl
@[simp] theorem State.answer_digest (v : Option Word) (s : State) : (s.answer v).digest = s.digest := rfl
@[simp] theorem State.answer_idx (v : Option Word) (s : State) : (s.answer v).idx = s.idx := rfl
@[simp] theorem State.answer_diceState (v : Option Word) (s : State) : (s.answer v).diceState = s.diceState := rfl
@[simp] theorem State.answer_diceCount (v : Option Word) (s : State) : (s.answer v).diceCount = s.diceCount := rfl
@[simp] theorem State.answer_diceOut (v : Option Word) (s : State) : (s.answer v).diceOut = s.diceOut := rfl
@[simp] theorem State.answer_cb (v : Option Word) (s : State) : (s.answer v).cb = s.cb := rfl
@[simp] theorem State.answer_acc (v : Option Word) (s : State) : (s.answer v).acc = s.acc := rfl
@[simp] theorem State.answer_pend (v : Option Word) (s : State) : (s.answer v).pend = s.pend := rfl
@[simp] theorem State.answer_resetPin (v : Option Word) (s : State) : (s.answer v).resetPin = s.resetPin := rfl
@[simp] theorem State.answer_turns (v : Option Word) (s : State) : (s.answer v).turns = s.turns := rfl
@[simp] theorem State.answer_response (v : Option Word) (s : State) : (s.answer v).response = v := rfl
@[simp] theorem State.answer_draws (v : Option Word) (s : State) : (s.answer v).draws = s.draws := rfl

-- State.answerFree
@[simp] theorem State.answerFree_ctrl (s : State) : (s.answerFree).ctrl = s.ctrl := rfl
@[simp] theorem State.answerFree_status (s : State) : (s.answerFree).status = s.status := rfl
@[simp] theorem State.answerFree_entLen (s : State) : (s.answerFree).entLen = s.entLen := rfl
@[simp] theorem State.answerFree_flags (s : State) : (s.answerFree).flags = s.flags := rfl
@[simp] theorem State.answerFree_csum (s : State) : (s.answerFree).csum = s.csum := rfl
@[simp] theorem State.answerFree_csumSupplied (s : State) : (s.answerFree).csumSupplied = s.csumSupplied := rfl
@[simp] theorem State.answerFree_wordCount (s : State) : (s.answerFree).wordCount = s.wordCount := rfl
@[simp] theorem State.answerFree_result (s : State) : (s.answerFree).result = s.result := rfl
@[simp] theorem State.answerFree_ent (s : State) : (s.answerFree).ent = s.ent := rfl
@[simp] theorem State.answerFree_digest (s : State) : (s.answerFree).digest = s.digest := rfl
@[simp] theorem State.answerFree_idx (s : State) : (s.answerFree).idx = s.idx := rfl
@[simp] theorem State.answerFree_diceState (s : State) : (s.answerFree).diceState = s.diceState := rfl
@[simp] theorem State.answerFree_diceCount (s : State) : (s.answerFree).diceCount = s.diceCount := rfl
@[simp] theorem State.answerFree_diceOut (s : State) : (s.answerFree).diceOut = s.diceOut := rfl
@[simp] theorem State.answerFree_cb (s : State) : (s.answerFree).cb = s.cb := rfl
@[simp] theorem State.answerFree_acc (s : State) : (s.answerFree).acc = s.acc := rfl
@[simp] theorem State.answerFree_pend (s : State) : (s.answerFree).pend = s.pend := rfl
@[simp] theorem State.answerFree_resetPin (s : State) : (s.answerFree).resetPin = s.resetPin := rfl
@[simp] theorem State.answerFree_turns (s : State) : (s.answerFree).turns = s.turns := rfl
@[simp] theorem State.answerFree_response (s : State) : (s.answerFree).response = some (Config.busyRead s.draws) := rfl
@[simp] theorem State.answerFree_draws (s : State) : (s.answerFree).draws = s.draws + 1 := rfl

-- State.markOverrun
@[simp] theorem State.markOverrun_ctrl (s : State) : (s.markOverrun).ctrl = s.ctrl := rfl
@[simp] theorem State.markOverrun_status_busy (s : State) : (s.markOverrun).status.busy = s.status.busy := rfl
@[simp] theorem State.markOverrun_status_done (s : State) : (s.markOverrun).status.done = s.status.done := rfl
@[simp] theorem State.markOverrun_status_err (s : State) : (s.markOverrun).status.err = s.status.err := rfl
@[simp] theorem State.markOverrun_status_overrun (s : State) : (s.markOverrun).status.overrun = true := rfl
@[simp] theorem State.markOverrun_status_errCode (s : State) : (s.markOverrun).status.errCode = s.status.errCode := rfl
@[simp] theorem State.markOverrun_entLen (s : State) : (s.markOverrun).entLen = s.entLen := rfl
@[simp] theorem State.markOverrun_flags (s : State) : (s.markOverrun).flags = s.flags := rfl
@[simp] theorem State.markOverrun_csum (s : State) : (s.markOverrun).csum = s.csum := rfl
@[simp] theorem State.markOverrun_csumSupplied (s : State) : (s.markOverrun).csumSupplied = s.csumSupplied := rfl
@[simp] theorem State.markOverrun_wordCount (s : State) : (s.markOverrun).wordCount = s.wordCount := rfl
@[simp] theorem State.markOverrun_result (s : State) : (s.markOverrun).result = s.result := rfl
@[simp] theorem State.markOverrun_ent (s : State) : (s.markOverrun).ent = s.ent := rfl
@[simp] theorem State.markOverrun_digest (s : State) : (s.markOverrun).digest = s.digest := rfl
@[simp] theorem State.markOverrun_idx (s : State) : (s.markOverrun).idx = s.idx := rfl
@[simp] theorem State.markOverrun_diceState (s : State) : (s.markOverrun).diceState = s.diceState := rfl
@[simp] theorem State.markOverrun_diceCount (s : State) : (s.markOverrun).diceCount = s.diceCount := rfl
@[simp] theorem State.markOverrun_diceOut (s : State) : (s.markOverrun).diceOut = s.diceOut := rfl
@[simp] theorem State.markOverrun_cb (s : State) : (s.markOverrun).cb = s.cb := rfl
@[simp] theorem State.markOverrun_acc (s : State) : (s.markOverrun).acc = s.acc := rfl
@[simp] theorem State.markOverrun_pend (s : State) : (s.markOverrun).pend = s.pend := rfl
@[simp] theorem State.markOverrun_resetPin (s : State) : (s.markOverrun).resetPin = s.resetPin := rfl
@[simp] theorem State.markOverrun_turns (s : State) : (s.markOverrun).turns = s.turns := rfl
@[simp] theorem State.markOverrun_response (s : State) : (s.markOverrun).response = s.response := rfl
@[simp] theorem State.markOverrun_draws (s : State) : (s.markOverrun).draws = s.draws := rfl

-- State.withEnable
@[simp] theorem State.withEnable_ctrl (b : Bool) (s : State) : (s.withEnable b).ctrl = ⟨b⟩ := rfl
@[simp] theorem State.withEnable_status (b : Bool) (s : State) : (s.withEnable b).status = s.status := rfl
@[simp] theorem State.withEnable_entLen (b : Bool) (s : State) : (s.withEnable b).entLen = s.entLen := rfl
@[simp] theorem State.withEnable_flags (b : Bool) (s : State) : (s.withEnable b).flags = s.flags := rfl
@[simp] theorem State.withEnable_csum (b : Bool) (s : State) : (s.withEnable b).csum = s.csum := rfl
@[simp] theorem State.withEnable_csumSupplied (b : Bool) (s : State) : (s.withEnable b).csumSupplied = s.csumSupplied := rfl
@[simp] theorem State.withEnable_wordCount (b : Bool) (s : State) : (s.withEnable b).wordCount = s.wordCount := rfl
@[simp] theorem State.withEnable_result (b : Bool) (s : State) : (s.withEnable b).result = s.result := rfl
@[simp] theorem State.withEnable_ent (b : Bool) (s : State) : (s.withEnable b).ent = s.ent := rfl
@[simp] theorem State.withEnable_digest (b : Bool) (s : State) : (s.withEnable b).digest = s.digest := rfl
@[simp] theorem State.withEnable_idx (b : Bool) (s : State) : (s.withEnable b).idx = s.idx := rfl
@[simp] theorem State.withEnable_diceState (b : Bool) (s : State) : (s.withEnable b).diceState = s.diceState := rfl
@[simp] theorem State.withEnable_diceCount (b : Bool) (s : State) : (s.withEnable b).diceCount = s.diceCount := rfl
@[simp] theorem State.withEnable_diceOut (b : Bool) (s : State) : (s.withEnable b).diceOut = s.diceOut := rfl
@[simp] theorem State.withEnable_cb (b : Bool) (s : State) : (s.withEnable b).cb = s.cb := rfl
@[simp] theorem State.withEnable_acc (b : Bool) (s : State) : (s.withEnable b).acc = s.acc := rfl
@[simp] theorem State.withEnable_pend (b : Bool) (s : State) : (s.withEnable b).pend = s.pend := rfl
@[simp] theorem State.withEnable_resetPin (b : Bool) (s : State) : (s.withEnable b).resetPin = s.resetPin := rfl
@[simp] theorem State.withEnable_turns (b : Bool) (s : State) : (s.withEnable b).turns = s.turns := rfl
@[simp] theorem State.withEnable_response (b : Bool) (s : State) : (s.withEnable b).response = s.response := rfl
@[simp] theorem State.withEnable_draws (b : Bool) (s : State) : (s.withEnable b).draws = s.draws := rfl

-- State.withEntLen
@[simp] theorem State.withEntLen_ctrl (v : Word) (s : State) : (s.withEntLen v).ctrl = s.ctrl := rfl
@[simp] theorem State.withEntLen_status (v : Word) (s : State) : (s.withEntLen v).status = s.status := rfl
@[simp] theorem State.withEntLen_entLen (v : Word) (s : State) : (s.withEntLen v).entLen = v.setWidth 16 := rfl
@[simp] theorem State.withEntLen_flags (v : Word) (s : State) : (s.withEntLen v).flags = s.flags := rfl
@[simp] theorem State.withEntLen_csum (v : Word) (s : State) : (s.withEntLen v).csum = s.csum := rfl
@[simp] theorem State.withEntLen_csumSupplied (v : Word) (s : State) : (s.withEntLen v).csumSupplied = s.csumSupplied := rfl
@[simp] theorem State.withEntLen_wordCount (v : Word) (s : State) : (s.withEntLen v).wordCount = s.wordCount := rfl
@[simp] theorem State.withEntLen_result (v : Word) (s : State) : (s.withEntLen v).result = s.result := rfl
@[simp] theorem State.withEntLen_ent (v : Word) (s : State) : (s.withEntLen v).ent = s.ent := rfl
@[simp] theorem State.withEntLen_digest (v : Word) (s : State) : (s.withEntLen v).digest = s.digest := rfl
@[simp] theorem State.withEntLen_idx (v : Word) (s : State) : (s.withEntLen v).idx = s.idx := rfl
@[simp] theorem State.withEntLen_diceState (v : Word) (s : State) : (s.withEntLen v).diceState = s.diceState := rfl
@[simp] theorem State.withEntLen_diceCount (v : Word) (s : State) : (s.withEntLen v).diceCount = s.diceCount := rfl
@[simp] theorem State.withEntLen_diceOut (v : Word) (s : State) : (s.withEntLen v).diceOut = s.diceOut := rfl
@[simp] theorem State.withEntLen_cb (v : Word) (s : State) : (s.withEntLen v).cb = s.cb := rfl
@[simp] theorem State.withEntLen_acc (v : Word) (s : State) : (s.withEntLen v).acc = s.acc := rfl
@[simp] theorem State.withEntLen_pend (v : Word) (s : State) : (s.withEntLen v).pend = s.pend := rfl
@[simp] theorem State.withEntLen_resetPin (v : Word) (s : State) : (s.withEntLen v).resetPin = s.resetPin := rfl
@[simp] theorem State.withEntLen_turns (v : Word) (s : State) : (s.withEntLen v).turns = s.turns := rfl
@[simp] theorem State.withEntLen_response (v : Word) (s : State) : (s.withEntLen v).response = s.response := rfl
@[simp] theorem State.withEntLen_draws (v : Word) (s : State) : (s.withEntLen v).draws = s.draws := rfl

-- State.withWordCount
@[simp] theorem State.withWordCount_ctrl (v : Word) (s : State) : (s.withWordCount v).ctrl = s.ctrl := rfl
@[simp] theorem State.withWordCount_status (v : Word) (s : State) : (s.withWordCount v).status = s.status := rfl
@[simp] theorem State.withWordCount_entLen (v : Word) (s : State) : (s.withWordCount v).entLen = s.entLen := rfl
@[simp] theorem State.withWordCount_flags (v : Word) (s : State) : (s.withWordCount v).flags = s.flags := rfl
@[simp] theorem State.withWordCount_csum (v : Word) (s : State) : (s.withWordCount v).csum = s.csum := rfl
@[simp] theorem State.withWordCount_csumSupplied (v : Word) (s : State) : (s.withWordCount v).csumSupplied = s.csumSupplied := rfl
@[simp] theorem State.withWordCount_wordCount (v : Word) (s : State) : (s.withWordCount v).wordCount = v.setWidth 5 := rfl
@[simp] theorem State.withWordCount_result (v : Word) (s : State) : (s.withWordCount v).result = s.result := rfl
@[simp] theorem State.withWordCount_ent (v : Word) (s : State) : (s.withWordCount v).ent = s.ent := rfl
@[simp] theorem State.withWordCount_digest (v : Word) (s : State) : (s.withWordCount v).digest = s.digest := rfl
@[simp] theorem State.withWordCount_idx (v : Word) (s : State) : (s.withWordCount v).idx = s.idx := rfl
@[simp] theorem State.withWordCount_diceState (v : Word) (s : State) : (s.withWordCount v).diceState = s.diceState := rfl
@[simp] theorem State.withWordCount_diceCount (v : Word) (s : State) : (s.withWordCount v).diceCount = s.diceCount := rfl
@[simp] theorem State.withWordCount_diceOut (v : Word) (s : State) : (s.withWordCount v).diceOut = s.diceOut := rfl
@[simp] theorem State.withWordCount_cb (v : Word) (s : State) : (s.withWordCount v).cb = s.cb := rfl
@[simp] theorem State.withWordCount_acc (v : Word) (s : State) : (s.withWordCount v).acc = s.acc := rfl
@[simp] theorem State.withWordCount_pend (v : Word) (s : State) : (s.withWordCount v).pend = s.pend := rfl
@[simp] theorem State.withWordCount_resetPin (v : Word) (s : State) : (s.withWordCount v).resetPin = s.resetPin := rfl
@[simp] theorem State.withWordCount_turns (v : Word) (s : State) : (s.withWordCount v).turns = s.turns := rfl
@[simp] theorem State.withWordCount_response (v : Word) (s : State) : (s.withWordCount v).response = s.response := rfl
@[simp] theorem State.withWordCount_draws (v : Word) (s : State) : (s.withWordCount v).draws = s.draws := rfl

-- State.withEnt
@[simp] theorem State.withEnt_ctrl (i : Nat) (v : Word) (s : State) : (s.withEnt i v).ctrl = s.ctrl := rfl
@[simp] theorem State.withEnt_status (i : Nat) (v : Word) (s : State) : (s.withEnt i v).status = s.status := rfl
@[simp] theorem State.withEnt_entLen (i : Nat) (v : Word) (s : State) : (s.withEnt i v).entLen = s.entLen := rfl
@[simp] theorem State.withEnt_flags (i : Nat) (v : Word) (s : State) : (s.withEnt i v).flags = s.flags := rfl
@[simp] theorem State.withEnt_csum (i : Nat) (v : Word) (s : State) : (s.withEnt i v).csum = s.csum := rfl
@[simp] theorem State.withEnt_csumSupplied (i : Nat) (v : Word) (s : State) : (s.withEnt i v).csumSupplied = s.csumSupplied := rfl
@[simp] theorem State.withEnt_wordCount (i : Nat) (v : Word) (s : State) : (s.withEnt i v).wordCount = s.wordCount := rfl
@[simp] theorem State.withEnt_result (i : Nat) (v : Word) (s : State) : (s.withEnt i v).result = s.result := rfl
@[simp] theorem State.withEnt_ent (i : Nat) (v : Word) (s : State) : (s.withEnt i v).ent = s.ent.setIfInBounds i v := rfl
@[simp] theorem State.withEnt_digest (i : Nat) (v : Word) (s : State) : (s.withEnt i v).digest = s.digest := rfl
@[simp] theorem State.withEnt_idx (i : Nat) (v : Word) (s : State) : (s.withEnt i v).idx = s.idx := rfl
@[simp] theorem State.withEnt_diceState (i : Nat) (v : Word) (s : State) : (s.withEnt i v).diceState = s.diceState := rfl
@[simp] theorem State.withEnt_diceCount (i : Nat) (v : Word) (s : State) : (s.withEnt i v).diceCount = s.diceCount := rfl
@[simp] theorem State.withEnt_diceOut (i : Nat) (v : Word) (s : State) : (s.withEnt i v).diceOut = s.diceOut := rfl
@[simp] theorem State.withEnt_cb (i : Nat) (v : Word) (s : State) : (s.withEnt i v).cb = s.cb := rfl
@[simp] theorem State.withEnt_acc (i : Nat) (v : Word) (s : State) : (s.withEnt i v).acc = s.acc := rfl
@[simp] theorem State.withEnt_pend (i : Nat) (v : Word) (s : State) : (s.withEnt i v).pend = s.pend := rfl
@[simp] theorem State.withEnt_resetPin (i : Nat) (v : Word) (s : State) : (s.withEnt i v).resetPin = s.resetPin := rfl
@[simp] theorem State.withEnt_turns (i : Nat) (v : Word) (s : State) : (s.withEnt i v).turns = s.turns := rfl
@[simp] theorem State.withEnt_response (i : Nat) (v : Word) (s : State) : (s.withEnt i v).response = s.response := rfl
@[simp] theorem State.withEnt_draws (i : Nat) (v : Word) (s : State) : (s.withEnt i v).draws = s.draws := rfl

-- State.withIdx
@[simp] theorem State.withIdx_ctrl (i : Nat) (v : Word) (s : State) : (s.withIdx i v).ctrl = s.ctrl := rfl
@[simp] theorem State.withIdx_status (i : Nat) (v : Word) (s : State) : (s.withIdx i v).status = s.status := rfl
@[simp] theorem State.withIdx_entLen (i : Nat) (v : Word) (s : State) : (s.withIdx i v).entLen = s.entLen := rfl
@[simp] theorem State.withIdx_flags (i : Nat) (v : Word) (s : State) : (s.withIdx i v).flags = s.flags := rfl
@[simp] theorem State.withIdx_csum (i : Nat) (v : Word) (s : State) : (s.withIdx i v).csum = s.csum := rfl
@[simp] theorem State.withIdx_csumSupplied (i : Nat) (v : Word) (s : State) : (s.withIdx i v).csumSupplied = s.csumSupplied := rfl
@[simp] theorem State.withIdx_wordCount (i : Nat) (v : Word) (s : State) : (s.withIdx i v).wordCount = s.wordCount := rfl
@[simp] theorem State.withIdx_result (i : Nat) (v : Word) (s : State) : (s.withIdx i v).result = s.result := rfl
@[simp] theorem State.withIdx_ent (i : Nat) (v : Word) (s : State) : (s.withIdx i v).ent = s.ent := rfl
@[simp] theorem State.withIdx_digest (i : Nat) (v : Word) (s : State) : (s.withIdx i v).digest = s.digest := rfl
@[simp] theorem State.withIdx_idx (i : Nat) (v : Word) (s : State) : (s.withIdx i v).idx = s.idx.setIfInBounds i (v.setWidth 11) := rfl
@[simp] theorem State.withIdx_diceState (i : Nat) (v : Word) (s : State) : (s.withIdx i v).diceState = s.diceState := rfl
@[simp] theorem State.withIdx_diceCount (i : Nat) (v : Word) (s : State) : (s.withIdx i v).diceCount = s.diceCount := rfl
@[simp] theorem State.withIdx_diceOut (i : Nat) (v : Word) (s : State) : (s.withIdx i v).diceOut = s.diceOut := rfl
@[simp] theorem State.withIdx_cb (i : Nat) (v : Word) (s : State) : (s.withIdx i v).cb = s.cb := rfl
@[simp] theorem State.withIdx_acc (i : Nat) (v : Word) (s : State) : (s.withIdx i v).acc = s.acc := rfl
@[simp] theorem State.withIdx_pend (i : Nat) (v : Word) (s : State) : (s.withIdx i v).pend = s.pend := rfl
@[simp] theorem State.withIdx_resetPin (i : Nat) (v : Word) (s : State) : (s.withIdx i v).resetPin = s.resetPin := rfl
@[simp] theorem State.withIdx_turns (i : Nat) (v : Word) (s : State) : (s.withIdx i v).turns = s.turns := rfl
@[simp] theorem State.withIdx_response (i : Nat) (v : Word) (s : State) : (s.withIdx i v).response = s.response := rfl
@[simp] theorem State.withIdx_draws (i : Nat) (v : Word) (s : State) : (s.withIdx i v).draws = s.draws := rfl

-- State.withPending
@[simp] theorem State.withPending_ctrl (c : Word) (s : State) : (s.withPending c).ctrl = s.ctrl := rfl
@[simp] theorem State.withPending_status_busy (c : Word) (s : State) : (s.withPending c).status.busy = true := rfl
@[simp] theorem State.withPending_status_done (c : Word) (s : State) : (s.withPending c).status.done = s.status.done := rfl
@[simp] theorem State.withPending_status_err (c : Word) (s : State) : (s.withPending c).status.err = s.status.err := rfl
@[simp] theorem State.withPending_status_overrun (c : Word) (s : State) : (s.withPending c).status.overrun = s.status.overrun := rfl
@[simp] theorem State.withPending_status_errCode (c : Word) (s : State) : (s.withPending c).status.errCode = s.status.errCode := rfl
@[simp] theorem State.withPending_entLen (c : Word) (s : State) : (s.withPending c).entLen = s.entLen := rfl
@[simp] theorem State.withPending_flags (c : Word) (s : State) : (s.withPending c).flags = s.flags := rfl
@[simp] theorem State.withPending_csum (c : Word) (s : State) : (s.withPending c).csum = s.csum := rfl
@[simp] theorem State.withPending_csumSupplied (c : Word) (s : State) : (s.withPending c).csumSupplied = s.csumSupplied := rfl
@[simp] theorem State.withPending_wordCount (c : Word) (s : State) : (s.withPending c).wordCount = s.wordCount := rfl
@[simp] theorem State.withPending_result (c : Word) (s : State) : (s.withPending c).result = s.result := rfl
@[simp] theorem State.withPending_ent (c : Word) (s : State) : (s.withPending c).ent = s.ent := rfl
@[simp] theorem State.withPending_digest (c : Word) (s : State) : (s.withPending c).digest = s.digest := rfl
@[simp] theorem State.withPending_idx (c : Word) (s : State) : (s.withPending c).idx = s.idx := rfl
@[simp] theorem State.withPending_diceState (c : Word) (s : State) : (s.withPending c).diceState = s.diceState := rfl
@[simp] theorem State.withPending_diceCount (c : Word) (s : State) : (s.withPending c).diceCount = s.diceCount := rfl
@[simp] theorem State.withPending_diceOut (c : Word) (s : State) : (s.withPending c).diceOut = s.diceOut := rfl
@[simp] theorem State.withPending_cb (c : Word) (s : State) : (s.withPending c).cb = s.cb := rfl
@[simp] theorem State.withPending_acc (c : Word) (s : State) : (s.withPending c).acc = s.acc := rfl
@[simp] theorem State.withPending_pend (c : Word) (s : State) : (s.withPending c).pend = some c := rfl
@[simp] theorem State.withPending_resetPin (c : Word) (s : State) : (s.withPending c).resetPin = false := rfl
@[simp] theorem State.withPending_turns (c : Word) (s : State) : (s.withPending c).turns = .engine :: s.turns := rfl
@[simp] theorem State.withPending_response (c : Word) (s : State) : (s.withPending c).response = s.response := rfl
@[simp] theorem State.withPending_draws (c : Word) (s : State) : (s.withPending c).draws = s.draws := rfl

-- writeStatus
@[simp] theorem writeStatus_ctrl (v : Word) (s : State) : (writeStatus v s).ctrl = s.ctrl := rfl
@[simp] theorem writeStatus_status_busy (v : Word) (s : State) : (writeStatus v s).status.busy = s.status.busy := rfl
@[simp] theorem writeStatus_status_done (v : Word) (s : State) : (writeStatus v s).status.done = (s.status.done && !v.getLsbD 1) := rfl
@[simp] theorem writeStatus_status_err (v : Word) (s : State) : (writeStatus v s).status.err = (s.status.err && !v.getLsbD 2) := rfl
@[simp] theorem writeStatus_status_overrun (v : Word) (s : State) : (writeStatus v s).status.overrun = (s.status.overrun && !v.getLsbD 3) := rfl
@[simp] theorem writeStatus_status_errCode (v : Word) (s : State) : (writeStatus v s).status.errCode = s.status.errCode := rfl
@[simp] theorem writeStatus_entLen (v : Word) (s : State) : (writeStatus v s).entLen = s.entLen := rfl
@[simp] theorem writeStatus_flags (v : Word) (s : State) : (writeStatus v s).flags = s.flags := rfl
@[simp] theorem writeStatus_csum (v : Word) (s : State) : (writeStatus v s).csum = s.csum := rfl
@[simp] theorem writeStatus_csumSupplied (v : Word) (s : State) : (writeStatus v s).csumSupplied = s.csumSupplied := rfl
@[simp] theorem writeStatus_wordCount (v : Word) (s : State) : (writeStatus v s).wordCount = s.wordCount := rfl
@[simp] theorem writeStatus_result (v : Word) (s : State) : (writeStatus v s).result = s.result := rfl
@[simp] theorem writeStatus_ent (v : Word) (s : State) : (writeStatus v s).ent = s.ent := rfl
@[simp] theorem writeStatus_digest (v : Word) (s : State) : (writeStatus v s).digest = s.digest := rfl
@[simp] theorem writeStatus_idx (v : Word) (s : State) : (writeStatus v s).idx = s.idx := rfl
@[simp] theorem writeStatus_diceState (v : Word) (s : State) : (writeStatus v s).diceState = s.diceState := rfl
@[simp] theorem writeStatus_diceCount (v : Word) (s : State) : (writeStatus v s).diceCount = s.diceCount := rfl
@[simp] theorem writeStatus_diceOut (v : Word) (s : State) : (writeStatus v s).diceOut = s.diceOut := rfl
@[simp] theorem writeStatus_cb (v : Word) (s : State) : (writeStatus v s).cb = s.cb := rfl
@[simp] theorem writeStatus_acc (v : Word) (s : State) : (writeStatus v s).acc = s.acc := rfl
@[simp] theorem writeStatus_pend (v : Word) (s : State) : (writeStatus v s).pend = s.pend := rfl
@[simp] theorem writeStatus_resetPin (v : Word) (s : State) : (writeStatus v s).resetPin = s.resetPin := rfl
@[simp] theorem writeStatus_turns (v : Word) (s : State) : (writeStatus v s).turns = s.turns := rfl
@[simp] theorem writeStatus_response (v : Word) (s : State) : (writeStatus v s).response = s.response := rfl
@[simp] theorem writeStatus_draws (v : Word) (s : State) : (writeStatus v s).draws = s.draws := rfl

-- resetPinTurn
@[simp] theorem resetPinTurn_ctrl (b : Bool) (s : State) : (resetPinTurn b s).ctrl = State.reset.ctrl := rfl
@[simp] theorem resetPinTurn_status (b : Bool) (s : State) : (resetPinTurn b s).status = State.reset.status := rfl
@[simp] theorem resetPinTurn_entLen (b : Bool) (s : State) : (resetPinTurn b s).entLen = State.reset.entLen := rfl
@[simp] theorem resetPinTurn_flags (b : Bool) (s : State) : (resetPinTurn b s).flags = State.reset.flags := rfl
@[simp] theorem resetPinTurn_csum (b : Bool) (s : State) : (resetPinTurn b s).csum = State.reset.csum := rfl
@[simp] theorem resetPinTurn_csumSupplied (b : Bool) (s : State) : (resetPinTurn b s).csumSupplied = State.reset.csumSupplied := rfl
@[simp] theorem resetPinTurn_wordCount (b : Bool) (s : State) : (resetPinTurn b s).wordCount = State.reset.wordCount := rfl
@[simp] theorem resetPinTurn_result (b : Bool) (s : State) : (resetPinTurn b s).result = State.reset.result := rfl
@[simp] theorem resetPinTurn_ent (b : Bool) (s : State) : (resetPinTurn b s).ent = State.reset.ent := rfl
@[simp] theorem resetPinTurn_digest (b : Bool) (s : State) : (resetPinTurn b s).digest = State.reset.digest := rfl
@[simp] theorem resetPinTurn_idx (b : Bool) (s : State) : (resetPinTurn b s).idx = State.reset.idx := rfl
@[simp] theorem resetPinTurn_diceState (b : Bool) (s : State) : (resetPinTurn b s).diceState = State.reset.diceState := rfl
@[simp] theorem resetPinTurn_diceCount (b : Bool) (s : State) : (resetPinTurn b s).diceCount = State.reset.diceCount := rfl
@[simp] theorem resetPinTurn_diceOut (b : Bool) (s : State) : (resetPinTurn b s).diceOut = State.reset.diceOut := rfl
@[simp] theorem resetPinTurn_cb (b : Bool) (s : State) : (resetPinTurn b s).cb = State.reset.cb := rfl
@[simp] theorem resetPinTurn_acc (b : Bool) (s : State) : (resetPinTurn b s).acc = State.reset.acc := rfl
@[simp] theorem resetPinTurn_pend (b : Bool) (s : State) : (resetPinTurn b s).pend = State.reset.pend := rfl
@[simp] theorem resetPinTurn_resetPin (b : Bool) (s : State) : (resetPinTurn b s).resetPin = b := rfl
@[simp] theorem resetPinTurn_turns (b : Bool) (s : State) : (resetPinTurn b s).turns = s.turns := rfl
@[simp] theorem resetPinTurn_response (b : Bool) (s : State) : (resetPinTurn b s).response = s.response := rfl
@[simp] theorem resetPinTurn_draws (b : Bool) (s : State) : (resetPinTurn b s).draws = s.draws := rfl

end Sys2Proof.Machine
end

