-- ==== Sys2Proof/Laws/Ops.lean ====
section
/-! SUPPORT. What each shared operation and each meaning can do, said once: later proofs cite these lemmas instead of
unfolding the definitions. -/

namespace Sys2Proof.Machine

/-! ### Completion -/

theorem fail_eq (code : ErrCode) (s : State) : fail code s = .next (s.complete code) := rfl

theorem done_eq (s : State) : done s = .next (s.complete .noError) := rfl

theorem completeIllegal_eq (s : State) : completeIllegal s = .next (s.complete .illegalCommand) := rfl

theorem ErrCode.bits_eq_zero {c : ErrCode} : c.bits = 0 ↔ c = .noError := by cases c <;> decide

/-! ### The meanings: the two or three ways each command completes -/

theorem execNop_eq (s : State) : execNop s = .next (s.complete .noError) := rfl

theorem execChecksum_bad {s : State} (h : badEntropyLength (entropyLength s) = true) :
    execChecksum s = .next (s.complete .invalidArgument) := by simp [execChecksum, h, fail_eq]

theorem execChecksum_good {s : State} (h : badEntropyLength (entropyLength s) = false) :
    execChecksum s = .next ((s.withChecksum (checksum (entropy s))).complete .noError) := by
  simp [execChecksum, h, done_eq]

theorem execEncode_bad {s : State} (h : badEntropyLength (entropyLength s) = true) :
    execEncode s = .next (s.complete .invalidArgument) := by simp [execEncode, h, fail_eq]

/-- ENCODE of an accepted length never takes the index check (R132). -/
theorem execEncode_good {s : State} (h : badEntropyLength (entropyLength s) = false) :
    execEncode s = .next (s.withEncoded.complete .noError) := by
  simp [execEncode, h, group_any_false, done_eq]

theorem execValidate_eq (s : State) : execValidate s = .next (s.withVerdicts.complete .noError) := rfl

theorem execDecode_long {s : State} (h : 24 < s.wordCount.toNat) :
    execDecode s = .next (s.complete .invalidArgument) := by
  simp [execDecode, mnemonicLength, h, fail_eq]

theorem execDecode_odd {s : State} (h : s.wordCount.toNat ≤ 24) (ho : decodedLength s % 8 ≠ 0) :
    execDecode s = .next (s.withDecoded.complete .invalidArgument) := by
  simp [execDecode, mnemonicLength, Nat.not_lt.mpr h, ho, fail_eq]

theorem execDecode_mismatch {s : State} (h : s.wordCount.toNat ≤ 24) (he : decodedLength s % 8 = 0)
    (hm : suppliedChecksum s ≠ (checksum (decodedEntropy s)).2) :
    execDecode s = .next (s.withRechecked.complete .checksumMismatch) := by
  simp [execDecode, mnemonicLength, Nat.not_lt.mpr h, he, checksumMatches, hm, fail_eq]

theorem execDecode_good {s : State} (h : s.wordCount.toNat ≤ 24) (he : decodedLength s % 8 = 0)
    (hm : suppliedChecksum s = (checksum (decodedEntropy s)).2) :
    execDecode s = .next (s.withRecovered.complete .noError) := by
  simp [execDecode, mnemonicLength, Nat.not_lt.mpr h, he, checksumMatches, hm, done_eq]

theorem execSlice_bad {s : State} {pos width : Nat} (h : s.cb.length < pos + width) :
    execSlice pos width s = .next (s.complete .invalidArgument) := by simp [execSlice, h, fail_eq]

theorem execSlice_good {s : State} {pos width : Nat} (h : pos + width ≤ s.cb.length) :
    execSlice pos width s = .next ((s.withField pos width).complete .noError) := by
  simp [execSlice, Nat.not_lt.mpr h, done_eq]

theorem execDiceStart_bad {s : State} {n : Nat} (h : n = 0 ∨ n % 2 ≠ 0 ∨ 256 < n) :
    execDiceStart n s = .next (s.disarmed.complete .invalidArgument) := by
  have : (notPositiveEven n || decide (n > Config.diceMaxBits)) = true := by
    simp [notPositiveEven, Config.diceMaxBits]; omega
  simp only [execDiceStart, this, if_true, fail_eq]

theorem execDiceStart_good {s : State} {n : Nat} (h0 : n ≠ 0) (h2 : n % 2 = 0) (h256 : n ≤ 256) :
    execDiceStart n s = .next ((s.withSession n).complete .noError) := by
  have : (notPositiveEven n || decide (n > Config.diceMaxBits)) = false := by
    simp [notPositiveEven, Config.diceMaxBits, h0, h2, h256]
  simp only [execDiceStart, this, Bool.false_eq_true, if_false, done_eq]

theorem execDiceRoll_unarmed {s : State} {face : Nat} (h : s.diceState.armed = false) :
    execDiceRoll face s = .next (s.complete .sequenceError) := by simp [execDiceRoll, h, fail_eq]

theorem execDiceRoll_invalid {s : State} {face : Nat} (h : s.diceState.armed = true) (hf : classifyFace face = .invalid) :
    execDiceRoll face s = .next (s.countRoll.markBadRoll.complete .invalidArgument) := by
  simp [execDiceRoll, h, hf, fail_eq]

theorem execDiceRoll_discarded {s : State} {face : Nat} (h : s.diceState.armed = true)
    (hf : classifyFace face = .discarded) :
    execDiceRoll face s = .next (s.countRoll.complete .noError) := by
  simp [execDiceRoll, h, hf, done_eq]

theorem execDiceRoll_accepted {s : State} {face d : Nat} (h : s.diceState.armed = true)
    (hf : classifyFace face = .accepted d) :
    execDiceRoll face s = .next ((s.countRoll.acceptDigit d).complete .noError) := by
  simp [execDiceRoll, h, hf, done_eq]

theorem execDiceFinish_unarmed {s : State} (h : s.diceState.armed = false) :
    execDiceFinish s = .next (s.complete .sequenceError) := by simp [execDiceFinish, h, fail_eq]

theorem execDiceFinish_badRoll {s : State} (h : s.diceState.armed = true) (hb : s.diceState.badRoll = true) :
    execDiceFinish s = .next (s.complete .invalidArgument) := by simp [execDiceFinish, h, hb, fail_eq]

theorem execDiceFinish_few {s : State} (h : s.diceState.armed = true) (hb : s.diceState.badRoll = false)
    (hn : s.diceCount.accepted.toNat < minimumRolls s.diceState.target.toNat) :
    execDiceFinish s = .next (s.complete .insufficientEntropy) := by simp [execDiceFinish, h, hb, hn, fail_eq]

theorem execDiceFinish_good {s : State} (h : s.diceState.armed = true) (hb : s.diceState.badRoll = false)
    (hn : minimumRolls s.diceState.target.toNat ≤ s.diceCount.accepted.toNat) :
    execDiceFinish s = .next (s.withOutput.complete .noError) := by
  simp [execDiceFinish, h, hb, Nat.not_lt.mpr hn, done_eq]

theorem execDiceMinRolls_bad {s : State} {n : Nat} (h : n = 0 ∨ n % 2 ≠ 0) :
    execDiceMinRolls n s = .next (s.complete .invalidArgument) := by
  have : notPositiveEven n = true := by simp [notPositiveEven]; omega
  simp [execDiceMinRolls, this, fail_eq]

theorem execDiceMinRolls_good {s : State} {n : Nat} (h0 : n ≠ 0) (h2 : n % 2 = 0) :
    execDiceMinRolls n s = .next ((s.withMinimumRolls n).complete .noError) := by
  simp [execDiceMinRolls, notPositiveEven, h0, h2, done_eq]

/-- Every command completes, with one of the codes that some command produces (R200, R201, R203), and writes no part of
CTRL, of STATUS before the completion, of the reset input or of the model's own fields. -/
theorem exec_completes (i : Instr) (s : State) :
    ∃ code u, exec i s = .next (State.complete code u) ∧ codeProduced code.bits = true ∧
      u.ctrl = s.ctrl ∧ u.status = s.status ∧ u.resetPin = s.resetPin ∧ u.turns = s.turns ∧
      u.response = s.response ∧ u.draws = s.draws := by
  cases i with
  | nop => exact ⟨_, s, rfl, by decide, rfl, rfl, rfl, rfl, rfl, rfl⟩
  | checksum =>
    cases h : badEntropyLength (entropyLength s)
    · exact ⟨_, _, execChecksum_good h, by decide, rfl, rfl, rfl, rfl, rfl, rfl⟩
    · exact ⟨_, _, execChecksum_bad h, by decide, rfl, rfl, rfl, rfl, rfl, rfl⟩
  | validate => exact ⟨_, _, rfl, by decide, rfl, rfl, rfl, rfl, rfl, rfl⟩
  | encode =>
    cases h : badEntropyLength (entropyLength s)
    · exact ⟨_, _, execEncode_good h, by decide, rfl, rfl, rfl, rfl, rfl, rfl⟩
    · exact ⟨_, _, execEncode_bad h, by decide, rfl, rfl, rfl, rfl, rfl, rfl⟩
  | decode =>
    simp only [exec, execDecode]
    split
    · exact ⟨_, _, rfl, by decide, rfl, rfl, rfl, rfl, rfl, rfl⟩
    · split
      · exact ⟨_, _, rfl, by decide, rfl, rfl, rfl, rfl, rfl, rfl⟩
      · split <;> exact ⟨_, _, rfl, by decide, rfl, rfl, rfl, rfl, rfl, rfl⟩
  | slice pos width =>
    simp only [exec, execSlice]
    split <;> exact ⟨_, _, rfl, by decide, rfl, rfl, rfl, rfl, rfl, rfl⟩
  | diceStart n =>
    simp only [exec, execDiceStart]
    split <;> exact ⟨_, _, rfl, by decide, rfl, rfl, rfl, rfl, rfl, rfl⟩
  | diceRoll face =>
    simp only [exec, execDiceRoll]
    split
    · exact ⟨_, _, rfl, by decide, rfl, rfl, rfl, rfl, rfl, rfl⟩
    · split <;> exact ⟨_, _, rfl, by decide, rfl, rfl, rfl, rfl, rfl, rfl⟩
  | diceFinish =>
    simp only [exec, execDiceFinish]
    split
    · exact ⟨_, _, rfl, by decide, rfl, rfl, rfl, rfl, rfl, rfl⟩
    · split
      · exact ⟨_, _, rfl, by decide, rfl, rfl, rfl, rfl, rfl, rfl⟩
      · split <;> exact ⟨_, _, rfl, by decide, rfl, rfl, rfl, rfl, rfl, rfl⟩
  | diceMinRolls n =>
    simp only [exec, execDiceMinRolls]
    split <;> exact ⟨_, _, rfl, by decide, rfl, rfl, rfl, rfl, rfl, rfl⟩

/-- At completion every command word completes, legal or not (R200, R204). -/
theorem completeWord_completes (c : Word) (s : State) :
    ∃ code u, completeWord c s = .next (State.complete code u) ∧ codeProduced code.bits = true ∧
      u.ctrl = s.ctrl ∧ u.status = s.status ∧ u.resetPin = s.resetPin ∧ u.turns = s.turns ∧
      u.response = s.response ∧ u.draws = s.draws := by
  rcases hd : decode c with e | i
  · exact ⟨.illegalCommand, s, by simp [completeWord, hd, completeIllegal_eq], by decide, rfl, rfl, rfl, rfl, rfl, rfl⟩
  · obtain ⟨code, u, h⟩ := exec_completes i s
    exact ⟨code, u, by simpa [completeWord, hd] using h⟩

/-! ### The register map -/

/-- Every register stands at its offset (R22). -/
theorem regAt_offset {r : Reg} (h : r.valid = true) : regAt r.offset = some r := by
  have he : ∀ i < 8, regAt (0x040 + 4 * i) = some (.ent i) := by decide
  have hd : ∀ i < 8, regAt (0x060 + 4 * i) = some (.digest i) := by decide
  have hx : ∀ i < 24, regAt (0x080 + 4 * i) = some (.idx i) := by decide
  have ho : ∀ i < 8, regAt (0x120 + 4 * i) = some (.diceOut i) := by decide
  cases r with
  | ent i => exact he i (by simpa [Reg.valid] using h)
  | digest i => exact hd i (by simpa [Reg.valid] using h)
  | idx i => exact hx i (by simpa [Reg.valid] using h)
  | diceOut i => exact ho i (by simpa [Reg.valid] using h)
  | _ => rfl

/-- An aligned offset holds a register only as the map lists it (R22). -/
theorem offset_of_regAt {off : Nat} {r : Reg} (h : regAt off = some r) (h4 : off % 4 = 0) :
    r.valid = true ∧ r.offset = off := by
  have small : ∀ k < 80, ∀ r ∈ (regAt (4 * k)).toList, r.valid = true ∧ r.offset = 4 * k := by decide +kernel
  by_cases hl : off < 0x140
  · have he : 4 * (off / 4) = off := by omega
    have := small (off / 4) (by omega) r (by rw [he, h]; simp)
    rwa [he] at this
  · have hn : regAt off = none := by
      have pass {c : Prop} [Decidable c] {a b : Option Reg} (hc : ¬ c) : (if c then a else b) = b := if_neg hc
      unfold regAt
      repeat refine (pass (by omega)).trans ?_
      rfl
    rw [hn] at h; cases h

theorem regAt_none {off : Nat} (h : ∀ r : Reg, r.valid = true → r.offset ≠ off) (h4 : off % 4 = 0) :
    regAt off = none := by
  rcases hr : regAt off with _ | r
  · rfl
  · exact absurd (offset_of_regAt hr h4).2 (h r (offset_of_regAt hr h4).1)

theorem offset_lt {r : Reg} (h : r.valid = true) : r.offset < 0x200 := by
  cases r <;> simp [Reg.valid, Reg.offset] at h ⊢
  all_goals omega

theorem offset_aligned (r : Reg) : r.offset % 4 = 0 := by
  cases r <;> simp [Reg.offset, Nat.add_mod]

theorem readAt_offset {r : Reg} (h : r.valid = true) (s : State) : readAt s r.offset = readReg s r := by
  simp [readAt, regAt_offset h]

theorem readAt_unlisted {off : Nat} (h : ∀ r : Reg, r.valid = true → r.offset ≠ off) (h4 : off % 4 = 0) (s : State) :
    readAt s off = 0 := by simp [readAt, regAt_none h h4]

/-! ### Registers read after an operation -/

@[simp] theorem readReg_withTurns (ts : List Turn) (s : State) (r : Reg) : readReg (s.withTurns ts) r = readReg s r := by
  cases r <;> rfl

@[simp] theorem readReg_answer (v : Option Word) (s : State) (r : Reg) : readReg (s.answer v) r = readReg s r := by
  cases r <;> rfl

@[simp] theorem readReg_answerFree (s : State) (r : Reg) : readReg s.answerFree r = readReg s r := by
  cases r <;> rfl

theorem readReg_markOverrun {r : Reg} (h : r ≠ .status) (s : State) : readReg s.markOverrun r = readReg s r := by
  cases r <;> first | rfl | exact absurd rfl h

theorem readReg_complete {r : Reg} (h : r ≠ .status) (code : ErrCode) (s : State) :
    readReg (s.complete code) r = readReg s r := by
  cases r <;> first | rfl | exact absurd rfl h

theorem readReg_issue {r : Reg} (h : r ≠ .status) (v : Word) (s : State) : readReg (s.issue v) r = readReg s r := by
  cases r <;> first | rfl | exact absurd rfl h

theorem readReg_writeStatus {r : Reg} (h : r ≠ .status) (v : Word) (s : State) :
    readReg (writeStatus v s) r = readReg s r := by
  cases r <;> first | rfl | exact absurd rfl h

/-- A register number past the end of its group reads 0. -/
theorem toList_getD_of_le {w n : Nat} (x : Vector (BitVec w) n) {i : Nat} (h : n ≤ i) : x.toList.getD i 0 = 0 := by
  rw [List.getD_eq_default]; simpa using h

/-- In reset every register but `ID` reads 0 (R48). -/
theorem readReg_resetBlock (s : State) (r : Reg) :
    readReg s.resetBlock r = if r = .id then 0x42333945 else 0 := by
  have h8 : ∀ i, (#v[0, 0, 0, 0, 0, 0, 0, 0] : Vector Word 8).toList.getD i 0 = 0 := by
    intro i
    by_cases h : i < 8
    · revert i; decide
    · exact toList_getD_of_le _ (by omega)
  have h24 : ∀ i, (State.reset.idx.toList.getD i 0).setWidth 32 = (0 : Word) := by
    intro i
    by_cases h : i < 24
    · revert i; decide
    · rw [toList_getD_of_le _ (by omega)]; rfl
  cases r with
  | id => rfl
  | ctrl => exact (by decide : State.reset.ctrl.word = 0)
  | status => exact (by decide : State.reset.status.word = 0)
  | cmd => rfl
  | entLen => rfl
  | flags => exact (by decide : State.reset.flags.word = 0)
  | csum => exact (by decide : State.reset.csum.word = 0)
  | csumSupplied => exact (by decide : State.reset.csumSupplied.word = 0)
  | wordCount => rfl
  | cbLen => rfl
  | result => rfl
  | diceState => exact (by decide : State.reset.diceState.word = 0)
  | diceCount => exact (by decide : State.reset.diceCount.word = 0)
  | ent i => exact h8 i
  | digest i => exact h8 i
  | idx i => exact h24 i
  | diceOut i => exact h8 i

/-! ### The host's accesses -/

theorem resetBlock_resetBlock (s : State) : s.resetBlock.resetBlock = s.resetBlock := rfl

/-- A read changes only the answer and the count of draws (R67). -/
theorem hostRead_cases (off : Nat) (s : State) :
    hostRead off s = s.answerFree ∨ hostRead off s = s.answer (some (readAt s off)) := by
  unfold hostRead; split <;> simp

theorem hostRead_readable {off : Nat} {s : State} (h : s.status.busy = false ∨ readableWhileBusy off = true) :
    hostRead off s = s.answer (some (readAt s off)) := by
  rcases h with h | h <;> simp [hostRead, h]

theorem hostRead_busy {off : Nat} {s : State} (h : s.status.busy = true) (ho : readableWhileBusy off = false) :
    hostRead off s = s.answerFree := by
  simp [hostRead, h, ho]

theorem hostWrite_ctrl (v : Word) (s : State) : hostWrite 0x004 v s = writeCtrl v s := rfl

theorem hostWrite_status (v : Word) (s : State) : hostWrite 0x008 v s = writeStatus v s := rfl

theorem hostWrite_busy {off : Nat} {v : Word} {s : State} (h : s.status.busy = true) (h4 : off ≠ 0x004)
    (h8 : off ≠ 0x008) : hostWrite off v s = s.markOverrun := by
  simp [hostWrite, h, h4, h8]

theorem hostWrite_idle {r : Reg} {v : Word} {s : State} (h : s.status.busy = false) (hr : r.valid = true)
    (h4 : r ≠ .ctrl) (h8 : r ≠ .status) : hostWrite r.offset v s = writeReg v s r := by
  have ho : regAt r.offset = some r := regAt_offset hr
  have h4' : r.offset ≠ 0x004 := fun e => h4 (by rw [e] at ho; exact (Option.some.inj ho).symm)
  have h8' : r.offset ≠ 0x008 := fun e => h8 (by rw [e] at ho; exact (Option.some.inj ho).symm)
  simp [hostWrite, h, h4', h8', ho]

/-- The effects a write can have (R65). -/
theorem hostWrite_cases (off : Nat) (v : Word) (s : State) (ha : off % 4 = 0) :
    (off = Reg.ctrl.offset ∧ hostWrite off v s = writeCtrl v s) ∨
    (off = Reg.status.offset ∧ hostWrite off v s = writeStatus v s) ∨
    (s.status.busy = true ∧ hostWrite off v s = s.markOverrun) ∨
    (s.status.busy = false ∧ hostWrite off v s = s) ∨
    (s.status.busy = false ∧ ∃ r : Reg, r.valid = true ∧ off = r.offset ∧ r ≠ .ctrl ∧ r ≠ .status ∧
      hostWrite off v s = writeReg v s r) := by
  by_cases h4 : off = 0x004
  · exact .inl ⟨h4, by rw [h4, hostWrite_ctrl]⟩
  by_cases h8 : off = 0x008
  · exact .inr (.inl ⟨h8, by rw [h8, hostWrite_status]⟩)
  rcases hb : s.status.busy with _ | _
  · rcases hr : regAt off with _ | r
    · exact .inr (.inr (.inr (.inl ⟨rfl, by simp [hostWrite, h4, h8, hb, hr]⟩)))
    · obtain ⟨hv, ho⟩ := offset_of_regAt hr ha
      exact .inr (.inr (.inr (.inr ⟨rfl, r, hv, ho.symm, by rintro rfl; exact h4 ho.symm, by rintro rfl; exact h8 ho.symm,
        by simp [hostWrite, h4, h8, hb, hr]⟩)))
  · exact .inr (.inr (.inl ⟨rfl, hostWrite_busy hb h4 h8⟩))

/-- The effects an aligned 32-bit access can have (R65, R66, R230). -/
theorem accessAt_cases (off : Nat) (kind : AccessKind) (s : State) :
    (s.resetPin = true ∧ ∃ v, accessAt off kind s = s.resetBlock.answer v) ∨
    (s.resetPin = false ∧ kind = .read ∧ accessAt off kind s = hostRead off s) ∨
    (s.resetPin = false ∧ ∃ v, kind = .write v ∧ accessAt off kind s = hostWrite off v (s.answer none)) := by
  rcases hr : s.resetPin with _ | _ <;> cases kind with
  | read =>
    first
    | exact .inr (.inl ⟨rfl, rfl, by simp [accessAt, hr]⟩)
    | exact .inl ⟨rfl, _, by simp only [accessAt, hr, if_true]; exact hostRead_readable (.inl rfl)⟩
  | write v =>
    first
    | exact .inr (.inr ⟨rfl, v, rfl, by simp [accessAt, hr]⟩)
    | exact .inl ⟨rfl, none, by simp only [accessAt, hr, if_true]; rfl⟩

/-- Every access covers a byte (log 5). -/
theorem Access.bytes_pos (a : Access) : 0 < a.bytes := by simp only [Access.bytes]; omega

theorem Access.bytes_word {a : Access} (h : a.width = 32) : a.bytes = 4 := by simp [Access.bytes, h]

/-- An access that touches a byte of the window is not outside it (R60). -/
theorem Access.outside_eq_false {a : Access} (h1 : Config.base < a.addr + a.bytes)
    (h2 : a.addr < Config.base + 0x200) : a.outside = false := by
  simp [Access.outside, Config.windowSize]; omega

/-- An accepted access is never refused: it takes its effect at its offset (R61). -/
theorem hostTurn_accepted {a : Access} {off : Nat} (s : State) (hw : a.width = 32) (ho : off < Config.windowSize)
    (h4 : off % 4 = 0) (ha : a.addr = Config.base + off) : hostTurn a s = .next (accessAt off a.kind s) := by
  have h1 : a.outside = false := by simp [Access.outside, Access.bytes, hw, ha, Config.windowSize] at *; omega
  simp [hostTurn, h1, hw, ha, h4]

/-- What a host turn can do: nothing outside the window, a refusal, or an accepted access (R60, R61). -/
theorem hostTurn_cases (a : Access) (s : State) :
    (a.outside = true ∧ hostTurn a s = .next (s.answer none)) ∨
    (¬ a.Accepted ∧ ∃ r, hostTurn a s = .refused r) ∨
    ∃ off, off < 0x200 ∧ off % 4 = 0 ∧ a = ⟨Config.base + off, 32, a.kind⟩ ∧
      hostTurn a s = .next (accessAt off a.kind s) := by
  rcases ho : a.outside with _ | _
  · by_cases hw : a.width = 32
    · by_cases ha : a.addr < Config.base ∨ (a.addr - Config.base) % 4 ≠ 0
      · refine .inr (.inl ⟨?_, _, by simp only [hostTurn, ho, hw, ha]; rfl⟩)
        rintro ⟨-, off, -, h4, he⟩; omega
      · simp [Access.outside, Access.bytes, Config.windowSize, hw] at ho
        have he : a.addr = Config.base + (a.addr - Config.base) := by omega
        refine .inr (.inr ⟨a.addr - Config.base, by omega, by omega, ?_, hostTurn_accepted s hw
          (by simp [Config.windowSize]; omega) (by omega) he⟩)
        cases a; simp at *; omega
    · exact .inr (.inl ⟨fun h => hw h.1, _, by simp [hostTurn, ho, hw]; rfl⟩)
  · exact .inl ⟨rfl, by simp [hostTurn, ho]⟩

/-! ### The step -/

theorem step_nil {s : State} (h : s.turns = []) : step s = engineTurn s := by simp [step, takeTurn, h]

theorem step_engine {s : State} {rest : List Turn} (h : s.turns = .engine :: rest) :
    step s = engineTurn (s.withTurns rest) := by simp [step, takeTurn, h]

theorem step_host {s : State} {a : Access} {rest : List Turn} (h : s.turns = .host a :: rest) :
    step s = hostTurn a (s.withTurns rest) := by simp [step, takeTurn, h]

theorem step_resetPin {s : State} {b : Bool} {rest : List Turn} (h : s.turns = .resetPin b :: rest) :
    step s = .next (resetPinTurn b (s.withTurns rest)) := by simp [step, takeTurn, h]

/-- An accepted access, as the host writes it down (R61, R87). -/
theorem step_access {s : State} {off : Nat} {kind : AccessKind} {rest : List Turn}
    (h : s.turns = .host ⟨Config.base + off, 32, kind⟩ :: rest) (ho : off < 0x200) (h4 : off % 4 = 0) :
    step s = .next (accessAt off kind (s.withTurns rest)) := by
  rw [step_host h, hostTurn_accepted _ rfl ho h4 rfl]

/-- `W <reg>, <value>` while the reset input is released (R65, R87). -/
theorem step_hostW {s : State} {r : Reg} {v : Word} {rest : List Turn} (hp : s.resetPin = false)
    (hr : r.valid = true) (h : s.turns = hostW r v :: rest) :
    step s = .next (hostWrite r.offset v ((s.withTurns rest).answer none)) := by
  rw [step_access h (offset_lt hr) (offset_aligned r)]
  simp [accessAt, hp]

/-- Whose turn a step is (R11). -/
theorem step_cases (s : State) :
    ((s.turns = [] ∨ ∃ rest, s.turns = .engine :: rest) ∧ step s = engineTurn (s.withTurns s.turns.tail)) ∨
    (∃ a rest, s.turns = .host a :: rest ∧ step s = hostTurn a (s.withTurns rest)) ∨
    ∃ b rest, s.turns = .resetPin b :: rest ∧ step s = .next (resetPinTurn b (s.withTurns rest)) := by
  rcases h : s.turns with _ | ⟨_ | a | b, rest⟩
  · have hs : s.withTurns [] = s := by cases s; cases h; rfl
    exact .inl ⟨.inl rfl, by rw [step_nil h, List.tail_nil, hs]⟩
  · exact .inl ⟨.inr ⟨rest, rfl⟩, step_engine h⟩
  · exact .inr (.inl ⟨a, rest, rfl, step_host h⟩)
  · exact .inr (.inr ⟨b, rest, rfl, step_resetPin h⟩)

@[simp] theorem idle_withTurns (ts : List Turn) (s : State) : Idle (s.withTurns ts) ↔ Idle s := Iff.rfl

@[simp] theorem inFlight_withTurns (c : Word) (ts : List Turn) (s : State) :
    InFlight c (s.withTurns ts) ↔ InFlight c s := Iff.rfl

theorem engineTurn_idle {s : State} (h : Idle s) : engineTurn s = .next s := by simp [engineTurn, h.1, h.2]

theorem engineTurn_inFlight {s : State} {c : Word} (h : InFlight c s) : engineTurn s = completeWord c s := by
  simp [engineTurn, h.1, h.2.1, h.2.2]

theorem engineTurn_resetPin {s : State} (h : s.resetPin = true) : engineTurn s = .next s.resetBlock := by
  simp [engineTurn, h]

/-- What the engine's turn can do (R200, R230). -/
theorem engineTurn_cases (s : State) :
    (s.resetPin = true ∧ engineTurn s = .next s.resetBlock) ∨
    (Idle s ∧ engineTurn s = .next s) ∨
    (s.status.busy = true ∧ s.pend = none ∧ engineTurn s = .fault .emptyLatch) ∨
    ∃ c, InFlight c s ∧ engineTurn s = completeWord c s := by
  rcases hr : s.resetPin with _ | _
  · rcases hb : s.status.busy with _ | _
    · exact .inr (.inl ⟨⟨hb, hr⟩, engineTurn_idle ⟨hb, hr⟩⟩)
    · rcases hp : s.pend with _ | c
      · exact .inr (.inr (.inl ⟨rfl, rfl, by simp [engineTurn, hr, hb, hp]⟩))
      · exact .inr (.inr (.inr ⟨c, ⟨hb, hp, hr⟩, engineTurn_inFlight ⟨hb, hp, hr⟩⟩))
  · exact .inl ⟨rfl, engineTurn_resetPin hr⟩

theorem completeWord_ok {c : Word} {i : Instr} (h : decode c = .ok i) (s : State) : completeWord c s = exec i s := by
  simp [completeWord, h]

theorem completeWord_illegal {c : Word} {e : Illegal} (h : decode c = .error e) (s : State) :
    completeWord c s = .next (s.complete .illegalCommand) := by
  simp [completeWord, h, completeIllegal_eq]

/-- Everything a step can do while the reset input is released: the engine's turn, an edge of the reset input, an access
outside the window or without effect, a read, a write of CTRL or STATUS, a dropped write, or a write of a register. -/
theorem step_released_cases {s t : State} (hp : s.resetPin = false) (h : step s = .next t) :
    ((s.turns = [] ∨ ∃ rest, s.turns = .engine :: rest) ∧ engineTurn (s.withTurns s.turns.tail) = .next t) ∨
    (∃ b rest, s.turns = .resetPin b :: rest ∧ t = resetPinTurn b (s.withTurns rest)) ∨
    ∃ a rest, s.turns = .host a :: rest ∧
      (t = (s.withTurns rest).answer none ∨
       t = (s.withTurns rest).answerFree ∨
       (∃ v, t = (s.withTurns rest).answer (some v)) ∨
       (∃ v, s.turns = hostW .ctrl v :: rest ∧ t = writeCtrl v ((s.withTurns rest).answer none)) ∨
       (∃ v, s.turns = hostW .status v :: rest ∧ t = writeStatus v ((s.withTurns rest).answer none)) ∨
       (s.status.busy = true ∧ t = ((s.withTurns rest).answer none).markOverrun) ∨
       ∃ r v, r.valid = true ∧ r ≠ .ctrl ∧ r ≠ .status ∧ s.status.busy = false ∧ s.turns = hostW r v :: rest ∧
         t = writeReg v ((s.withTurns rest).answer none) r) := by
  rcases step_cases s with ⟨hc, he⟩ | ⟨a, rest, ht, he⟩ | ⟨b, rest, ht, he⟩ <;> rw [he] at h
  · exact .inl ⟨hc, h⟩
  · refine .inr (.inr ⟨a, rest, ht, ?_⟩)
    rcases hostTurn_cases a (s.withTurns rest) with ⟨-, e⟩ | ⟨-, r, e⟩ | ⟨off, -, h4, ha, e⟩ <;> rw [e] at h <;> cases h
    · exact .inl rfl
    · rcases accessAt_cases off a.kind (s.withTurns rest) with ⟨hr, -⟩ | ⟨-, -, e⟩ | ⟨-, v, hk, e⟩
      · exact absurd (hr.symm.trans hp) (by simp)
      · rcases hostRead_cases off (s.withTurns rest) with e' | e' <;> rw [e, e']
        · exact .inr (.inl rfl)
        · exact .inr (.inr (.inl ⟨_, rfl⟩))
      · have hw : ∀ r : Reg, off = r.offset → s.turns = hostW r v :: rest := by
          rintro r rfl; rw [ht, ha, hk]; rfl
        rcases hostWrite_cases off v ((s.withTurns rest).answer none) h4 with
          ⟨ho, e'⟩ | ⟨ho, e'⟩ | ⟨hb, e'⟩ | ⟨-, e'⟩ | ⟨hb, r, hv, ho, h1, h2, e'⟩ <;> rw [e, e']
        · exact .inr (.inr (.inr (.inl ⟨v, hw _ ho, rfl⟩)))
        · exact .inr (.inr (.inr (.inr (.inl ⟨v, hw _ ho, rfl⟩))))
        · exact .inr (.inr (.inr (.inr (.inr (.inl ⟨hb, rfl⟩)))))
        · exact .inl rfl
        · exact .inr (.inr (.inr (.inr (.inr (.inr ⟨r, v, hv, h1, h2, hb, hw _ ho, rfl⟩)))))
  · cases h; exact .inr (.inl ⟨b, rest, ht, rfl⟩)

/-! ### Completions, as the claims say them -/

/-- A command that writes only registers of `written` and then completes (R200). -/
theorem completesWith_complete {code : ErrCode} {written : List Reg} {s u : State} (hc : u.ctrl = s.ctrl)
    (ho : u.status.overrun = s.status.overrun) (hp : u.resetPin = s.resetPin) (ht : u.turns = s.turns)
    (hr : u.response = s.response) (hd : u.draws = s.draws)
    (hf : ∀ r, r ≠ .status → r ∉ written → readReg u r = readReg s r) :
    CompletesWith code written s (u.complete code) :=
  ⟨rfl, by rw [← ho]; rfl, hc, hp, ht, hr, hd, fun r h1 h2 => (readReg_complete h1 code u).trans (hf r h1 h2)⟩

/-- A command that writes nothing and completes. -/
theorem completesWith_self (code : ErrCode) (s : State) : CompletesWith code [] s (s.complete code) :=
  completesWith_complete rfl rfl rfl rfl rfl rfl fun _ _ _ => rfl

theorem keepsHidden_self (code : ErrCode) (s : State) : KeepsHidden s (s.complete code) := ⟨rfl, rfl⟩

@[simp] theorem ent_mem_entRegs (i : Nat) : Reg.ent i ∈ entRegs ↔ i < 8 := by simp [entRegs]

@[simp] theorem digest_mem_digestRegs (i : Nat) : Reg.digest i ∈ digestRegs ↔ i < 8 := by simp [digestRegs]

@[simp] theorem idx_mem_idxRegs (i : Nat) : Reg.idx i ∈ idxRegs ↔ i < 24 := by simp [idxRegs]

@[simp] theorem diceOut_mem_diceOutRegs (i : Nat) : Reg.diceOut i ∈ diceOutRegs ↔ i < 8 := by simp [diceOutRegs]

/-- The checksum registers after hashing a string of whole bytes, up to 256 bits (R108 to R111). -/
theorem checksumOf_complete {raw : BitString} {u : State} (code : ErrCode) (h : raw.length ≤ 256)
    (hd : u.digest = (checksum raw).1) (hs : u.csum = ChecksumReg.ofBits (checksum raw).2) :
    ChecksumOf (bytes raw) raw.length (u.complete code) := by
  have hc := checksum_bits h
  have hl : (str (sha256 (bytes raw)) (raw.length / 32)).length = raw.length / 32 := by simp
  have hv : uint (str (sha256 (bytes raw)) (raw.length / 32)) < 2 ^ 8 :=
    Nat.lt_of_lt_of_le (uint_lt _) (Nat.pow_le_pow_right (by decide) (by rw [hl]; omega))
  refine ⟨hd, ?_, ?_⟩
  · simp only [State.complete_csum, hs, ChecksumReg.ofBits, hc, hl, BitVec.toNat_ofNat]
    omega
  · simp only [State.complete_csum, hs, ChecksumReg.ofBits, hc, BitVec.toNat_ofNat]
    rw [Nat.mod_eq_of_lt hv, ← str_take (n := 32) _ (by omega), uint_take, uint_str_word, str_length]

/-! ### The decoded bits (R137) -/

theorem decodedBits_length {s : State} (h : s.wordCount.toNat ≤ 24) :
    (decodedBits s).length = 11 * s.wordCount.toNat := by
  simp [decodedBits, mnemonicIndices, mnemonicLength, h]

theorem decodedLength_le {s : State} (h : s.wordCount.toNat ≤ 24) : decodedLength s ≤ 256 := by
  simp only [decodedLength, splitPoint, mnemonicLength]; omega

theorem decodedEntropy_length {s : State} (h : s.wordCount.toNat ≤ 24) :
    (decodedEntropy s).length = decodedLength s := by
  rw [decodedEntropy, substr_length (by rw [decodedBits_length h, decodedLength, splitPoint, mnemonicLength]; omega)]
  rfl

theorem suppliedChecksum_length {s : State} (h : s.wordCount.toNat ≤ 24) :
    (suppliedChecksum s).length = 11 * s.wordCount.toNat - decodedLength s := by
  rw [suppliedChecksum, substr_length (by rw [decodedBits_length h, mnemonicLength]), mnemonicLength]

theorem suppliedChecksum_length_le {s : State} (h : s.wordCount.toNat ≤ 24) : (suppliedChecksum s).length ≤ 8 := by
  rw [suppliedChecksum_length h, decodedLength, splitPoint, mnemonicLength]; omega

/-- The supplied checksum differs from the recomputed one in the registers exactly if it does in its bits (R136). -/
theorem withRechecked_csum_eq {s : State} (h : s.wordCount.toNat ≤ 24) :
    s.withRechecked.csum = s.withRechecked.csumSupplied ↔ suppliedChecksum s = (checksum (decodedEntropy s)).2 := by
  have hl : (checksum (decodedEntropy s)).2.length ≤ 8 := by
    have he := decodedEntropy_length h
    have h256 := decodedLength_le h
    rw [checksum_length (by omega)]; omega
  simp only [State.withRechecked_csum, State.withRechecked_csumSupplied,
    ChecksumReg.ofBits_inj hl (suppliedChecksum_length_le h), eq_comm]

/-- ENCODE's combined bits have the entropy's length and a checksum bit for each 32 of it (R110, R135). -/
theorem combinedBits_length {s : State} (h : entropyLength s ≤ 256) :
    (combinedBits s).length = entropyLength s + entropyLength s / 32 := by
  have hel : (entropy s).length = entropyLength s := by simp [entropy]
  rw [combinedBits, List.length_append, checksum_length (by omega), hel]

end Sys2Proof.Machine
end

