-- ==== Sys2Proof/Tests/Slice0.lean ====
section
/-! SUPPORT. Small tests, each one step on a small state, with the expected values of spec/95_test_vectors.md; and for every
obligation with hypotheses a witness that meets them, each clause at a boundary of its range. -/

namespace Sys2Proof.Tests

open Sys2Proof Sys2Proof.Machine Host

/-! ### Small states -/

/-- From reset, with an entropy of `len` bits in ENT. -/
def withEntropy (len : Nat) (ws : List Word) : State :=
  { State.reset with entLen := BitVec.ofNat 16 len, ent := tabulate 8 fun i => ws.getD i 0 }

/-- From reset, with a word count and word indices. -/
def withIndices (w : Nat) (xs : List Nat) : State :=
  { State.reset with wordCount := BitVec.ofNat 5 w, idx := tabulate 24 fun i => BitVec.ofNat 11 (xs.getD i 0) }

/-- From reset, with a die-roll session of `target` bits and `accepted` rolls, all of them accepted. -/
def withDice (target accepted : Nat) (badRoll : Bool) (acc : BitVec 256) : State :=
  { State.reset with
    diceState := ⟨true, badRoll, BitVec.ofNat 9 target⟩
    diceCount := ⟨BitVec.ofNat 16 accepted, BitVec.ofNat 16 accepted⟩
    acc := acc }

/-- From reset, with a command word in flight. -/
def busyWith (c : Word) : State := State.reset.issue c

/-- The next state of an outcome, if it has one. -/
def nextOf : Outcome State Fault Refusal → Option State
  | .next t => some t
  | _ => none

theorem next_of_nextOf {o : Outcome State Fault Refusal} {t : State} (h : nextOf o = some t) : o = .next t := by
  cases o <;> cases h; rfl

/-- The state a command completes in (the state itself where it stops, which none does). -/
def after (i : Instr) (s : State) : State := (nextOf (exec i s)).getD s

theorem exec_after (i : Instr) (s : State) : exec i s = .next (after i s) := by
  obtain ⟨code, u, h, -⟩ := exec_completes i s
  rw [after, h]; rfl

/-- The indices of the mnemonic of 128 zero bits (95 section 2.2). -/
def zeroMnemonic : List Nat := [0, 0, 0, 0, 0, 0, 0, 0, 0, 0, 0, 3]

/-! ### Well-formedness (R81) -/

theorem test_wellFormed_refuses_pos : ¬ WellFormed (.slice 512 1) := by decide

theorem test_wellFormed_refuses_width_zero : ¬ WellFormed (.slice 0 0) := by decide

theorem test_wellFormed_refuses_width_large : ¬ WellFormed (.slice 0 17) := by decide

theorem test_wellFormed_refuses_start : ¬ WellFormed (.diceStart 65536) := by decide

theorem test_wellFormed_refuses_face : ¬ WellFormed (.diceRoll 8) := by decide

theorem test_wellFormed_refuses_minRolls : ¬ WellFormed (.diceMinRolls 65536) := by decide

/-! ### Decoding, words written out bit by bit from the formats of R81 -/

theorem test_decode_nop : decode 0b00000000000000000000000000000000 = .ok .nop := by decide

theorem test_decode_checksum : decode 0b00000000000000000000000000000001 = .ok .checksum := by decide

theorem test_decode_validate : decode 0b00000000000000000000000000000010 = .ok .validate := by decide

theorem test_decode_encode : decode 0b00000000000000000000000000000011 = .ok .encode := by decide

theorem test_decode_decode : decode 0b00000000000000000000000000000100 = .ok .decode := by decide

/-- RSV 00000000000, WM1 1010, POS 001111001, OP 00000101. -/
theorem test_decode_slice : decode 0b00000000000101000111100100000101 = .ok (.slice 121 11) := by decide

/-- RSV 00000000, N 0000000100000000, OP 00010000. -/
theorem test_decode_diceStart : decode 0b00000000000000010000000000010000 = .ok (.diceStart 256) := by decide

/-- RSV 000000000000000000000, FACE 110, OP 00010001. -/
theorem test_decode_diceRoll : decode 0b00000000000000000000011000010001 = .ok (.diceRoll 6) := by decide

theorem test_decode_diceFinish : decode 0b00000000000000000000000000010010 = .ok .diceFinish := by decide

/-- RSV 00000000, N 0000000010000000, OP 00010011. -/
theorem test_decode_diceMinRolls : decode 0b00000000000000001000000000010011 = .ok (.diceMinRolls 128) := by decide

/-- The encoder gives the same words (R87). -/
theorem test_encode : encode (.slice 121 11) = 0x00147905 ∧ encode (.slice 0 16) = 0x001E0005 ∧
    encode (.diceStart 256) = 0x00010010 ∧ encode (.diceRoll 6) = 0x00000611 ∧
    encode .diceFinish = 0x00000012 ∧ encode (.diceMinRolls 128) = 0x00008013 := by decide

/-- The ILLEGAL words of 95 section 4. -/
theorem test_decode_illegal : ([0x00000100, 0x80000001, 0x00000006, 0x0000000F, 0x000000FF, 0x00200005, 0x01000010,
    0x00000811, 0x00000112, 0x00000014, 0x01000013] : List Word).map (fun c => (decode c).toOption) =
    List.replicate 11 none := by decide

/-- The host's entry: eight bits of the table's word are the word of a command whose other bits are 0. -/
theorem test_decodeTableWord : decodeTableWord 32 0x00147905 = some (.slice 121 11) ∧ decodeTableWord 32 0x200005 = none ∧
    decodeTableWord 8 0x12 = some .diceFinish := by decide

/-! ### The commands (95 sections 1 to 3) -/

theorem test_nop : nextOf (exec .nop State.reset) = some { State.reset with status := ⟨false, true, false, false, 0⟩ } := by decide +kernel

/-- 95 section 2.1, 128 zero bits. -/
theorem test_checksum : readReg (after .checksum (withEntropy 128 [])) .csum = 0x00000403 ∧
    readReg (after .checksum (withEntropy 128 [])) (.digest 0) = 0x374708ff := by decide +kernel

/-- 95 section 2.1, length 129. -/
theorem test_checksum_length : readReg (after .checksum (withEntropy 129 [])) .status = 0x00000016 := by decide

/-- 95 section 2.1, length 0: all zeros and all ones at once. -/
theorem test_validate_empty : readReg (after .validate (withEntropy 0 [])) .flags = 0x0000000E := by decide

/-- 95 section 2.1, length 288. -/
theorem test_validate_long : readReg (after .validate (withEntropy 288 [])) .flags = 0x00000013 := by decide

/-- 95 section 2.2, 40 bits: the remainder bits are dropped. -/
theorem test_encode_remainder :
    let t := after .encode (withEntropy 40 [0x12345678, 0x9a000000])
    t.wordCount = 3 ∧ t.idx.toList.take 4 = [145, 1301, 1265, 0] ∧ readReg t .cbLen = 41 := by decide +kernel

/-- 95 section 2.2, length 130. -/
theorem test_encode_length : readReg (after .encode (withEntropy 130 [])) .status = 0x00000016 := by decide

/-- 95 section 2.2, the entropy deadbeef and its three words. -/
theorem test_decode_match :
    let t := after .decode (withIndices 3 [1781, 879, 1502])
    readReg t .flags = 0x00000060 ∧ readReg t (.ent 0) = 0xdeadbeef ∧ readReg t .entLen = 32 := by decide +kernel

/-- 95 section 2.2, the last index 2 in place of 3. -/
theorem test_decode_mismatch :
    let t := after .decode (withIndices 12 [0, 0, 0, 0, 0, 0, 0, 0, 0, 0, 0, 2])
    readReg t .status = 0x00000056 ∧ readReg t .csum = 0x00000403 ∧ readReg t .csumSupplied = 0x00000402 ∧
      readReg t .entLen = 0 := by decide +kernel

/-- 95 section 2.4, after ENCODE of 128 zero bits, whose combined bits are 128 zeros and 0011. -/
theorem test_slice :
    readReg (after (.slice 121 11) { State.reset with cb := List.replicate 130 false ++ [true, true] }) .result = 3 := by
  decide +kernel

/-- 95 section 2.4, SLICE with CB empty. -/
theorem test_slice_past_end : readReg (after (.slice 0 1) State.reset) .status = 0x00000016 := by decide

/-- 95 section 3.2. -/
theorem test_diceStart : readReg (after (.diceStart 256) State.reset) .diceState = 0x01000001 := by decide

/-- 95 section 3.2, DICE_START 4 then DICE_START 5. -/
theorem test_diceStart_closes : readReg (after (.diceStart 5) (withDice 4 0 false 0)) .diceState = 0x00040000 := by decide

/-- 95 section 3.1, target 4 and faces 1, 3: the second digit. -/
theorem test_diceRoll : (after (.diceRoll 3) (withDice 4 1 false 1)).acc = 0xD ∧
    readReg (after (.diceRoll 3) (withDice 4 1 false 1)) .diceCount = 0x00020002 := by decide

/-- Section 6 of 95: the counters saturate (R164). -/
theorem test_diceRoll_saturates : readReg (after (.diceRoll 2) (withDice 4 0xFFFF false 1)) .diceCount = 0xFFFFFFFF := by
  decide

/-- 95 section 5.2, TARGET 6 with ACC 0x32. -/
theorem test_diceFinish : readReg (after .diceFinish (withDice 6 4 false 0x32)) (.diceOut 0) = 0xC8000000 := by
  decide +kernel

/-- 95 section 1.2. -/
theorem test_diceFinish_few : readReg (after .diceFinish (withDice 4 1 false 1)) .status = 0x00000066 := by decide

/-- 95 section 3.2. -/
theorem test_diceMinRolls : readReg (after (.diceMinRolls 65534) State.reset) .result = 0x00007FFF := by decide

theorem test_diceMinRolls_odd : readReg (after (.diceMinRolls 7) State.reset) .status = 0x00000016 := by decide

/-- 95 section 4, word 0x00000006: `IllegalCommand`. -/
theorem test_illegal_word : nextOf (step ((busyWith 6).withTurns [.engine])) =
    some { State.reset with status := ⟨false, true, true, false, 8⟩ } := by decide +kernel

/-- The host's entry runs the word as the next step (log 14). -/
theorem test_withFetchWord : nextOf (step (State.reset.withFetchWord 32 0x00000213)) =
    some { State.reset with status := ⟨false, true, false, false, 0⟩, result := 1 } := by decide +kernel

/-! ### The host's accesses (95 section 5.3 and section 6) -/

/-- D46: bits 31:11 of an index are ignored. -/
theorem test_write_idx : readAt (hostWrite 0x0AC 0x802 State.reset) 0x0AC = 2 := by decide

/-- Section 6 of 95: an unmapped offset reads 0 and ignores writes. -/
theorem test_unmapped : readAt State.reset 0x02C = 0 ∧ hostWrite 0x02C 0xFFFFFFFF State.reset = State.reset := by decide +kernel

/-- A write while BUSY is dropped: STATUS reads 0x00000009. -/
theorem test_write_while_busy : readReg (hostWrite 0x0AC 0 (busyWith 4)) .status = 0x00000009 := by decide

/-- Section 6 of 95: CTRL is written also while BUSY. -/
theorem test_ctrl_while_busy : readReg (hostWrite 0x004 1 (busyWith 4)) .ctrl = 1 := by decide

theorem test_soft_reset : hostWrite 0x004 2 (busyWith 4) = State.reset := by decide +kernel

/-- Section 6 of 95: `irq` is IE and DONE. -/
theorem test_irq : irq (after .nop (hostWrite 0x004 1 State.reset)) = true ∧ irq (after .nop State.reset) = false := by
  decide

/-- `ID` (R21). -/
theorem test_id : readAt State.reset 0x000 = 0x42333945 := by decide

/-! ### Witnesses: the hypotheses of every obligation are met -/

/-- A host turn list of one write. -/
def writing (r : Reg) (v : Word) (s : State) : State := s.withTurns [hostW r v]

theorem witness_DecodeInvertsEncode : WellFormed (.slice 511 16) ∧ WellFormed (.slice 0 1) ∧ WellFormed (.diceStart 65535) ∧
    WellFormed (.diceRoll 7) ∧ WellFormed (.diceMinRolls 0) := by decide

theorem witness_EncodeInvertsDecode : decode 0x001FFF05 = .ok (.slice 511 16) ∧ decode 0x00FFFF13 = .ok (.diceMinRolls 65535) := by
  decide

theorem witness_DecodeFollowsMatchTable : ∃ (c : Word) (j k : Nat) (hj : j < matchTable.length) (hk : k < matchTable.length),
    (matchTable[j]).fits c = true ∧ (matchTable[k]).fits c = true :=
  ⟨0x001FFF05, 5, 5, by decide, by decide, by decide, by decide⟩

/-- An opcode not in the map, and a set reserved bit at each edge of the R format's RSV. -/
theorem witness_IllegalWordsCompleteAsIllegal : IllegalWord 0x00000006 ∧ IllegalWord 0x00000811 ∧ IllegalWord 0x80000011 ∧
    InFlight 0x00000006 (busyWith 6) ∧ (busyWith 6).turns = [] ∧
    InFlight 0x00000006 ((busyWith 6).withTurns [.engine]) ∧ ((busyWith 6).withTurns [.engine]).turns = .engine :: [] ∧
    Idle (writing .cmd 6 State.reset) ∧ (writing .cmd 6 State.reset).turns = hostW .cmd 6 :: [] :=
  ⟨.inl (by decide), .inr ⟨0xFFFFF800, by decide, by decide⟩, .inr ⟨0xFFFFF800, by decide, by decide⟩, ⟨rfl, rfl, rfl⟩,
    rfl, ⟨rfl, rfl, rfl⟩, rfl, ⟨rfl, rfl⟩, rfl⟩

theorem witness_StepRunsDecodedCommand : InFlight 0x00000611 (busyWith 0x611) ∧ decode 0x00000611 = .ok (.diceRoll 6) ∧
    (busyWith 0x611).turns = [] ∧ InFlight 0x00000611 ((busyWith 0x611).withTurns [.engine]) ∧
    ((busyWith 0x611).withTurns [.engine]).turns = .engine :: [] :=
  ⟨⟨rfl, rfl, rfl⟩, by decide, rfl, ⟨rfl, rfl, rfl⟩, rfl⟩

theorem witness_IdleBlockExecutesNothing : Idle State.reset ∧ State.reset.turns = [] ∧
    Idle (State.reset.withTurns [.engine]) ∧ (State.reset.withTurns [.engine]).turns = .engine :: [] :=
  ⟨⟨rfl, rfl⟩, rfl, ⟨rfl, rfl⟩, rfl⟩

theorem witness_CmdWriteIssuesCommand : Idle (writing .cmd 0x611 State.reset) ∧
    (writing .cmd 0x611 State.reset).turns = hostW .cmd 0x611 :: [] := ⟨⟨rfl, rfl⟩, rfl⟩

theorem witness_EveryCommandCompletes : InFlight 0xFF ((busyWith 0xFF).withTurns [.engine]) ∧
    ((busyWith 0xFF).withTurns [.engine]).turns = .engine :: [] := ⟨⟨rfl, rfl, rfl⟩, rfl⟩

theorem witness_NopOnlyCompletes : (0x00000100 : Word).toNat % 256 = 0 ∧ (0x00000100 : Word) ≠ 0 := by decide

/-- Accepted: 0 and 256; rejected: 257, 264 and 12. -/
theorem witness_ChecksumHashesEntropy : LengthAccepted (withEntropy 0 []) ∧ LengthAccepted (withEntropy 256 []) ∧
    ¬ LengthAccepted (withEntropy 257 []) ∧ ¬ LengthAccepted (withEntropy 264 []) ∧ ¬ LengthAccepted (withEntropy 12 []) := by
  unfold LengthAccepted; decide

theorem witness_ValidateClassifiesEntropy :
    entropyLength (withEntropy 129 []) % 32 ≠ 0 ∧
    (entropyLength (withEntropy 96 []) % 32 = 0 ∧ entropyLength (withEntropy 96 []) < 128) ∧
    (entropyLength (withEntropy 288 []) % 32 = 0 ∧ 256 < entropyLength (withEntropy 288 [])) ∧
    (entropyLength (withEntropy 128 []) % 32 = 0 ∧ 128 ≤ entropyLength (withEntropy 128 []) ∧
      entropyLength (withEntropy 256 []) ≤ 256) ∧
    256 < entropyLength (withEntropy 257 []) := by decide

theorem witness_EncodeProducesIndices : LengthAccepted (withEntropy 8 []) ∧ ¬ LengthAccepted (withEntropy 130 []) := by
  unfold LengthAccepted; decide

/-- 25 words; 24 words; a split that is no whole number of bytes; one that is. -/
theorem witness_DecodeRecoversEntropy : 24 < (withIndices 25 []).wordCount.toNat ∧ (withIndices 24 []).wordCount.toNat ≤ 24 ∧
    (32 * (11 * (withIndices 1 [5]).wordCount.toNat) / 33) % 8 ≠ 0 ∧
    (32 * (11 * (withIndices 24 []).wordCount.toNat) / 33) % 8 = 0 := by decide

/-- A supplied checksum that differs, and one that does not. -/
theorem witness_DecodeRecoversEntropy_checksums :
    (after .decode (withIndices 12 [])).csum ≠ (after .decode (withIndices 12 [])).csumSupplied ∧
    (after .decode (withIndices 12 zeroMnemonic)).csum = (after .decode (withIndices 12 zeroMnemonic)).csumSupplied := by
  decide +kernel

theorem witness_DecodableWordCounts : (withIndices 24 []).wordCount.toNat ≤ 24 ∧
    (withIndices 24 []).wordCount.toNat ∈ [0, 3, 6, 9, 12, 15, 18, 21, 24] ∧
    (withIndices 23 []).wordCount.toNat ∉ [0, 3, 6, 9, 12, 15, 18, 21, 24] := by decide

theorem witness_DecodedEntropyExcludesChecksum : ∃ t, exec .decode (withIndices 12 zeroMnemonic) = .next t ∧
    t.status.err = false ∧ t.entLen.toNat ≤ 128 :=
  ⟨_, exec_after _ _, by decide +kernel, by decide +kernel⟩

theorem witness_SliceReadsField : WellFormed (.slice 0 16) ∧ WellFormed (.slice 511 16) ∧
    0 + 16 ≤ (List.replicate 16 false).length ∧ (List.replicate 16 false).length < 511 + 16 := by decide

theorem witness_SliceAfterEncodeReadsIndex : ∃ t, exec .encode (withEntropy 128 []) = .next t ∧ t.status.err = false ∧
    11 < t.wordCount.toNat :=
  ⟨_, exec_after _ _, by decide +kernel, by decide +kernel⟩

/-- Targets 2 and 256 open a session; 0, 1, 255 and 258 do not. -/
theorem witness_DiceStartOpensSession : WellFormed (.diceStart 256) ∧ (2 ≠ 0 ∧ 2 % 2 = 0 ∧ 2 ≤ 256) ∧
    (256 ≠ 0 ∧ 256 % 2 = 0 ∧ 256 ≤ 256) ∧ WellFormed (.diceStart 0) ∧ 255 % 2 ≠ 0 ∧ 256 < 258 := by decide

/-- A session, none; every face class; a digit before and after the first TARGET/2. -/
theorem witness_DiceRollFeedsFace : WellFormed (.diceRoll 0) ∧ WellFormed (.diceRoll 7) ∧ WellFormed (.diceRoll 4) ∧
    WellFormed (.diceRoll 5) ∧ WellFormed (.diceRoll 6) ∧ State.reset.diceState.armed = false ∧
    (withDice 4 1 false 1).diceState.armed = true ∧
    (withDice 4 1 false 1).diceCount.accepted.toNat < (withDice 4 1 false 1).diceState.target.toNat / 2 ∧
    (withDice 4 2 false 1).diceState.target.toNat / 2 ≤ (withDice 4 2 false 1).diceCount.accepted.toNat := by decide

theorem witness_DiceFinishPacksOutput : State.reset.diceState.armed = false ∧
    ((withDice 4 2 true 1).diceState.armed = true ∧ (withDice 4 2 true 1).diceState.badRoll = true) ∧
    ((withDice 4 1 false 1).diceState.badRoll = false ∧
      (withDice 4 1 false 1).diceCount.accepted.toNat < ((withDice 4 1 false 1).diceState.target.toNat + 1) / 2) ∧
    ((withDice 4 2 false 1).diceState.badRoll = false ∧
      ((withDice 4 2 false 1).diceState.target.toNat + 1) / 2 ≤ (withDice 4 2 false 1).diceCount.accepted.toNat) := by
  decide

theorem witness_DiceMinRollsHalves : WellFormed (.diceMinRolls 65534) ∧ (65534 ≠ 0 ∧ 65534 % 2 = 0) ∧
    WellFormed (.diceMinRolls 65535) ∧ 65535 % 2 ≠ 0 ∧ WellFormed (.diceMinRolls 0) := by decide

/-- Both lengths, and a state the second command may start from: the one ENCODE leaves. -/
theorem witness_EncodeDecodeRoundTrip :
    entropyLength (withEntropy 256 []) ∈ [0, 32, 64, 96, 128, 160, 192, 224, 256] ∧ entropyLength (withEntropy 40 []) = 40 ∧
    (LengthAccepted (withEntropy 8 []) ∧
      (entropyLength (withEntropy 8 []) + entropyLength (withEntropy 8 []) / 32) % 11 ≠ 0) ∧
    ∃ t, exec .encode (withEntropy 256 []) = .next t ∧ ∃ t' : State, t'.wordCount = t.wordCount ∧ t'.idx = t.idx :=
  ⟨by decide, by decide, by unfold LengthAccepted; decide, _, exec_after _ _, _, rfl, rfl⟩

/-- The last checksum bit changed, and entropy bit 1 changed (95 section 2.3). -/
theorem witness_ChangedChecksumBitsFail :
    let s := withIndices 12 zeroMnemonic
    let c := withIndices 12 [0, 0, 0, 0, 0, 0, 0, 0, 0, 0, 0, 2]
    let e := withIndices 12 [0x200, 0, 0, 0, 0, 0, 0, 0, 0, 0, 0, 3]
    (∃ t, exec .decode s = .next t ∧ t.status.err = false) ∧
      (c.wordCount = s.wordCount ∧ mnemonicIndices c ≠ mnemonicIndices s ∧ decodedEntropy c = decodedEntropy s) ∧
      (e.wordCount = s.wordCount ∧ mnemonicIndices e ≠ mnemonicIndices s ∧ suppliedChecksum e = suppliedChecksum s) :=
  ⟨⟨_, exec_after _ _, by decide +kernel⟩, by decide +kernel, by decide +kernel⟩

/-- A sequence with a discarded face, one with an invalid face and one too short, each a case of the match. -/
theorem witness_DiceStreamComputesSourceFunction : (4 ≠ 0 ∧ 4 % 2 = 0 ∧ 4 ≤ 256) ∧
    (∀ m, Instr.diceStart m ∉ [.diceRoll 1, .nop, .diceRoll 5, .diceFinish, .diceRoll 3]) ∧
    facesOf [.diceRoll 1, .nop, .diceRoll 5, .diceFinish, .diceRoll 3] = [1, 5, 3] ∧ (∀ f ∈ [1, 5, 3], f < 8) ∧
    rollsToBitstring [1, 5, 3] 4 = .ok [true, true, false, true] ∧
    rollsToBitstring [7, 1] 2 = .error .invalidArgument ∧ rollsToBitstring [1] 4 = .error .insufficientEntropy :=
  ⟨by decide, by simp, by decide, by decide, by decide, by decide, by decide⟩

/-- A pattern with a discarded roll between its accepted ones, one more of them than counts. -/
theorem witness_DiceOutputsAreBijective : (4 ≠ 0 ∧ 4 % 2 = 0 ∧ 4 ≤ 256) ∧ 4 / 2 ≤ [true, false, true, true].count true ∧
    [false, true, true, false].length = 4 ∧ [6, 5, 3, 1].map acceptedFace = [true, false, true, true] ∧
    (∀ f ∈ [6, 5, 3, 1], 1 ≤ f ∧ f ≤ 6) ∧ (acceptedDigits [6, 5, 3, 1]).take (4 / 2) = [0, 3] := by decide

theorem witness_CommandsKeepForeignFlags : Instr.nop ≠ .validate ∧ Instr.nop ≠ .decode ∧ (∀ n, Instr.nop ≠ .diceStart n) ∧
    ∀ f, Instr.nop ≠ .diceRoll f := by simp

/-- Two states that differ past the entropy only. -/
theorem witness_ResultsDependOnlyOnEntropy :
    let s := withEntropy 8 [0xff000000]
    let s' := withEntropy 8 [0xff123456]
    s' ≠ s ∧ s'.entLen = s.entLen ∧ ∀ p < entropyLength s, p < 256 → packedBit s'.ent p = packedBit s.ent p := by
  decide +kernel

theorem witness_SoftResetClearsBlock : (writing .ctrl 0xFFFFFFFF (busyWith 4)).turns = hostW .ctrl 0xFFFFFFFF :: [] ∧
    (0xFFFFFFFF : Word).getLsbD 1 = true := ⟨rfl, by decide⟩

theorem witness_HardwareResetHoldsBlock : ∃ s t : State, s.turns = .resetPin true :: [.engine] ∧ step s = .next t ∧
    t.resetPin = true ∧ ResetHeld t ∧ ∃ u, step t = .next u ∧ u.resetPin = true :=
  ⟨(busyWith 4).withTurns [.resetPin true, .engine], _, rfl, rfl, rfl, fun _ => rfl, _, rfl, rfl⟩

/-- An access and an engine turn, neither of them the reset input's. -/
theorem witness_HardwareResetHoldsBlock_level : ∃ s t : State, s.resetPin = true ∧ step s = .next t ∧
    ∀ b rest, s.turns ≠ .resetPin b :: rest :=
  ⟨{ State.reset with resetPin := true, turns := [.engine] }, _, rfl, rfl, by simp⟩

theorem witness_WriteWhileBusyDropped : InFlight 4 (writing .cmd 0 (busyWith 4)) ∧
    (writing .cmd 0 (busyWith 4)).turns = .host ⟨Config.base + 0x00C, 32, .write 0⟩ :: [] ∧
    0x00C < 0x200 ∧ 0x00C % 4 = 0 ∧ 0x00C ≠ 0x004 ∧ 0x00C ≠ 0x008 :=
  ⟨⟨rfl, rfl, rfl⟩, rfl, by decide⟩

/-- The host clears OVERRUN, and no other agent does. -/
theorem witness_OverrunClearedOnlyByHost : ∃ s t : State, s.resetPin = false ∧ s.status.overrun = true ∧
    step s = .next t ∧ t.status.overrun = false :=
  ⟨writing .status 0xE State.reset.markOverrun, _, rfl, rfl, step_hostW rfl rfl rfl, by
    rw [show Reg.status.offset = 0x008 from rfl, hostWrite_status]; decide⟩

/-- A read while the reset input is asserted. -/
theorem witness_ReadsAnswerAndChangeNothing_reset :
    let s := { State.reset with resetPin := true, turns := [hostR .id] }
    s.resetPin = true ∧ s.turns = .host ⟨Config.base + 0x000, 32, .read⟩ :: [] := ⟨rfl, rfl⟩

/-- An idle read, a read of STATUS while BUSY, another read while BUSY, a register and an unlisted offset. -/
theorem witness_ReadsAnswerAndChangeNothing :
    let s := State.reset.withTurns [hostR .csum]
    let b := (busyWith 4).withTurns [hostR .csum]
    s.resetPin = false ∧ s.turns = .host ⟨Config.base + 0x018, 32, .read⟩ :: [] ∧ s.status.busy = false ∧
      b.resetPin = false ∧ b.turns = .host ⟨Config.base + 0x018, 32, .read⟩ :: [] ∧ b.status.busy = true ∧
      0x018 ∉ [0x000, 0x004, 0x008, 0x00C] ∧ Reg.csum.valid = true ∧ 0x018 = Reg.csum.offset ∧
      ((busyWith 4).withTurns [hostR .status]).turns = .host ⟨Config.base + 0x008, 32, .read⟩ :: [] ∧
      0x008 ∈ [0x000, 0x004, 0x008, 0x00C] :=
  ⟨rfl, rfl, rfl, rfl, rfl, rfl, by decide, rfl, rfl, rfl, by decide⟩

/-- An offset inside the window that no register has. -/
theorem witness_unlisted_offset : (∀ r : Reg, r.valid = true → r.offset ≠ 0x1FC) ∧ 0x1FC < 0x200 ∧ 0x1FC % 4 = 0 := by
  refine ⟨fun r hr he => ?_, by decide⟩
  have h := regAt_offset hr
  have hn : regAt 0x1FC = none := by decide
  rw [he, hn] at h
  cases h

theorem witness_WritesReadBack : Idle (writing (.idx 23) 0x802 State.reset) ∧ (Reg.idx 23).valid = true ∧
    (Reg.idx 23).stores = true ∧ (writing (.idx 23) 0x802 State.reset).turns = hostW (.idx 23) 0x802 :: [] :=
  ⟨⟨rfl, rfl⟩, rfl, rfl, rfl⟩

theorem witness_ReservedSpaceReadsZero : State.reset.status.busy = false ∧ Reg.cbLen.valid = true ∧
    Reg.cbLen.readOnly = true ∧ (List.replicate 264 true).length ≤ 264 ∧ Reg.wordCount.stores = true :=
  ⟨rfl, rfl, rfl, by rw [List.length_replicate], rfl⟩

/-- At the window's last word: an accepted access, a byte access, a misaligned access, one that straddles the window's end;
and at its first, an access of no width. -/
theorem witness_OnlyAlignedWordsAccepted : ∀ w off : Nat, (w = 32 ∧ off = 0x1FC) ∨ (w = 8 ∧ off = 0x1FF) ∨
    (w = 32 ∧ off = 0x1FA) ∨ (w = 32 ∧ off = 0x1FE) ∨ (w = 0 ∧ off = 0) →
    let a : Access := ⟨Config.base + off, w, .read⟩
    (State.reset.withTurns [.host a]).turns = .host a :: [] ∧ Config.base < a.addr + a.bytes ∧
      a.addr < Config.base + 0x200 := by
  intro w off h
  refine ⟨rfl, ?_, ?_⟩ <;> simp only [Access.bytes] <;> omega

theorem witness_OnlyAlignedWordsAccepted_offsets : (Config.base + 0x1FC - Config.base) % 4 = 0 ∧
    (Config.base + 0x1FA - Config.base) % 4 ≠ 0 ∧ (Config.base + 0x1FE - Config.base) % 4 ≠ 0 := by omega

/-- A 4-bit access at BASE touches the window and is refused (log 5). -/
theorem test_narrow_access_refused :
    step (State.reset.withTurns [.host ⟨Config.base, 4, .read⟩]) = .refused .accessWidth := by
  have h : Access.outside ⟨Config.base, 4, .read⟩ = false := by simp [Access.outside, Access.bytes, Config.windowSize]
  rw [step_host rfl]
  simp [hostTurn, h]

/-- A reset turn at the low level resets too (log 9). -/
theorem test_resetPin_same_level : (resetPinTurn false (busyWith 4)).status.busy = false := rfl

/-- One word past the window. -/
theorem witness_OutsideWindowIsNotTheBlocks :
    let s := State.reset.withTurns [.host ⟨Config.base + 0x200, 32, .read⟩]
    s.turns = .host ⟨Config.base + 0x200, 32, .read⟩ :: [] ∧ Config.base + 0x200 ≤ Config.base + 0x200 :=
  ⟨rfl, Nat.le_refl _⟩

theorem witness_StatusWriteOneClears : (writing .status 0xF (busyWith 4)).resetPin = false ∧
    (writing .status 0xF (busyWith 4)).turns = hostW .status 0xF :: [] := ⟨rfl, rfl⟩

theorem witness_CtrlWriteSetsEnable : (writing .ctrl 0xFFFFFFFD (busyWith 4)).resetPin = false ∧
    (writing .ctrl 0xFFFFFFFD (busyWith 4)).turns = hostW .ctrl 0xFFFFFFFD :: [] ∧ (0xFFFFFFFD : Word).getLsbD 1 = false :=
  ⟨rfl, rfl, by decide⟩

/-- A rise by a completion with IE set. -/
theorem witness_InterruptFollowsDoneAndEnable : ∃ s t : State, InFlight 0 s ∧ s.turns = .engine :: [] ∧
    step s = .next t ∧ irq s = false ∧ irq t = true :=
  ⟨((busyWith 0).withEnable true).withTurns [.engine], _, ⟨rfl, rfl, rfl⟩, rfl,
    next_of_nextOf (t := ((State.reset.withEnable true).complete .noError)) (by decide +kernel), by decide, by decide⟩

/-- A rise by the host's setting of IE. -/
theorem witness_InterruptFollowsDoneAndEnable_host : ∃ s t : State, step s = .next t ∧ irq s = false ∧ irq t = true :=
  ⟨writing .ctrl 1 (State.reset.complete .noError), _, step_hostW rfl rfl rfl, by decide, by
    rw [show Reg.ctrl.offset = 0x004 from rfl, hostWrite_ctrl]; decide⟩

/-- Each event that lowers it. -/
theorem witness_InterruptFollowsDoneAndEnable_falls : State.reset.resetPin = false ∧
    LowersIrq (writing .status 2 State.reset) ∧ LowersIrq (writing .ctrl 0 State.reset) ∧
    LowersIrq (writing .ctrl 3 State.reset) ∧ LowersIrq (writing .cmd 0 State.reset) ∧
    LowersIrq (State.reset.withTurns [.resetPin true]) :=
  ⟨rfl, ⟨[], .inr ⟨2, .inl ⟨rfl, by decide⟩⟩⟩, ⟨[], .inr ⟨0, .inr (.inl ⟨rfl, .inl (by decide)⟩)⟩⟩,
    ⟨[], .inr ⟨3, .inr (.inl ⟨rfl, .inr (by decide)⟩)⟩⟩, ⟨[], .inr ⟨0, .inr (.inr ⟨rfl, rfl⟩)⟩⟩, ⟨[], .inl ⟨true, rfl⟩⟩⟩

/-- A fall, by the host's clearing of IE. -/
theorem witness_InterruptFollowsDoneAndEnable_fall : ∃ s t : State, ResetHeld s ∧ step s = .next t ∧ irq s = true ∧
    irq t = false :=
  ⟨writing .ctrl 0 ((State.reset.withEnable true).complete .noError), _, fun h => (by cases h), step_hostW rfl rfl rfl,
    by decide, by rw [show Reg.ctrl.offset = 0x004 from rfl, hostWrite_ctrl]; decide⟩

/-- DICE_START after a bad roll clears BADROLL. -/
theorem witness_BadRollIsSticky : ∃ s t : State, s.resetPin = false ∧ s.diceState.badRoll = true ∧ step s = .next t ∧
    t.diceState.badRoll = false :=
  ⟨(withDice 4 1 true 0).issue 0x00000210, ((withDice 4 1 true 0).withSession 2).complete .noError, rfl, rfl,
    next_of_nextOf (by decide +kernel), rfl⟩

theorem witness_EntropyWrittenOnlyByHostAndDecode : ∃ s t : State, s.resetPin = false ∧ step s = .next t ∧ t.ent ≠ s.ent :=
  ⟨writing (.ent 7) 1 State.reset, _, rfl, step_hostW rfl rfl rfl, by
    rw [hostWrite_idle rfl rfl (by decide) (by decide)]; decide⟩

/-- A CTRL write, a STATUS read and a dropped write before the engine's turn. -/
theorem witness_ScheduleNeverChangesResult :
    let accesses : List Access := [⟨Config.base + 0x004, 32, .write 1⟩, ⟨Config.base + 0x008, 32, .read⟩,
      ⟨Config.base + 0x0AC, 32, .write 0⟩]
    InFlight 4 (busyWith 4) ∧ ∀ a ∈ accesses, a.Accepted ∧ ¬ a.SoftReset := by
  refine ⟨⟨rfl, rfl, rfl⟩, ?_⟩
  intro a ha
  simp only [List.mem_cons, List.not_mem_nil, or_false] at ha
  rcases ha with rfl | rfl | rfl
  · refine ⟨⟨rfl, 0x004, by decide, by decide, rfl⟩, ?_⟩
    rintro ⟨-, v, hv, h1⟩
    cases hv
    exact absurd h1 (by decide)
  · refine ⟨⟨rfl, 0x008, by decide, by decide, rfl⟩, ?_⟩
    rintro ⟨-, v, hv, -⟩
    cases hv
  · refine ⟨⟨rfl, 0x0AC, by decide, by decide, rfl⟩, ?_⟩
    rintro ⟨ha, -⟩
    simp at ha

/-- A command in flight with a poll before and a write after the engine's turn, and no reset. -/
theorem witness_CommandCompletesEventually_completes :
    let s := (busyWith 4).withTurns [hostR .status, .engine, hostW .status 0xE]
    InFlight 4 s ∧ (∀ a, Turn.host a ∈ s.turns → a.Accepted ∧ ¬ a.SoftReset) ∧ ∀ b, Turn.resetPin b ∉ s.turns := by
  refine ⟨⟨rfl, rfl, rfl⟩, fun a ha => ?_, by simp [hostR, hostW]⟩
  simp only [State.withTurns_turns, List.mem_cons, List.not_mem_nil, or_false, reduceCtorEq, hostR, hostW,
    Turn.host.injEq, false_or] at ha
  rcases ha with rfl | rfl <;> exact ⟨⟨rfl, 0x008, by decide, by decide, rfl⟩, by simp [Access.SoftReset, Reg.offset]⟩

/-- With resets scheduled too. -/
theorem witness_CommandCompletesEventually :
    let s := (busyWith 4).withTurns [hostR .status, .engine, .resetPin false]
    LatchAgrees s ∧ ∀ a, Turn.host a ∈ s.turns → a.Accepted := by
  refine ⟨rfl, fun a ha => ?_⟩
  simp only [State.withTurns_turns, List.mem_cons, List.not_mem_nil, or_false, reduceCtorEq, hostR, Turn.host.injEq] at ha
  subst ha
  exact ⟨rfl, 0x008, by decide, by decide, rfl⟩

theorem witness_IssueAndWaitRunsCommand :
    let s := State.reset.withTurns (commandAndWait (.diceStart 256) 2 ++ [.engine])
    Idle s ∧ WellFormed (.diceStart 256) ∧ s.turns = commandAndWait (.diceStart 256) 2 ++ [.engine] :=
  ⟨⟨rfl, rfl⟩, by decide, rfl⟩

/-- A state with a command in flight meets the invariants, and takes a step. -/
theorem witness_invariants : ∃ s t : State, LatchAgrees s ∧ StatusSound s ∧ BuffersFit s ∧ SessionSound s ∧ ResetHeld s ∧
    step s = .next t ∧ s.status.busy = true := by
  have out : ∀ p, packedBit State.reset.diceOut p = false := by
    intro p
    have h : ∀ i, State.reset.diceOut.toList.getD i 0 = 0 := by
      intro i
      by_cases hi : i < 8
      · revert i; decide
      · exact toList_getD_of_le _ (by omega)
    rw [packedBit, h]
    simp
  refine ⟨(withDice 256 0 false 0).issue 0x00000611, ((withDice 256 0 false 0).countRoll.acceptDigit 0).complete .noError,
    rfl, ⟨rfl, fun _ => ⟨rfl, rfl, rfl⟩, by simp⟩, ⟨by decide, by simp [ChecksumReg.Fits, withDice],
      by simp [ChecksumReg.Fits, withDice], by simp [withDice]⟩, ⟨by decide, by decide, by decide, fun p _ => out p⟩, by simp [ResetHeld, withDice],
    next_of_nextOf (by decide +kernel), rfl⟩

theorem witness_NoScheduleFaults : LatchAgrees (busyWith 4) ∧ LatchAgrees State.reset := ⟨rfl, rfl⟩

/-- Messages of 0 and 32 bytes, the longest, whose byte count makes the bit count 256. -/
theorem witness_PaddingIsOneBlock : ([] : List Byte).length ≤ 32 ∧ (List.replicate 32 (0xFF : Byte)).length ≤ 32 := by decide

/-- The last schedule word, and the last register of a full message. -/
theorem witness_ScheduleFollowsRecurrence : (16 ≤ 63 ∧ 63 < 64) ∧ (8 ≤ 8 ∧ 7 < 8) := by decide

/-- An idle read of the last DICE_OUT register, and CB at its bound. -/
theorem witness_RegistersReadTheirFields :
    let s := { State.reset with cb := List.replicate 264 true, turns := [hostR (.diceOut 7)] }
    Idle s ∧ (Reg.diceOut 7).valid = true ∧ s.turns = hostR (.diceOut 7) :: [] ∧ s.cb.length ≤ 264 :=
  ⟨⟨rfl, rfl⟩, rfl, rfl, by rw [List.length_replicate]⟩

theorem witness_BytesOfPackedRegisters : 256 ≤ 256 ∧ 256 % 8 = 0 ∧ 255 < 256 ∧ 31 < 256 / 8 := by decide

end Sys2Proof.Tests
end

section
/-! PROOFS of the state's family (10_state.md). First what a command can write, as one relation; then what a step can do, as
one rule for the properties that every step keeps; then the statements. -/

namespace Sys2Proof.Machine

/-! ### What a command writes before it completes -/

/-- `Effect s i code u`: the command `i`, executed in `s`, has turned it into `u` when it ends with `code`. One constructor
for ending before any write, and one for each set of writes a rule makes, with the checks that precede it. -/
inductive Effect (s : State) : Instr → ErrCode → State → Prop
  | nothing (i : Instr) (code : ErrCode) : Effect s i code s
  | checksum (hl : LengthAccepted s) : Effect s .checksum .noError (s.withChecksum (Machine.checksum (entropy s)))
  | validate : Effect s .validate .noError s.withVerdicts
  | encode (hl : LengthAccepted s) : Effect s .encode .noError s.withEncoded
  | decodeSplit (hw : s.wordCount.toNat ≤ 24) : Effect s .decode .invalidArgument s.withDecoded
  | decodeMismatch (hw : s.wordCount.toNat ≤ 24) : Effect s .decode .checksumMismatch s.withRechecked
  | decodeMatch (hw : s.wordCount.toNat ≤ 24) : Effect s .decode .noError s.withRecovered
  | slice (pos width : Nat) : Effect s (.slice pos width) .noError (s.withField pos width)
  | diceClose (n : Nat) : Effect s (.diceStart n) .invalidArgument s.disarmed
  | diceOpen (n : Nat) (h0 : n ≠ 0) (h2 : n % 2 = 0) (h256 : n ≤ 256) :
      Effect s (.diceStart n) .noError (s.withSession n)
  | rollInvalid (face : Nat) : Effect s (.diceRoll face) .invalidArgument s.countRoll.markBadRoll
  | rollDiscarded (face : Nat) : Effect s (.diceRoll face) .noError s.countRoll
  | rollAccepted (face d : Nat) (hd : d < 4) : Effect s (.diceRoll face) .noError (s.countRoll.acceptDigit d)
  | diceFinish : Effect s .diceFinish .noError s.withOutput
  | diceMinRolls (n : Nat) : Effect s (.diceMinRolls n) .noError (s.withMinimumRolls n)

theorem badEntropyLength_eq_false {s : State} : badEntropyLength (entropyLength s) = false ↔ LengthAccepted s := by
  simp [badEntropyLength, LengthAccepted]

/-- The digits of the accepted faces are base-4 digits (R160). -/
theorem classifyFace_digit_lt {face d : Nat} (h : classifyFace face = .accepted d) : d < 4 := by
  unfold classifyFace at h
  split at h
  · cases h; omega
  · split at h
    · cases h; omega
    · split at h <;> cases h

/-- Every command completes, having made the writes of one of its ways to end (R200, R204). -/
theorem exec_effect (i : Instr) (s : State) : ∃ code u, exec i s = .next (State.complete code u) ∧ Effect s i code u := by
  cases i with
  | nop => exact ⟨_, _, rfl, .nothing _ _⟩
  | checksum =>
    cases h : badEntropyLength (entropyLength s)
    · exact ⟨_, _, execChecksum_good h, .checksum (badEntropyLength_eq_false.mp h)⟩
    · exact ⟨_, _, execChecksum_bad h, .nothing _ _⟩
  | validate => exact ⟨_, _, rfl, .validate⟩
  | encode =>
    cases h : badEntropyLength (entropyLength s)
    · exact ⟨_, _, execEncode_good h, .encode (badEntropyLength_eq_false.mp h)⟩
    · exact ⟨_, _, execEncode_bad h, .nothing _ _⟩
  | decode =>
    by_cases hw : s.wordCount.toNat ≤ 24
    · by_cases he : decodedLength s % 8 = 0
      · by_cases hm : suppliedChecksum s = (checksum (decodedEntropy s)).2
        · exact ⟨_, _, execDecode_good hw he hm, .decodeMatch hw⟩
        · exact ⟨_, _, execDecode_mismatch hw he hm, .decodeMismatch hw⟩
      · exact ⟨_, _, execDecode_odd hw he, .decodeSplit hw⟩
    · exact ⟨_, _, execDecode_long (Nat.not_le.mp hw), .nothing _ _⟩
  | slice pos width =>
    by_cases h : pos + width ≤ s.cb.length
    · exact ⟨_, _, execSlice_good h, .slice _ _⟩
    · exact ⟨_, _, execSlice_bad (Nat.not_le.mp h), .nothing _ _⟩
  | diceStart n =>
    by_cases h : n = 0 ∨ n % 2 ≠ 0 ∨ 256 < n
    · exact ⟨_, _, execDiceStart_bad h, .diceClose _⟩
    · have h0 : n ≠ 0 := by omega
      have h2 : n % 2 = 0 := by omega
      have h256 : n ≤ 256 := by omega
      exact ⟨_, _, execDiceStart_good h0 h2 h256, .diceOpen n h0 h2 h256⟩
  | diceRoll face =>
    cases ha : s.diceState.armed with
    | false => exact ⟨_, _, execDiceRoll_unarmed ha, .nothing _ _⟩
    | true =>
      cases hf : classifyFace face with
      | accepted d => exact ⟨_, _, execDiceRoll_accepted ha hf, .rollAccepted _ d (classifyFace_digit_lt hf)⟩
      | discarded => exact ⟨_, _, execDiceRoll_discarded ha hf, .rollDiscarded _⟩
      | invalid => exact ⟨_, _, execDiceRoll_invalid ha hf, .rollInvalid _⟩
  | diceFinish =>
    cases ha : s.diceState.armed with
    | false => exact ⟨_, _, execDiceFinish_unarmed ha, .nothing _ _⟩
    | true =>
      cases hb : s.diceState.badRoll with
      | true => exact ⟨_, _, execDiceFinish_badRoll ha hb, .nothing _ _⟩
      | false =>
        by_cases hn : minimumRolls s.diceState.target.toNat ≤ s.diceCount.accepted.toNat
        · exact ⟨_, _, execDiceFinish_good ha hb hn, .diceFinish⟩
        · exact ⟨_, _, execDiceFinish_few ha hb (Nat.not_le.mp hn), .nothing _ _⟩
  | diceMinRolls n =>
    by_cases h : n = 0 ∨ n % 2 ≠ 0
    · exact ⟨_, _, execDiceMinRolls_bad h, .nothing _ _⟩
    · have h0 : n ≠ 0 := by omega
      have h2 : n % 2 = 0 := by omega
      exact ⟨_, _, execDiceMinRolls_good h0 h2, .diceMinRolls _⟩

/-- At completion an illegal word reports its code and writes nothing else; a command has its effect (R200, R204). -/
theorem completeWord_effect {c : Word} {s t : State} (h : completeWord c s = .next t) :
    t = s.complete .illegalCommand ∨ ∃ i code u, decode c = .ok i ∧ Effect s i code u ∧ t = u.complete code := by
  cases hd : decode c with
  | error e =>
    rw [completeWord_illegal hd] at h
    cases h; exact .inl rfl
  | ok i =>
    obtain ⟨code, u, he, hu⟩ := exec_effect i s
    rw [completeWord_ok hd, he] at h
    cases h; exact .inr ⟨i, code, u, rfl, hu, rfl⟩

section
variable {s u : State} {i : Instr} {code : ErrCode}

/-- STATUS is written by the completion only (R200). -/
theorem Effect.status_eq (h : Effect s i code u) : u.status = s.status := by cases h <;> rfl

/-- The verdict and the weak flags are VALIDATE's (R27). -/
theorem Effect.verdicts_eq (h : Effect s i code u) (hi : i ≠ .validate) :
    u.flags.lenv = s.flags.lenv ∧ u.flags.weakZero = s.flags.weakZero ∧ u.flags.weakOnes = s.flags.weakOnes ∧
      u.flags.weakNa = s.flags.weakNa := by
  cases h with
  | validate => exact absurd rfl hi
  | _ => exact ⟨rfl, rfl, rfl, rfl⟩

/-- MATCH and ATYPICAL are DECODE's (R27). -/
theorem Effect.matched_atypical_eq (h : Effect s i code u) (hi : i ≠ .decode) :
    u.flags.matched = s.flags.matched ∧ u.flags.atypical = s.flags.atypical := by
  cases h with
  | decodeSplit | decodeMismatch | decodeMatch => exact absurd rfl hi
  | _ => exact ⟨rfl, rfl⟩

/-- ARMED and TARGET are DICE_START's (R36). -/
theorem Effect.armed_target_eq (h : Effect s i code u) (hi : ∀ n, i ≠ .diceStart n) :
    u.diceState.armed = s.diceState.armed ∧ u.diceState.target = s.diceState.target := by
  cases h with
  | diceClose | diceOpen => exact absurd rfl (hi _)
  | _ => exact ⟨rfl, rfl⟩

/-- Only DICE_START and DICE_ROLL write the session (R36, R37, R45). -/
theorem Effect.session_eq (h : Effect s i code u) (hi : ∀ n, i ≠ .diceStart n) (hr : ∀ f, i ≠ .diceRoll f) :
    u.diceState = s.diceState ∧ u.diceCount = s.diceCount ∧ u.acc = s.acc := by
  cases h with
  | diceClose | diceOpen => exact absurd rfl (hi _)
  | rollInvalid | rollDiscarded | rollAccepted => exact absurd rfl (hr _)
  | _ => exact ⟨rfl, rfl, rfl⟩

/-- Only a DECODE that finds its checksum writes the entropy (R137). -/
theorem Effect.ent_changed (h : Effect s i code u) (hne : u.ent ≠ s.ent) :
    i = .decode ∧ code = .noError ∧ u.flags.matched = true := by
  cases h with
  | decodeMatch => exact ⟨rfl, rfl, rfl⟩
  | _ => exact absurd rfl hne

end

/-! ### What every step keeps -/

/-- `P` survives each thing a step can do: the model's own records, a reset, the host's writes while the reset input is
released, and a completion (R65, R200, R230). -/
structure StepInvariant (P : State → Prop) : Prop where
  withTurns : ∀ (s : State) ts, P s → P (s.withTurns ts)
  answer : ∀ (s : State) v, P s → P (s.answer v)
  answerFree : ∀ s : State, P s → P s.answerFree
  resetBlock : ∀ s : State, P s.resetBlock
  resetPinTurn : ∀ b s, P (resetPinTurn b s)
  withEnable : ∀ (s : State) b, s.resetPin = false → P s → P (s.withEnable b)
  writeStatus : ∀ s v, s.resetPin = false → P s → P (writeStatus v s)
  markOverrun : ∀ s : State, s.resetPin = false → P s → P s.markOverrun
  writeReg : ∀ s v r, Idle s → P s → P (writeReg v s r)
  completeWord : ∀ s t c, InFlight c s → P s → completeWord c s = .next t → P t

namespace StepInvariant
variable {P : State → Prop} {s t : State}

theorem engineTurn (hP : StepInvariant P) (hs : P s) (h : Machine.engineTurn s = .next t) : P t := by
  rcases engineTurn_cases s with ⟨-, e⟩ | ⟨-, e⟩ | ⟨-, -, e⟩ | ⟨c, hc, e⟩ <;> rw [e] at h
  · cases h; exact hP.resetBlock s
  · cases h; exact hs
  · cases h
  · exact hP.completeWord s t c hc hs h

theorem hostRead (hP : StepInvariant P) (hs : P s) (off : Nat) : P (hostRead off s) := by
  rcases hostRead_cases off s with e | e <;> rw [e]
  · exact hP.answerFree s hs
  · exact hP.answer s _ hs

theorem hostWrite (hP : StepInvariant P) (hs : P s) (hp : s.resetPin = false) {off : Nat} (h4 : off % 4 = 0) (v : Word) :
    P (hostWrite off v s) := by
  rcases hostWrite_cases off v s h4 with ⟨-, e⟩ | ⟨-, e⟩ | ⟨-, e⟩ | ⟨-, e⟩ | ⟨hb, r, -, -, -, -, e⟩ <;> rw [e]
  · unfold writeCtrl
    split
    · exact hP.resetBlock s
    · exact hP.withEnable s _ hp hs
  · exact hP.writeStatus s v hp hs
  · exact hP.markOverrun s hp hs
  · exact hs
  · exact hP.writeReg s v r ⟨hb, hp⟩ hs

theorem accessAt (hP : StepInvariant P) (hs : P s) {off : Nat} (h4 : off % 4 = 0) (kind : AccessKind) :
    P (accessAt off kind s) := by
  rcases accessAt_cases off kind s with ⟨-, v, e⟩ | ⟨-, -, e⟩ | ⟨hp, v, -, e⟩ <;> rw [e]
  · exact hP.answer _ v (hP.resetBlock s)
  · exact hP.hostRead hs off
  · exact hP.hostWrite (hP.answer s none hs) hp h4 v

/-- A property that survives each thing a step can do is kept by every step. -/
theorem step (hP : StepInvariant P) (hs : P s) (h : step s = .next t) : P t := by
  rcases step_cases s with ⟨-, e⟩ | ⟨a, rest, -, e⟩ | ⟨b, rest, -, e⟩ <;> rw [e] at h
  · exact hP.engineTurn (hP.withTurns s _ hs) h
  · have hr := hP.withTurns s rest hs
    rcases hostTurn_cases a (s.withTurns rest) with ⟨-, e⟩ | ⟨-, r, e⟩ | ⟨off, -, h4, -, e⟩ <;> rw [e] at h <;> cases h
    · exact hP.answer _ none hr
    · exact hP.accessAt hr h4 a.kind
  · cases h; exact hP.resetPinTurn b _

/-- Such a property holds right after reset, whatever turns are scheduled. -/
theorem reset (hP : StepInvariant P) (turns : List Turn) : P (State.reset.withTurns turns) :=
  hP.resetBlock (State.reset.withTurns turns)

end StepInvariant

/-! ### PEND and STATUS -/

theorem latchAgrees_issue (v : Word) (s : State) : LatchAgrees (s.issue v) := rfl

theorem latchAgrees_complete (code : ErrCode) (s : State) : LatchAgrees (s.complete code) := rfl

theorem latchAgrees_stepInvariant : StepInvariant LatchAgrees where
  withTurns _ _ h := h
  answer _ _ h := h
  answerFree _ h := h
  resetBlock _ := rfl
  resetPinTurn _ _ := rfl
  withEnable _ _ _ h := h
  writeStatus _ _ _ h := h
  markOverrun _ _ h := h
  writeReg s v r _ h := by
    cases r with
    | cmd => exact latchAgrees_issue v s
    | _ => exact h
  completeWord s _ c _ _ ht := by
    obtain ⟨code, u, e, -⟩ := completeWord_completes c s
    rw [e] at ht
    cases ht; exact latchAgrees_complete code u

theorem StatusSound.of_eq {s t : State} (h : StatusSound s) (hs : t.status = s.status) : StatusSound t := by
  obtain ⟨h1, h2, h3⟩ := h
  exact ⟨by rwa [hs], by rwa [hs], by rwa [hs]⟩

theorem statusSound_resetBlock (s : State) : StatusSound s.resetBlock where
  code_produced := rfl
  busy_clean h := by cases h
  err_has_code h := by cases h

theorem statusSound_issue (v : Word) (s : State) : StatusSound (s.issue v) where
  code_produced := rfl
  busy_clean _ := ⟨rfl, rfl, rfl⟩
  err_has_code h := by cases h

theorem statusSound_complete {code : ErrCode} (h : codeProduced code.bits = true) (s : State) :
    StatusSound (s.complete code) where
  code_produced := h
  busy_clean h := by cases h
  err_has_code h := fun h0 => by simp [ErrCode.bits_eq_zero.mp h0] at h

/-- An acknowledgement clears bits that are clear anyway while a command is in flight (R24, R207). -/
theorem StatusSound.writeStatus {s : State} (h : StatusSound s) (v : Word) : StatusSound (writeStatus v s) where
  code_produced := h.code_produced
  busy_clean hb := by
    obtain ⟨hd, he, hc⟩ := h.busy_clean hb
    simp [hd, he, hc]
  err_has_code he := h.err_has_code (Bool.and_eq_true_iff.mp he).1

theorem statusSound_stepInvariant : StepInvariant StatusSound where
  withTurns _ _ h := h.of_eq rfl
  answer _ _ h := h.of_eq rfl
  answerFree _ h := h.of_eq rfl
  resetBlock := statusSound_resetBlock
  resetPinTurn _ s := (statusSound_resetBlock s).of_eq rfl
  withEnable _ _ _ h := h.of_eq rfl
  writeStatus _ v _ h := h.writeStatus v
  markOverrun _ _ h := ⟨h.code_produced, h.busy_clean, h.err_has_code⟩
  writeReg s v r _ h := by
    cases r with
    | cmd => exact statusSound_issue v s
    | _ => exact h.of_eq rfl
  completeWord s _ c _ _ ht := by
    obtain ⟨code, u, e, hc, -⟩ := completeWord_completes c s
    rw [e] at ht
    cases ht; exact statusSound_complete hc u

/-- Settles O46: the latch and STATUS are each kept by whatever a step can do. -/
theorem stepKeepsLatchAndStatus : Obligations.StepKeepsLatchAndStatus := fun _ _ hl hs h =>
  ⟨latchAgrees_stepInvariant.step hl h, statusSound_stepInvariant.step hs h⟩

/-! ### CB, the checksum registers and the weak flags -/

theorem ChecksumReg.ofBits_fits {c : BitString} (h : c.length ≤ 8) : (ChecksumReg.ofBits c).Fits := by
  have hl : (ChecksumReg.ofBits c).len.toNat = c.length := by simp [ChecksumReg.ofBits]; omega
  rw [ChecksumReg.Fits, hl]
  exact ⟨h, Nat.lt_of_le_of_lt (by simpa [ChecksumReg.ofBits] using Nat.mod_le _ _) (uint_lt c)⟩

/-- The checksum of an entropy of up to 256 bits fits a checksum register (R110). -/
theorem checksum_fits {raw : BitString} (h : raw.length ≤ 256) : (ChecksumReg.ofBits (checksum raw).2).Fits :=
  ChecksumReg.ofBits_fits (by rw [checksum_length h]; omega)

theorem BuffersFit.of_eq {s t : State} (h : BuffersFit s) (hcb : t.cb = s.cb) (hc : t.csum = s.csum)
    (hs : t.csumSupplied = s.csumSupplied) (hf : t.flags = s.flags) : BuffersFit t := by
  obtain ⟨h1, h2, h3, h4⟩ := h
  exact ⟨by rwa [hcb], by rwa [hc], by rwa [hs], by rwa [hf]⟩

theorem buffersFit_resetBlock (s : State) : BuffersFit s.resetBlock where
  combined := by simp
  checksum := by simp [ChecksumReg.Fits]
  supplied := by simp [ChecksumReg.Fits]
  weak h := by cases h

theorem entropy_length_le {s : State} (h : LengthAccepted s) : (entropy s).length ≤ 256 := by
  simpa [entropy] using h.2

/-- CB and CSUM take strings whose lengths follow from a checked entropy length or word count (R110, R134, R135, R137). -/
theorem BuffersFit.effect {s u : State} {i : Instr} {code : ErrCode} (h : BuffersFit s) (hu : Effect s i code u) :
    BuffersFit u := by
  have decoded (hw : s.wordCount.toNat ≤ 24) : BuffersFit s.withDecoded :=
    ⟨by simp [decodedBits_length hw, Config.maxCbBits]; omega, h.checksum,
      ChecksumReg.ofBits_fits (suppliedChecksum_length_le hw), h.weak⟩
  have rechecked (hw : s.wordCount.toNat ≤ 24) : BuffersFit s.withRechecked := by
    have hl : (decodedEntropy s).length ≤ 256 := by rw [decodedEntropy_length hw]; exact decodedLength_le hw
    obtain ⟨h1, -, h3, h4⟩ := decoded hw
    exact ⟨h1, checksum_fits hl, h3, h4⟩
  cases hu with
  | checksum hl => exact ⟨h.combined, checksum_fits (entropy_length_le hl), h.supplied, h.weak⟩
  | validate =>
    refine ⟨h.combined, h.checksum, h.supplied, fun hna => ?weak⟩
    rw [State.withVerdicts_flags_weakNa] at hna
    simp [hna]
  | encode hl =>
    have hcb : s.withEncoded.cb.length ≤ 264 := by
      have h256 : entropyLength s ≤ 256 := hl.2
      simp [combinedBits_length h256]; omega
    exact ⟨hcb, checksum_fits (entropy_length_le hl), h.supplied, h.weak⟩
  | decodeSplit hw => exact decoded hw
  | decodeMismatch hw => exact rechecked hw
  | decodeMatch hw =>
    obtain ⟨h1, h2, h3, h4⟩ := rechecked hw
    exact ⟨h1, h2, h3, h4⟩
  | _ => exact h.of_eq rfl rfl rfl rfl

theorem buffersFit_stepInvariant : StepInvariant BuffersFit where
  withTurns _ _ h := h.of_eq rfl rfl rfl rfl
  answer _ _ h := h.of_eq rfl rfl rfl rfl
  answerFree _ h := h.of_eq rfl rfl rfl rfl
  resetBlock := buffersFit_resetBlock
  resetPinTurn _ s := (buffersFit_resetBlock s).of_eq rfl rfl rfl rfl
  withEnable _ _ _ h := h.of_eq rfl rfl rfl rfl
  writeStatus _ _ _ h := h.of_eq rfl rfl rfl rfl
  markOverrun _ _ h := h.of_eq rfl rfl rfl rfl
  writeReg _ _ r _ h := by cases r <;> exact h.of_eq rfl rfl rfl rfl
  completeWord _ _ _ _ h ht := by
    obtain rfl | ⟨i, code, u, -, hu, rfl⟩ := completeWord_effect ht
    · exact h.of_eq rfl rfl rfl rfl
    · exact (h.effect hu).of_eq rfl rfl rfl rfl

/-- Settles O47: the lengths that the commands check bound what they write. -/
theorem stepKeepsBuffers : Obligations.StepKeepsBuffers := fun _ _ => buffersFit_stepInvariant.step

/-! ### The die-roll session -/

/-- Past the last register there is no packed bit. -/
theorem packedBit_of_le {k : Nat} (x : Vector Word k) {p : Nat} (h : 32 * k ≤ p) : packedBit x p = false := by
  rw [packedBit, toList_getD_of_le x (by omega)]
  exact BitVec.getLsbD_zero

/-- A packed string is followed by zeros (R9). -/
theorem packedBit_put_of_le {s : BitString} {p : Nat} (h : s.length ≤ p) : packedBit (put s) p = false := by
  by_cases hp : p < 256
  · rw [packedBit_put s hp, List.getD_eq_default _ _ h]
  · exact packedBit_of_le _ (by omega)

/-- A digit placed after the first `i` keeps ACC below the power of the digits placed (R162, R165). -/
theorem setDigit_lt {acc : BitVec 256} {i d : Nat} (h : acc.toNat < 4 ^ i) (hd : d < 4) :
    (setDigit acc i d).toNat < 4 ^ (i + 1) := by
  have hpow : ∀ j, 4 ^ j = 2 ^ (2 * j) := fun j => (Nat.pow_mul 2 2 j).symm
  have hkept : (acc &&& ~~~(3#256 <<< (2 * i))).toNat < 2 ^ (2 * (i + 1)) := by
    rw [← hpow, BitVec.toNat_and]
    exact Nat.lt_of_le_of_lt Nat.and_le_left (Nat.lt_of_lt_of_le h (Nat.pow_le_pow_right (by decide) (Nat.le_succ i)))
  have hdigit : (BitVec.ofNat 256 d <<< (2 * i)).toNat < 2 ^ (2 * (i + 1)) := by
    rw [BitVec.toNat_shiftLeft, BitVec.toNat_ofNat, Nat.shiftLeft_eq, ← hpow, ← hpow]
    calc d % 2 ^ 256 * 4 ^ i % 2 ^ 256 ≤ d % 2 ^ 256 * 4 ^ i := Nat.mod_le _ _
      _ < 4 * 4 ^ i := Nat.mul_lt_mul_of_pos_right (Nat.lt_of_le_of_lt (Nat.mod_le _ _) hd) (Nat.pow_pos (by decide))
      _ = 4 ^ (i + 1) := (Nat.pow_succ' (n := i)).symm
  rw [setDigit, BitVec.toNat_or, hpow]
  exact Nat.or_lt_two_pow hkept hdigit

theorem SessionSound.of_eq {s t : State} (h : SessionSound s) (hs : t.diceState = s.diceState)
    (hc : t.diceCount = s.diceCount) (ha : t.acc = s.acc) (ho : t.diceOut = s.diceOut) : SessionSound t := by
  obtain ⟨h1, h2, h3, h4⟩ := h
  exact ⟨by rwa [hs], by rwa [hc], by rwa [ha, hc, hs], by rwa [hs, ho]⟩

theorem sessionSound_resetBlock (s : State) : SessionSound s.resetBlock where
  target h := by cases h
  counted := by simp
  digits := by simp
  output p _ := packedBit_put_of_le (s := []) (Nat.zero_le p)

/-- A new session has seen no roll and holds no digit (R161). -/
theorem sessionSound_withSession {n : Nat} (h0 : n ≠ 0) (h2 : n % 2 = 0) (h256 : n ≤ 256) (s : State) :
    SessionSound (s.withSession n) where
  target _ := by simp [Config.diceMaxBits]; omega
  counted := by simp
  digits := by simp
  output p _ := packedBit_put_of_le (Nat.zero_le p)

theorem SessionSound.countRoll {s : State} (h : SessionSound s) : SessionSound s.countRoll where
  target := h.target
  counted := by
    have := h.counted
    simp [sat16_toNat]; omega
  digits := h.digits
  output := h.output

/-- The digit goes where ACC has none yet, and past the first TARGET/2 nowhere (R164, R165). -/
theorem SessionSound.acceptDigit {s : State} (h : SessionSound s) {d : Nat} (hd : d < 4) :
    SessionSound (s.countRoll.acceptDigit d) where
  target := h.target
  counted := by
    have := h.counted
    simp [sat16_toNat]; omega
  digits := by
    have hacc := h.digits
    have htarget := s.diceState.target.isLt
    by_cases hi : s.diceCount.accepted.toNat < s.diceState.target.toNat / 2
    · have hsat : min (s.diceCount.accepted.toNat + 1) 0xFFFF = s.diceCount.accepted.toNat + 1 := by omega
      rw [Nat.min_eq_left (Nat.le_of_lt hi)] at hacc
      simpa [sat16_toNat, hi, hsat, Nat.min_eq_left (Nat.succ_le_of_lt hi)] using setDigit_lt hacc hd
    · have hnew : min (min (s.diceCount.accepted.toNat + 1) 0xFFFF) (s.diceState.target.toNat / 2) =
          min s.diceCount.accepted.toNat (s.diceState.target.toNat / 2) := by omega
      simpa [sat16_toNat, hi, hnew] using hacc
  output := h.output

theorem SessionSound.withOutput {s : State} (h : SessionSound s) : SessionSound s.withOutput where
  target := h.target
  counted := h.counted
  digits := h.digits
  output p hp := packedBit_put_of_le (by simpa [sessionOutput] using hp)

theorem SessionSound.effect {s u : State} {i : Instr} {code : ErrCode} (h : SessionSound s) (hu : Effect s i code u) :
    SessionSound u := by
  cases hu with
  | diceClose => exact ⟨fun ha => (by cases ha), h.counted, h.digits, h.output⟩
  | diceOpen n h0 h2 h256 => exact sessionSound_withSession h0 h2 h256 s
  | rollInvalid =>
    obtain ⟨h1, h2, h3, h4⟩ := h.countRoll
    exact ⟨h1, h2, h3, h4⟩
  | rollDiscarded => exact h.countRoll
  | rollAccepted _ d hd => exact h.acceptDigit hd
  | diceFinish => exact h.withOutput
  | _ => exact h.of_eq rfl rfl rfl rfl

theorem sessionSound_stepInvariant : StepInvariant SessionSound where
  withTurns _ _ h := h.of_eq rfl rfl rfl rfl
  answer _ _ h := h.of_eq rfl rfl rfl rfl
  answerFree _ h := h.of_eq rfl rfl rfl rfl
  resetBlock := sessionSound_resetBlock
  resetPinTurn _ s := (sessionSound_resetBlock s).of_eq rfl rfl rfl rfl
  withEnable _ _ _ h := h.of_eq rfl rfl rfl rfl
  writeStatus _ _ _ h := h.of_eq rfl rfl rfl rfl
  markOverrun _ _ h := h.of_eq rfl rfl rfl rfl
  writeReg _ _ r _ h := by cases r <;> exact h.of_eq rfl rfl rfl rfl
  completeWord _ _ _ _ h ht := by
    obtain rfl | ⟨i, code, u, -, hu, rfl⟩ := completeWord_effect ht
    · exact h.of_eq rfl rfl rfl rfl
    · exact (h.effect hu).of_eq rfl rfl rfl rfl

/-- Settles O48: the sampler's commands keep their session sound, and nothing else but a reset writes it. -/
theorem stepKeepsSession : Obligations.StepKeepsSession := fun _ _ => sessionSound_stepInvariant.step

/-! ### The state after reset, and runs from it -/

/-- Settles O50: each invariant holds of every block in reset, and the reset input is released. -/
theorem resetMeetsInvariants : Obligations.ResetMeetsInvariants := fun turns =>
  ⟨latchAgrees_stepInvariant.reset turns, statusSound_stepInvariant.reset turns, buffersFit_stepInvariant.reset turns,
    sessionSound_stepInvariant.reset turns, fun h => by cases h⟩

/-- The engine's turn faults only on the latch that R46 excludes (log 10). -/
theorem engineTurn_ne_fault {s : State} (h : LatchAgrees s) (r : Fault) : engineTurn s ≠ .fault r := by
  intro hr
  rcases engineTurn_cases s with ⟨-, e⟩ | ⟨-, e⟩ | ⟨hb, hp, -⟩ | ⟨c, -, e⟩
  · rw [e] at hr; cases hr
  · rw [e] at hr; cases hr
  · rw [LatchAgrees, hb, hp] at h; cases h
  · obtain ⟨code, u, e', -⟩ := completeWord_completes c s
    rw [e, e'] at hr; cases hr

/-- A host's turn is taken or refused, and a turn of the reset input is taken (R61, R230). -/
theorem noFault_of_latchAgrees {s : State} (h : LatchAgrees s) : NoFault s := by
  intro r hr
  rcases step_cases s with ⟨-, e⟩ | ⟨a, rest, -, e⟩ | ⟨b, rest, -, e⟩ <;> rw [e] at hr
  · exact engineTurn_ne_fault (latchAgrees_stepInvariant.withTurns s s.turns.tail h) r hr
  · rcases hostTurn_cases a (s.withTurns rest) with ⟨-, e⟩ | ⟨-, r, e⟩ | ⟨off, -, -, -, e⟩ <;> rw [e] at hr <;> cases hr
  · cases hr

theorem run_ne_fault {s : State} (h : LatchAgrees s) (k : Nat) (r : Fault) : core.run k s ≠ .fault r := by
  induction k generalizing s with
  | zero => nofun
  | succ k ih =>
    simp only [Host.Core.run]
    split
    · next u hu => exact ih (latchAgrees_stepInvariant.step h hu)
    · next r' hr => exact absurd hr (noFault_of_latchAgrees h r')
    · nofun

/-- Settles O51: PEND agrees with BUSY after reset and after every step, and then no step faults. -/
theorem noScheduleFaults : Obligations.NoScheduleFaults :=
  ⟨fun _ => noFault_of_latchAgrees, fun turns => run_ne_fault (latchAgrees_stepInvariant.reset turns)⟩

/-! ### Who writes the flags and the entropy -/

/-- Settles O27: each flag is left by every way to end of the commands that do not write it. -/
theorem commandsKeepForeignFlags : Obligations.CommandsKeepForeignFlags := by
  intro i s
  obtain ⟨code, u, he, hu⟩ := exec_effect i s
  refine ⟨_, he, ?overrun, hu.verdicts_eq, hu.matched_atypical_eq, fun hs => ?session⟩
  case overrun => simp [hu.status_eq]
  case session =>
    obtain ⟨ha, ht⟩ := hu.armed_target_eq hs
    exact ⟨ha, ht, hu.session_eq hs⟩

/-- A write of CTRL without SRST sets IE (R23). -/
theorem writeCtrl_of_clear {v : Word} (h : v.getLsbD 1 = false) (s : State) :
    writeCtrl v s = s.withEnable (v.getLsbD 0) := by
  rw [writeCtrl, h]; rfl

/-- A write to a register other than ENT leaves the entropy. -/
theorem writeReg_ent_changed {v : Word} {s : State} {r : Reg} (h : (writeReg v s r).ent ≠ s.ent) : ∃ i, r = .ent i := by
  cases r with
  | ent i => exact ⟨i, rfl⟩
  | _ => exact absurd rfl h

/-- The engine changes the entropy only by a DECODE that succeeds (R33, R137). -/
theorem engineTurn_ent_changed {s t : State} (hp : s.resetPin = false) (h : engineTurn s = .next t)
    (hne : t.ent ≠ s.ent) :
    ∃ c, s.pend = some c ∧ s.status.busy = true ∧ decode c = .ok .decode ∧ t.status.err = false ∧
      t.flags.matched = true := by
  rcases engineTurn_cases s with ⟨hr, -⟩ | ⟨-, e⟩ | ⟨-, -, e⟩ | ⟨c, ⟨hb, hc, -⟩, e⟩
  · simp [hp] at hr
  · rw [e] at h; cases h; exact absurd rfl hne
  · rw [e] at h; cases h
  · obtain rfl | ⟨i, code, u, hd, hu, rfl⟩ := completeWord_effect (e ▸ h)
    · exact absurd rfl hne
    · obtain ⟨rfl, rfl, hm⟩ := hu.ent_changed hne
      exact ⟨c, hc, hb, hd, rfl, hm⟩

/-- Settles O42: of what a step can do, only these three write ENT. -/
theorem entropyWrittenOnlyByHostAndDecode : Obligations.EntropyWrittenOnlyByHostAndDecode := by
  intro s t hp h hne
  rcases step_released_cases hp h with ⟨-, he⟩ | ⟨b, rest, ht, -⟩ | ⟨a, rest, -, hcase⟩
  · exact .inr (.inl (engineTurn_ent_changed (s := s.withTurns s.turns.tail) hp he hne))
  · exact .inr (.inr ⟨rest, .inl ⟨b, ht⟩⟩)
  · rcases hcase with rfl | rfl | ⟨v, rfl⟩ | ⟨v, hw, rfl⟩ | ⟨v, -, rfl⟩ | ⟨-, rfl⟩ |
      ⟨r, v, hv, -, -, hb, hw, rfl⟩
    · exact absurd rfl hne
    · exact absurd rfl hne
    · exact absurd rfl hne
    · cases hs : v.getLsbD 1 with
      | true => exact .inr (.inr ⟨rest, .inr ⟨v, hw, hs⟩⟩)
      | false => exact absurd (by simp [writeCtrl_of_clear hs]) hne
    · exact absurd rfl hne
    · exact absurd rfl hne
    · obtain ⟨i, rfl⟩ := writeReg_ent_changed hne
      exact .inl ⟨i, v, rest, by simpa [Reg.valid] using hv, hw, hb⟩

/-! ### The bits of ENT past ENT_LEN -/

/-- The entropy of up to 256 bits is its length and the bits below it (R33). -/
theorem entropy_congr {s s' : State} (hl : s'.entLen = s.entLen)
    (hb : ∀ p < entropyLength s, p < 256 → packedBit s'.ent p = packedBit s.ent p) (h256 : entropyLength s ≤ 256) :
    entropy s' = entropy s := by
  have hlen : entropyLength s' = entropyLength s := congrArg BitVec.toNat hl
  rw [entropy, entropy, hlen]
  refine List.map_congr_left fun p hp => ?_
  have hp : p < entropyLength s := List.mem_range.mp hp
  exact hb p hp (by omega)

/-- Settles O28: lengths above 256 fail or are flagged before the entropy is read, and up to 256 the entropies agree. -/
theorem resultsDependOnlyOnEntropy : Obligations.ResultsDependOnlyOnEntropy := by
  intro s s' hl hb
  have hlen : entropyLength s' = entropyLength s := congrArg BitVec.toNat hl
  have hent : entropyLength s ≤ 256 → entropy s' = entropy s := entropy_congr hl hb
  refine ⟨?checksum, ?encode, _, _, execValidate_eq s, execValidate_eq s', ?validate⟩
  case checksum =>
    cases hbad : badEntropyLength (entropyLength s) with
    | true => exact ⟨_, _, execChecksum_bad hbad, execChecksum_bad (hlen ▸ hbad), rfl, nofun⟩
    | false =>
      have he := hent (badEntropyLength_eq_false.mp hbad).2
      exact ⟨_, _, execChecksum_good hbad, execChecksum_good (hlen ▸ hbad), rfl, fun _ => by simp [he]⟩
  case encode =>
    cases hbad : badEntropyLength (entropyLength s) with
    | true => exact ⟨_, _, execEncode_bad hbad, execEncode_bad (hlen ▸ hbad), rfl, nofun⟩
    | false =>
      have he := hent (badEntropyLength_eq_false.mp hbad).2
      exact ⟨_, _, execEncode_good hbad, execEncode_good (hlen ▸ hbad), rfl, fun _ => by simp [combinedBits, he]⟩
  case validate =>
    by_cases h256 : entropyLength s ≤ 256
    · simp [hlen, hent h256]
    · have hlong : (entropyLength s > Config.maxEntBits) := Nat.not_le.mp h256
      simp [hlen, hlong]

/-! ### Writes of STATUS and CTRL -/

theorem append_bit_getLsbD_zero {n : Nat} (x : BitVec n) (b : Bool) : (x ++ bit b).getLsbD 0 = b := by
  rw [BitVec.getLsbD_append]; cases b <;> rfl

theorem append_bit_getLsbD_succ {n : Nat} (x : BitVec n) (b : Bool) (k : Nat) :
    (x ++ bit b).getLsbD (k + 1) = x.getLsbD k := by
  simp [BitVec.getLsbD_append]

/-- Reserved bits at the top of a register read 0 (R21). -/
theorem zero_append_getLsbD (m : Nat) {n : Nat} (x : BitVec n) (k : Nat) : (0#m ++ x).getLsbD k = x.getLsbD k := by
  rw [BitVec.getLsbD_append]
  split
  · rfl
  · rw [BitVec.getLsbD_zero, BitVec.getLsbD_of_ge x k (by omega)]

/-- The layout of STATUS (R24). -/
theorem Status.word_getLsbD (t : Status) (k : Nat) : t.word.getLsbD k =
    if k = 0 then t.busy else if k = 1 then t.done else if k = 2 then t.err else if k = 3 then t.overrun
    else t.errCode.getLsbD (k - 4) := by
  match k with
  | 0 => exact append_bit_getLsbD_zero _ _
  | 1 => exact (append_bit_getLsbD_succ _ _ 0).trans (append_bit_getLsbD_zero _ _)
  | 2 => exact (append_bit_getLsbD_succ _ _ 1).trans <| (append_bit_getLsbD_succ _ _ 0).trans (append_bit_getLsbD_zero _ _)
  | 3 =>
    exact (append_bit_getLsbD_succ _ _ 2).trans <| (append_bit_getLsbD_succ _ _ 1).trans <|
      (append_bit_getLsbD_succ _ _ 0).trans (append_bit_getLsbD_zero _ _)
  | k + 4 =>
    exact (append_bit_getLsbD_succ _ _ (k + 3)).trans <| (append_bit_getLsbD_succ _ _ (k + 2)).trans <|
      (append_bit_getLsbD_succ _ _ (k + 1)).trans <| (append_bit_getLsbD_succ _ _ k).trans (zero_append_getLsbD 24 _ k)

theorem Status.word_errCode (t : Status) : t.word.extractLsb' 4 4 = t.errCode := by
  apply BitVec.eq_of_getLsbD_eq
  intro k hk
  rw [BitVec.getLsbD_extractLsb', Status.word_getLsbD, Nat.add_sub_cancel_left]
  rw [if_neg (by omega), if_neg (by omega), if_neg (by omega), if_neg (by omega)]
  simp only [hk, decide_true, Bool.true_and]

theorem writeStatus_word_getLsbD (v : Word) (s : State) (k : Nat) : (writeStatus v s).status.word.getLsbD k =
    if k = 1 ∨ k = 2 ∨ k = 3 then s.status.word.getLsbD k && !v.getLsbD k else s.status.word.getLsbD k := by
  match k with
  | 0 | 1 | 2 | 3 | k + 4 => simp [-BitVec.getLsbD_eq_getElem, Status.word_getLsbD]

/-- Settles O38: the write is taken whether or not a command is in flight, and clears bit by bit. -/
theorem statusWriteOneClears : Obligations.StatusWriteOneClears := by
  intro s v rest hp ht
  refine ⟨_, step_hostW hp rfl ht, fun k _ => writeStatus_word_getLsbD v _ k, ?busy, ?done, ?err, ?overrun,
    Status.word_errCode s.status, fun r hr => ?frame, rfl, ⟨rfl, rfl⟩, rfl⟩
  case frame => exact (readReg_writeStatus hr v _).trans (by simp)
  all_goals exact Status.word_getLsbD s.status _

theorem readReg_withEnable {r : Reg} (h : r ≠ .ctrl) (b : Bool) (s : State) :
    readReg (s.withEnable b) r = readReg s r := by
  cases r with
  | ctrl => exact absurd rfl h
  | _ => rfl

/-- CTRL reads as its bit IE alone (R23). -/
theorem Ctrl.word_ofBit (v : Word) : (Ctrl.mk (v.getLsbD 0)).word = v &&& 1 := by
  apply BitVec.eq_of_getLsbD_eq
  intro k hk
  match k with
  | 0 => exact (append_bit_getLsbD_zero _ _).trans (by simp)
  | k + 1 => exact (append_bit_getLsbD_succ _ _ k).trans (by simp)

/-- Settles O39: the write is taken whether or not a command is in flight, and reaches IE only. -/
theorem ctrlWriteSetsEnable : Obligations.CtrlWriteSetsEnable := by
  intro s v rest hp ht hv
  refine ⟨((s.withTurns rest).answer none).withEnable (v.getLsbD 0), ?step, Ctrl.word_ofBit v, fun r hr => ?frame, rfl,
    ⟨rfl, rfl⟩, rfl⟩
  case step => rw [step_hostW hp rfl ht]; exact congrArg _ (writeCtrl_of_clear hv _)
  case frame => rw [readReg_withEnable hr, readReg_answer, readReg_withTurns]

end Sys2Proof.Machine
end

section
/-! PROOFS of the memory's family (20_memory.md): the bytes of a packed string, the value of each register word, the
implemented bits of a register, and then the host's accesses one after the other. -/

namespace Sys2Proof.Machine

/-! ### Packed strings -/

/-- Byte j of a packed string is the big-endian byte j mod 4 of register j div 4 (R10, R63). -/
theorem bytes_str_getD {k : Nat} (x : Vector Word k) {n j : Nat} (h : j < n / 8) :
    (bytes (str x n)).getD j 0 = packedByte x j := by
  have hlen : (substr (str x n) (8 * j) (8 * j + 8)).length = 8 := by
    rw [substr_length (by rw [str_length]; omega)]; omega
  have hbyte : (bytes (str x n)).getD j 0 = BitVec.ofNat 8 (uint (substr (str x n) (8 * j) (8 * j + 8))) := by
    simp [bytes, List.getD_eq_getElem?_getD, h]
  rw [hbyte]
  apply BitVec.eq_of_getLsbD_eq
  intro b hb
  have hpos : (substr (str x n) (8 * j) (8 * j + 8)).getD (8 - 1 - b) false = packedBit x (8 * j + (7 - b)) := by
    rw [← str_getD x (n := n) (by omega)]
    simp only [substr, List.getD_eq_getElem?_getD]
    rw [List.getElem?_take_of_lt (by omega), List.getElem?_drop]
  have hword : (8 * j + (7 - b)) / 32 = j / 4 := by omega
  have hbit : 31 - (8 * j + (7 - b)) % 32 = 24 - 8 * (j % 4) + b := by omega
  rw [ofNat_uint_getLsbD _ hb, hlen, hpos, packedBit, hword, hbit, packedByte, BitVec.getLsbD_extractLsb']

/-- Settles O55: bit by bit, byte j of the string is read at positions 8j to 8j + 7, which lie in one register. -/
theorem bytesOfPackedRegisters : Obligations.BytesOfPackedRegisters := fun x _ _ =>
  ⟨fun _ hp => str_getD x hp, fun _ _ hj => bytes_str_getD x hj⟩

/-! ### The value of a register word -/

/-- Fields laid side by side: the upper one counts in units of the lower one's range. -/
theorem append_toNat {m n : Nat} (x : BitVec m) (y : BitVec n) : (x ++ y).toNat = 2 ^ n * x.toNat + y.toNat := by
  rw [BitVec.toNat_append, ← Nat.shiftLeft_add_eq_or_of_lt y.isLt, Nat.shiftLeft_eq, Nat.mul_comm]

theorem bit_toNat (b : Bool) : (bit b).toNat = b.toNat := BitVec.toNat_ofBool b

theorem Ctrl.word_toNat (c : Ctrl) : c.word.toNat = c.ie.toNat := by
  simp only [Ctrl.word, append_toNat, bit_toNat, BitVec.toNat_ofNat]; omega

theorem Status.word_toNat (t : Status) : t.word.toNat =
    t.busy.toNat + 2 * t.done.toNat + 4 * t.err.toNat + 8 * t.overrun.toNat + 16 * t.errCode.toNat := by
  simp only [Status.word, append_toNat, bit_toNat, BitVec.toNat_ofNat]; omega

theorem Flags.word_toNat (f : Flags) : f.word.toNat =
    f.lenv.toNat + 4 * f.weakZero.toNat + 8 * f.weakOnes.toNat + 16 * f.weakNa.toNat + 32 * f.matched.toNat +
      64 * f.atypical.toNat := by
  simp only [Flags.word, append_toNat, bit_toNat, BitVec.toNat_ofNat]; omega

theorem ChecksumReg.word_toNat (c : ChecksumReg) : c.word.toNat = c.value.toNat + 256 * c.len.toNat := by
  simp only [ChecksumReg.word, append_toNat, BitVec.toNat_ofNat]; omega

theorem DiceState.word_toNat (d : DiceState) :
    d.word.toNat = d.armed.toNat + 2 * d.badRoll.toNat + 0x10000 * d.target.toNat := by
  simp only [DiceState.word, append_toNat, bit_toNat, BitVec.toNat_ofNat]; omega

theorem DiceCount.word_toNat (d : DiceCount) : d.word.toNat = d.accepted.toNat + 0x10000 * d.raw.toNat := by
  simp only [DiceCount.word, append_toNat]; omega

/-- `CB_LEN` holds any length CB can have (R31, R45). -/
theorem readReg_cbLen_toNat {s : State} (h : s.cb.length ≤ 264) : (readReg s .cbLen).toNat = s.cb.length := by
  simp only [readReg, BitVec.toNat_ofNat]; omega

theorem toList_getD_of_lt {w n : Nat} (x : Vector (BitVec w) n) {i : Nat} (h : i < n) : x.toList.getD i 0 = x[i] := by
  simp [List.getD_eq_getElem?_getD, h]

/-! ### Implemented bits -/

theorem Ctrl.word_lt (c : Ctrl) : c.word.toNat < 2 ^ 1 := by
  rw [c.word_toNat]; exact c.ie.toNat_lt

theorem Status.word_lt (t : Status) : t.word.toNat < 2 ^ 8 := by
  simp only [Status.word, append_toNat, BitVec.toNat_ofNat]; omega

theorem Flags.word_lt (f : Flags) : f.word.toNat < 2 ^ 7 := by
  simp only [Flags.word, append_toNat, BitVec.toNat_ofNat]; omega

theorem ChecksumReg.word_lt (c : ChecksumReg) : c.word.toNat < 2 ^ 12 := by
  rw [c.word_toNat]; omega

section
variable {m x : Word} {k : Nat}

/-- A mask of the low k bits keeps the value modulo 2^k. -/
theorem and_lowMask_toNat (hm : m.toNat = 2 ^ k - 1) (x : Word) : (x &&& m).toNat = x.toNat % 2 ^ k := by
  rw [BitVec.toNat_and, hm, Nat.and_two_pow_sub_one_eq_mod]

theorem and_not_lowMask (hm : m.toNat = 2 ^ k - 1) (hx : x.toNat < 2 ^ k) : x &&& ~~~m = 0 := by
  have hxm : x &&& m = x := BitVec.eq_of_toNat_eq ((and_lowMask_toNat hm x).trans (Nat.mod_eq_of_lt hx))
  rw [← hxm, BitVec.and_assoc, BitVec.and_not_self]; exact BitVec.and_zero

/-- What a field of k bits takes from a write does not depend on the bits above it. -/
theorem setWidth_and_lowMask (hm : m.toNat = 2 ^ k - 1) (v : Word) : (v &&& m).setWidth k = v.setWidth k := by
  apply BitVec.eq_of_toNat_eq
  rw [BitVec.toNat_setWidth, BitVec.toNat_setWidth, and_lowMask_toNat hm, Nat.mod_mod]

/-- A field of k bits at the bottom of a register reads back the low k bits of what was written. -/
theorem setWidth_setWidth_lowMask (hm : m.toNat = 2 ^ k - 1) (hk : k ≤ 32) (v : Word) :
    (v.setWidth k).setWidth 32 = v &&& m := by
  apply BitVec.eq_of_toNat_eq
  rw [and_lowMask_toNat hm, BitVec.toNat_setWidth_of_le hk, BitVec.toNat_setWidth]

end

/-- No bit outside a mask, field by field. -/
theorem append_and_not {a b : Nat} {x m : BitVec a} {y n : BitVec b} (hx : x &&& ~~~m = 0) (hy : y &&& ~~~n = 0) :
    (x ++ y) &&& ~~~(m ++ n) = 0 := by
  rw [BitVec.not_append, BitVec.and_append, hx, hy]; exact BitVec.zero_append_zero

/-- DICE_STATE is laid out as its mask is (R36). -/
theorem DiceState.word_reserved (d : DiceState) : d.word &&& ~~~ 0x01FF0003#32 = 0 := by
  have hmask : 0x01FF0003#32 = 0#7 ++ BitVec.allOnes 9 ++ 0#14 ++ BitVec.allOnes 1 ++ BitVec.allOnes 1 := by decide
  have hfield {w : Nat} (x : BitVec w) : x &&& ~~~ BitVec.allOnes w = 0 := by
    rw [BitVec.not_allOnes]; exact BitVec.and_zero
  rw [hmask]
  have htarget := append_and_not (m := 0#7) (n := BitVec.allOnes 9) BitVec.zero_and (hfield d.target)
  have hreserved := append_and_not (n := 0#14) htarget BitVec.zero_and
  exact append_and_not (append_and_not hreserved (hfield (bit d.badRoll))) (hfield (bit d.armed))

/-- A reserved bit reads 0 (R21 to R38, R64). -/
theorem readReg_reserved {s : State} (hcb : s.cb.length ≤ 264) (r : Reg) :
    readReg s r &&& ~~~ implementedBits r = 0 := by
  cases r with
  | ctrl => exact and_not_lowMask (k := 1) rfl s.ctrl.word_lt
  | status => exact and_not_lowMask (k := 8) rfl s.status.word_lt
  | cmd => exact BitVec.zero_and
  | entLen => exact and_not_lowMask (k := 16) rfl (by simp only [readReg, BitVec.toNat_setWidth]; omega)
  | flags => exact and_not_lowMask (k := 7) rfl s.flags.word_lt
  | csum => exact and_not_lowMask (k := 12) rfl s.csum.word_lt
  | csumSupplied => exact and_not_lowMask (k := 12) rfl s.csumSupplied.word_lt
  | wordCount => exact and_not_lowMask (k := 5) rfl (by simp only [readReg, BitVec.toNat_setWidth]; omega)
  | cbLen => exact and_not_lowMask (k := 9) rfl (by rw [readReg_cbLen_toNat hcb]; omega)
  | idx i => exact and_not_lowMask (k := 11) rfl (by simp only [readReg, BitVec.toNat_setWidth]; omega)
  | diceState => exact s.diceState.word_reserved
  | _ => exact and_not_lowMask (k := 32) rfl (BitVec.isLt _)

/-! ### Writes of the stored registers and of reserved space -/

/-- Registers of a group, read after a write to one of them: the written one. -/
theorem toList_setIfInBounds_getD_self {w n : Nat} (x : Vector (BitVec w) n) (v : BitVec w) {i : Nat} (h : i < n) :
    (x.setIfInBounds i v).toList.getD i 0 = v := by
  rw [toList_getD_of_lt _ h, Vector.getElem_setIfInBounds_self]

/-- Registers of a group, read after a write to one of them: any other. -/
theorem toList_setIfInBounds_getD_ne {w n : Nat} (x : Vector (BitVec w) n) (v : BitVec w) {i j : Nat} (h : i ≠ j) :
    (x.setIfInBounds i v).toList.getD j 0 = x.toList.getD j 0 := by
  simp [List.getD_eq_getElem?_getD, Vector.toList_setIfInBounds, List.getElem?_set_ne h]

theorem readReg_writeReg_self {r : Reg} (hv : r.valid = true) (hs : r.stores = true) (v : Word) (s : State) :
    readReg (writeReg v s r) r = v &&& implementedBits r := by
  cases r with
  | entLen => exact setWidth_setWidth_lowMask rfl (by decide) v
  | wordCount => exact setWidth_setWidth_lowMask rfl (by decide) v
  | ent i =>
    have hi : i < 8 := by simpa [Reg.valid] using hv
    exact (toList_setIfInBounds_getD_self s.ent v hi).trans BitVec.and_allOnes.symm
  | idx i =>
    have hi : i < 24 := by simpa [Reg.valid] using hv
    exact (congrArg _ (toList_setIfInBounds_getD_self s.idx _ hi)).trans (setWidth_setWidth_lowMask rfl (by decide) v)
  | _ => cases hs

theorem readReg_writeReg_ne {r r' : Reg} (hs : r.stores = true) (hne : r' ≠ r) (v : Word) (s : State) :
    readReg (writeReg v s r) r' = readReg s r' := by
  cases r with
  | entLen =>
    cases r' with
    | entLen => exact absurd rfl hne
    | _ => rfl
  | wordCount =>
    cases r' with
    | wordCount => exact absurd rfl hne
    | _ => rfl
  | ent i =>
    cases r' with
    | ent j => exact toList_setIfInBounds_getD_ne s.ent v fun e => hne (congrArg _ e.symm)
    | _ => rfl
  | idx i =>
    cases r' with
    | idx j =>
      have hji : i ≠ j := fun e => hne (congrArg _ e.symm)
      exact congrArg (BitVec.setWidth 32) (toList_setIfInBounds_getD_ne s.idx _ hji)
    | _ => rfl
  | _ => cases hs

/-- A write of a stored register leaves STATUS, PEND and the internal elements (R65). -/
theorem writeReg_keeps {r : Reg} (hs : r.stores = true) (v : Word) (s : State) :
    (writeReg v s r).status = s.status ∧ (writeReg v s r).pend = s.pend ∧ KeepsHidden s (writeReg v s r) := by
  cases r with
  | entLen | wordCount | ent i | idx i => exact ⟨rfl, rfl, rfl, rfl⟩
  | _ => cases hs

theorem writeReg_turns (v : Word) (s : State) (r : Reg) : (writeReg v s r).turns = s.turns := by cases r <;> rfl

/-- A read-only register ignores writes (R64). -/
theorem writeReg_readOnly {r : Reg} (h : r.readOnly = true) (v : Word) (s : State) : writeReg v s r = s := by
  cases r with
  | ctrl | status | cmd | entLen | wordCount | ent i | idx i => cases h
  | _ => rfl

/-- A stored register takes only its implemented bits from a write (R64). -/
theorem writeReg_implementedBits {r : Reg} (hs : r.stores = true) (v : Word) (s : State) :
    writeReg (v &&& implementedBits r) s r = writeReg v s r := by
  cases r with
  | entLen => exact congrArg (fun x => { s with entLen := x }) (setWidth_and_lowMask (m := 0x0000FFFF) rfl v)
  | wordCount => exact congrArg (fun x => { s with wordCount := x }) (setWidth_and_lowMask (m := 0x0000001F) rfl v)
  | ent i => exact congrArg (fun x => s.withEnt i x) BitVec.and_allOnes
  | idx i =>
    have hv := setWidth_and_lowMask (m := 0x000007FF) (k := 11) rfl v
    exact congrArg (fun x => { s with idx := s.idx.setIfInBounds i x }) hv
  | _ => cases hs

/-- CTRL and STATUS, whose writes have rules of their own, are neither stored nor read-only (R23, R24). -/
theorem Reg.ne_ctrl_status {r : Reg} (h : r.stores = true ∨ r.readOnly = true) : r ≠ .ctrl ∧ r ≠ .status := by
  constructor <;> rintro rfl <;> exact absurd h (by decide)

/-- A reserved field of a stored register ignores writes, also while BUSY (R64, R65). -/
theorem hostWrite_implementedBits {r : Reg} (hv : r.valid = true) (hs : r.stores = true) (v : Word) (s : State) :
    hostWrite r.offset v s = hostWrite r.offset (v &&& implementedBits r) s := by
  obtain ⟨hc, ht⟩ := Reg.ne_ctrl_status (.inl hs)
  cases hb : s.status.busy with
  | false => rw [hostWrite_idle hb hv hc ht, hostWrite_idle hb hv hc ht, writeReg_implementedBits hs]
  | true =>
    have h4 : r.offset ≠ 0x004 := fun e => hc (by cases (regAt_offset hv).symm.trans (congrArg regAt e); rfl)
    have h8 : r.offset ≠ 0x008 := fun e => ht (by cases (regAt_offset hv).symm.trans (congrArg regAt e); rfl)
    rw [hostWrite_busy hb h4 h8, hostWrite_busy hb h4 h8]

/-- An unlisted offset ignores writes (R64). -/
theorem hostWrite_unlisted {off : Nat} {s : State} (h : ∀ r : Reg, r.valid = true → r.offset ≠ off) (h4 : off % 4 = 0)
    (hb : s.status.busy = false) (v : Word) : hostWrite off v s = s := by
  rcases hostWrite_cases off v s h4 with ⟨ho, -⟩ | ⟨ho, -⟩ | ⟨hb', -⟩ | ⟨-, e⟩ | ⟨-, r, hv, ho, -⟩
  · exact absurd ho.symm (h _ rfl)
  · exact absurd ho.symm (h _ rfl)
  · cases hb.symm.trans hb'
  · exact e
  · exact absurd ho.symm (h r hv)

/-- Of a write, CTRL looks at IE and SRST only (R23). -/
theorem writeCtrl_and (v : Word) (s : State) : writeCtrl (v &&& 0x3) s = writeCtrl v s := by
  have h (k : Nat) (hk : (0x3 : Word).getLsbD k = true) : (v &&& 0x3).getLsbD k = v.getLsbD k := by
    rw [BitVec.getLsbD_and, hk, Bool.and_true]
  rw [writeCtrl, writeCtrl, h 0 rfl, h 1 rfl]

/-- Of a write, STATUS looks at its three write-1-to-clear bits only (R24). -/
theorem writeStatus_and (v : Word) (s : State) : writeStatus (v &&& 0xE) s = writeStatus v s := by
  have h (k : Nat) (hk : (0xE : Word).getLsbD k = true) : (v &&& 0xE).getLsbD k = v.getLsbD k := by
    rw [BitVec.getLsbD_and, hk, Bool.and_true]
  rw [writeStatus, writeStatus, h 1 rfl, h 2 rfl, h 3 rfl]

/-- Settles O34: an idle write of a stored register is the register's own write, which reaches no other. -/
theorem writesReadBack : Obligations.WritesReadBack := by
  intro s r v rest ⟨hb, hp⟩ hv hs ht
  obtain ⟨hc, hst⟩ := Reg.ne_ctrl_status (.inl hs)
  have hstep : step s = .next (writeReg v ((s.withTurns rest).answer none) r) := by
    rw [step_hostW hp hv ht]
    exact congrArg _ (hostWrite_idle hb hv hc hst)
  obtain ⟨hstatus, hpend, hhidden⟩ := writeReg_keeps hs v ((s.withTurns rest).answer none)
  refine ⟨_, hstep, readReg_writeReg_self hv hs v _, fun r' hne => ?frame, hstatus, hpend,
    ⟨hhidden.cb, hhidden.acc⟩, writeReg_turns v _ r⟩
  case frame => rw [readReg_writeReg_ne hs hne, readReg_answer, readReg_withTurns]

/-- Settles O35: an unlisted offset has no register to read or write, and a stored register takes its own bits only. -/
theorem reservedSpaceReadsZero : Obligations.ReservedSpaceReadsZero := by
  intro s
  refine ⟨fun off v h _ h4 => ⟨readAt_unlisted h h4 s, fun hb => hostWrite_unlisted h h4 hb v⟩,
    fun r v hv hr hb => ?readOnly, readReg_reserved, fun r v hv hs => hostWrite_implementedBits hv hs v s,
    fun v => ⟨(writeCtrl_and v s).symm, (writeStatus_and v s).symm⟩⟩
  case readOnly =>
    obtain ⟨hc, hst⟩ := Reg.ne_ctrl_status (.inr hr)
    rw [hostWrite_idle hb hv hc hst, writeReg_readOnly hr]

/-! ### The shape and the place of an access -/

theorem hostTurn_outside {a : Access} (h : a.outside = true) (s : State) : hostTurn a s = .next (s.answer none) := by
  rw [hostTurn, if_pos h]

theorem hostTurn_width {a : Access} (h : a.outside = false) (hw : a.width ≠ 32) (s : State) :
    hostTurn a s = .refused .accessWidth := by
  rw [hostTurn, h, if_neg Bool.false_ne_true, if_pos hw]

theorem hostTurn_alignment {a : Access} (h : a.outside = false) (hw : a.width = 32)
    (ha : a.addr < Config.base ∨ (a.addr - Config.base) % 4 ≠ 0) (s : State) :
    hostTurn a s = .refused .accessAlignment := by
  rw [hostTurn, h, if_neg Bool.false_ne_true, if_neg (not_not_intro hw), if_pos ha]

theorem hostWrite_turns {off : Nat} (h4 : off % 4 = 0) (v : Word) (s : State) : (hostWrite off v s).turns = s.turns := by
  rcases hostWrite_cases off v s h4 with ⟨-, e⟩ | ⟨-, e⟩ | ⟨-, e⟩ | ⟨-, e⟩ | ⟨-, r, -, -, -, -, e⟩ <;> rw [e]
  · unfold writeCtrl
    split <;> rfl
  · rfl
  · rfl
  · exact writeReg_turns v s r

/-- An access leaves the turns that come after it. -/
theorem accessAt_turns {off : Nat} (h4 : off % 4 = 0) (kind : AccessKind) (s : State) :
    (accessAt off kind s).turns = s.turns := by
  rcases accessAt_cases off kind s with ⟨-, v, e⟩ | ⟨-, -, e⟩ | ⟨-, v, -, e⟩ <;> rw [e]
  · rfl
  · rcases hostRead_cases off s with e' | e' <;> rw [e'] <;> rfl
  · exact hostWrite_turns h4 v _

/-- Settles O36: an access that touches the window is taken or refused by its width, then by its place. -/
theorem onlyAlignedWordsAccepted : Obligations.OnlyAlignedWordsAccepted := by
  intro s a rest ht hlo hhi
  have hin : a.outside = false := Access.outside_eq_false hlo hhi
  rw [step_host ht]
  refine ⟨fun hw hbase h4 => ?taken, fun hw => hostTurn_width hin hw _, fun hw ha => hostTurn_alignment hin hw ha _⟩
  case taken =>
    have hoff : a.addr - Config.base < Config.windowSize := by simp only [Config.windowSize]; omega
    exact ⟨_, hostTurn_accepted _ hw hoff h4 (by omega), accessAt_turns h4 a.kind _⟩

/-- Settles O37: an access beside the window is no access to the block. -/
theorem outsideWindowIsNotTheBlocks : Obligations.OutsideWindowIsNotTheBlocks := by
  intro s a rest ht h
  have hout : a.outside = true := by simpa [Access.outside, Config.windowSize] using h
  rw [step_host ht, hostTurn_outside hout]

/-! ### What a read answers -/

/-- A read while the reset input is released (R66). -/
theorem step_read {s : State} {off : Nat} {rest : List Turn} (hp : s.resetPin = false) (ho : off < 0x200)
    (h4 : off % 4 = 0) (h : s.turns = .host ⟨Config.base + off, 32, .read⟩ :: rest) :
    step s = .next (hostRead off (s.withTurns rest)) := by
  rw [step_access h ho h4]
  simp [accessAt, hp]

/-- A read while the reset input is asserted (R230; log 9). -/
theorem accessAt_read_of_resetPin (off : Nat) {s : State} (hp : s.resetPin = true) :
    accessAt off .read s = s.resetBlock.answer (some (readAt s.resetBlock off)) := by
  simp only [accessAt, hp, if_true]
  exact hostRead_readable (.inl rfl)

/-- The offsets that read normally while BUSY (R66). -/
theorem readableWhileBusy_iff (off : Nat) : readableWhileBusy off = true ↔ off ∈ [0x000, 0x004, 0x008, 0x00C] := by
  simp [readableWhileBusy, or_assoc]

/-- In reset every offset but that of `ID` reads 0 (R48, R64). -/
theorem readAt_resetBlock (s : State) {off : Nat} (h4 : off % 4 = 0) :
    readAt s.resetBlock off = if off = 0x000 then 0x42333945 else 0 := by
  cases hr : regAt off with
  | none =>
    have h0 : off ≠ 0x000 := by rintro rfl; cases hr
    rw [readAt, hr, if_neg h0]
  | some r =>
    have hid : r = .id ↔ off = 0x000 := by
      constructor
      · rintro rfl; exact (offset_of_regAt hr h4).2.symm
      · rintro rfl; cases hr; rfl
    simp only [readAt, hr, readReg_resetBlock, hid]

theorem readAt_withTurns (ts : List Turn) (s : State) (off : Nat) : readAt (s.withTurns ts) off = readAt s off := by
  unfold readAt
  split
  · exact readReg_withTurns ts s _
  · rfl

/-- `R <reg>` while idle answers the register (R66, R87). -/
theorem step_hostR_idle {s : State} {r : Reg} {rest : List Turn} (hi : Idle s) (hv : r.valid = true)
    (h : s.turns = hostR r :: rest) : step s = .next ((s.withTurns rest).answer (some (readReg s r))) := by
  obtain ⟨hb, hp⟩ := hi
  rw [step_read hp (offset_lt hv) (offset_aligned r) h, hostRead_readable (s := s.withTurns rest) (.inl hb),
    readAt_offset hv, readReg_withTurns]

/-- Settles O33: the answer of an accepted read, in reset, readable, and while BUSY. -/
theorem readsAnswerAndChangeNothing : Obligations.ReadsAnswerAndChangeNothing := by
  intro s off rest hoff h4 ht
  refine ⟨fun hp => ?inReset, fun hp hr => ?readable, fun hp hb hn => ?busy, ?listed,
    fun h => readAt_unlisted (fun r hv => (h r hv).symm) h4 s⟩
  case inReset =>
    rw [step_access ht hoff h4, accessAt_read_of_resetPin off (s := s.withTurns rest) hp, readAt_resetBlock _ h4]
  case readable =>
    have hok : s.status.busy = false ∨ readableWhileBusy off = true := hr.imp id (readableWhileBusy_iff off).mpr
    rw [step_read hp hoff h4 ht, hostRead_readable (s := s.withTurns rest) hok, readAt_withTurns]
  case busy =>
    have hbusy : readableWhileBusy off = false := by
      rw [← Bool.not_eq_true, readableWhileBusy_iff]; exact hn
    rw [step_read hp hoff h4 ht, hostRead_busy (s := s.withTurns rest) hb hbusy]; rfl
  case listed => rintro r hv rfl; exact readAt_offset hv s

/-- Settles O57: an idle read answers the register's word, whose value is the sum of its fields. -/
theorem registersReadTheirFields : Obligations.RegistersReadTheirFields := by
  intro s
  refine ⟨fun _ _ => step_hostR_idle, rfl, s.ctrl.word_toNat, s.status.word_toNat, rfl, ?entLen, s.flags.word_toNat,
    s.csum.word_toNat, s.csumSupplied.word_toNat, ?wordCount, readReg_cbLen_toNat, rfl, fun i => ?groups, fun i => ?idx,
    s.diceState.word_toNat, s.diceCount.word_toNat⟩
  case entLen => exact BitVec.toNat_setWidth_of_le (by decide)
  case wordCount => exact BitVec.toNat_setWidth_of_le (by decide)
  case groups => exact ⟨toList_getD_of_lt _ i.isLt, toList_getD_of_lt _ i.isLt, toList_getD_of_lt _ i.isLt⟩
  case idx =>
    rw [readReg, toList_getD_of_lt _ i.isLt]
    exact BitVec.toNat_setWidth_of_le (by decide)

end Sys2Proof.Machine
end

section
/-! PROOFS of the encoding's family (30_encoding.md). First a relation for "the word `c` is a word of the command `i`", field by
field as the formats of R81 have it; the decoder, the encoder, the table of R84 and the illegal words of R85 are each tied to
it once, and the statements follow. -/

namespace Sys2Proof.Machine

/-! ### Words of a command, format by format -/

/-- The operands of `i` are the fields that `c` holds in the format of `i` (R81, R82). -/
def HoldsOperands (c : Word) : Instr → Prop
  | .slice pos width => pos = bitsAt c 8 9 ∧ width = bitsAt c 17 4 + 1
  | .diceStart n => n = bitsAt c 8 16
  | .diceRoll face => face = bitsAt c 8 3
  | .diceMinRolls n => n = bitsAt c 8 16
  | _ => True

/-- `i` is what the opcode and the operand fields of `c` say, whatever its bits of RSV are. -/
structure ReadsAs (c : Word) (i : Instr) : Prop where
  op : bitsAt c 0 8 = (opcode i).toNat
  operands : HoldsOperands c i

/-- The lowest bit of RSV in the format of a command (R81). -/
def reservedLow : Instr → Nat
  | .slice _ _ => 21
  | .diceStart _ => 24
  | .diceRoll _ => 11
  | .diceMinRolls _ => 24
  | _ => 8

/-- `c` is a word of `i`: it reads as `i`, and its RSV field is 0 (R81, R85). -/
structure IsWordOf (c : Word) (i : Instr) : Prop extends ReadsAs c i where
  reserved : bitsAt c (reservedLow i) (32 - reservedLow i) = 0

theorem bitsAt_eq (c : Word) (lo width : Nat) : bitsAt c lo width = c.toNat / 2 ^ lo % 2 ^ width := by
  rw [bitsAt, BitVec.extractLsb'_toNat, Nat.shiftRight_eq_div_pow]

/-- A field's value is in the field's range, so a command that is read off a word is well formed. -/
theorem HoldsOperands.wellFormed {c : Word} {i : Instr} (h : HoldsOperands c i) : WellFormed i := by
  cases i with
  | slice pos width =>
    obtain ⟨rfl, rfl⟩ := h
    simp only [WellFormed, Instr.wellFormed, bitsAt_eq, Bool.and_eq_true, decide_eq_true_eq]
    omega
  | diceStart n | diceRoll n | diceMinRolls n =>
    subst h
    simp only [WellFormed, Instr.wellFormed, bitsAt_eq, decide_eq_true_eq]
    omega
  | nop | checksum | validate | encode | decode | diceFinish => rfl

/-- The fields of a format cover the word: a command has one word. -/
theorem IsWordOf.unique {c d : Word} {i : Instr} (hc : IsWordOf c i) (hd : IsWordOf d i) : c = d := by
  obtain ⟨⟨hco, hcf⟩, hcr⟩ := hc
  obtain ⟨⟨hdo, hdf⟩, hdr⟩ := hd
  apply BitVec.eq_of_toNat_eq
  -- in each format, the value of the word is made of the values of its fields
  cases i <;> (simp only [HoldsOperands, reservedLow, opcode, bitsAt_eq] at *; omega)

/-- The encoder lays the fields out as the formats do (R81, R87). -/
theorem isWordOf_encode {i : Instr} (h : WellFormed i) : IsWordOf (encode i) i := by
  cases i with
  | slice pos width =>
    simp only [WellFormed, Instr.wellFormed, Bool.and_eq_true, decide_eq_true_eq] at h
    refine ⟨⟨?_, ?_, ?_⟩, ?_⟩ <;>
      simp only [reservedLow, encode, opcode, bitsAt_eq, append_toNat, BitVec.toNat_ofNat] <;> omega
  | diceStart n | diceRoll n | diceMinRolls n =>
    simp only [WellFormed, Instr.wellFormed, decide_eq_true_eq] at h
    refine ⟨⟨?_, ?_⟩, ?_⟩ <;>
      simp only [HoldsOperands, reservedLow, encode, opcode, bitsAt_eq, append_toNat, BitVec.toNat_ofNat] <;> omega
  | nop | checksum | validate | encode | decode | diceFinish => exact ⟨⟨by decide, trivial⟩, by decide⟩

/-! ### The decoder -/

theorem reservedFrom_eq_ok {lo : Nat} {c : Word} {i j : Instr} :
    reservedFrom lo c i = .ok j ↔ bitsAt c lo (32 - lo) = 0 ∧ i = j := by
  unfold reservedFrom
  split <;> simp [*]

theorem exists_reservedFrom_eq_error {lo : Nat} {c : Word} {i : Instr} :
    (∃ e, reservedFrom lo c i = .error e) ↔ bitsAt c lo (32 - lo) ≠ 0 := by
  unfold reservedFrom
  split <;> simp [*]

/-- The opcode picks the format, and only the RSV field of the format can make the word illegal (R85). -/
theorem ReadsAs.decode_eq {c : Word} {i : Instr} (h : ReadsAs c i) : decode c = reservedFrom (reservedLow i) c i := by
  obtain ⟨hop, hargs⟩ := h
  unfold decode
  rw [hop]
  cases i with
  | slice pos width => obtain ⟨rfl, rfl⟩ := hargs; rfl
  | diceStart n | diceRoll n | diceMinRolls n => subst hargs; rfl
  | nop | checksum | validate | encode | decode | diceFinish => rfl

/-- Either a word reads as some command, or its opcode is not in the map (R83). -/
theorem decode_cases (c : Word) :
    (∃ i, ReadsAs c i) ∨ (reservedMask (bitsAt c 0 8) = none ∧ decode c = .error .unknownOpcode) := by
  unfold decode
  split
  next h => exact .inl ⟨.nop, h, trivial⟩
  next h => exact .inl ⟨.checksum, h, trivial⟩
  next h => exact .inl ⟨.validate, h, trivial⟩
  next h => exact .inl ⟨.encode, h, trivial⟩
  next h => exact .inl ⟨.decode, h, trivial⟩
  next h => exact .inl ⟨.slice _ _, h, rfl, rfl⟩
  next h => exact .inl ⟨.diceStart _, h, rfl⟩
  next h => exact .inl ⟨.diceRoll _, h, rfl⟩
  next h => exact .inl ⟨.diceFinish, h, trivial⟩
  next h => exact .inl ⟨.diceMinRolls _, h, rfl⟩
  next => exact .inr ⟨by grind [reservedMask], rfl⟩

/-- What the decoder accepts, and as what: the words of commands (R81, R85). -/
theorem decode_eq_ok_iff {c : Word} {i : Instr} : decode c = .ok i ↔ IsWordOf c i := by
  constructor
  · intro h
    rcases decode_cases c with ⟨j, hj⟩ | ⟨-, he⟩
    · rw [hj.decode_eq, reservedFrom_eq_ok] at h
      obtain ⟨hr, rfl⟩ := h
      exact ⟨hj, hr⟩
    · rw [he] at h; cases h
  · intro h
    rw [h.decode_eq, reservedFrom_eq_ok]
    exact ⟨h.reserved, rfl⟩

/-- Settles O2: the word that the encoder lays out is a word of the command, and the decoder accepts it as such. -/
theorem decodeInvertsEncode : Obligations.DecodeInvertsEncode :=
  fun _ h => decode_eq_ok_iff.mpr (isWordOf_encode h)

/-- Settles O3: the word decoded and the word encoded are both words of the one command, which has only one. -/
theorem encodeInvertsDecode : Obligations.EncodeInvertsDecode := by
  intro c i h
  have hc : IsWordOf c i := decode_eq_ok_iff.mp h
  have hw : WellFormed i := hc.operands.wellFormed
  exact ⟨hw, (isWordOf_encode hw).unique hc⟩

/-! ### Masks -/

/-- The mask of a word's bits from `lo` up. -/
def bitsFrom (lo : Nat) : Word := BitVec.allOnes 32 <<< lo

theorem bitsFrom_getLsbD {lo k : Nat} (hk : k < 32) : (bitsFrom lo).getLsbD k = decide (lo ≤ k) := by
  have hsub : k - lo < 32 := by omega
  simp only [bitsFrom, BitVec.getLsbD_shiftLeft, BitVec.getLsbD_allOnes, hk, hsub, decide_true, Bool.true_and,
    Bool.and_true, ← decide_not, Nat.not_lt]

/-- A field that reaches up to bit 31 is 0 when no bit of it is set. -/
theorem and_bitsFrom_eq_zero {c : Word} {lo : Nat} : c &&& bitsFrom lo = 0 ↔ bitsAt c lo (32 - lo) = 0 := by
  rw [bitsAt, ← BitVec.toNat_zero (w := 32 - lo), BitVec.toNat_inj, BitVec.eq_of_getLsbD_eq_iff,
    BitVec.eq_of_getLsbD_eq_iff]
  simp only [BitVec.getLsbD_and, BitVec.getLsbD_extractLsb', BitVec.ofNat_eq_ofNat, BitVec.getLsbD_zero]
  constructor
  · intro h i hi
    have hk : lo + i < 32 := by omega
    simpa only [bitsFrom_getLsbD hk, Nat.le_add_right, hi, decide_true, Bool.and_true, Bool.true_and] using h _ hk
  · intro h k hk
    by_cases hlo : lo ≤ k
    · obtain ⟨i, rfl⟩ := Nat.exists_eq_add_of_le hlo
      have hi : i < 32 - lo := by omega
      have hc : c.getLsbD (lo + i) = false := by simpa only [hi, decide_true, Bool.true_and] using h i hi
      rw [hc, Bool.false_and]
    · simp [bitsFrom_getLsbD hk, hlo]

theorem and_opcodeMask_eq {c : Word} {b : Byte} : c &&& 0xFF = b.setWidth 32 ↔ bitsAt c 0 8 = b.toNat := by
  rw [← BitVec.toNat_inj, and_lowMask_toNat (k := 8) rfl, BitVec.toNat_setWidth_of_le (by decide), bitsAt_eq]
  simp

theorem setWidth_and_opcodeMask (b : Byte) : b.setWidth 32 &&& (0xFF : Word) = b.setWidth 32 := by
  rw [and_opcodeMask_eq, bitsAt_eq, BitVec.toNat_setWidth_of_le (by decide)]
  simpa using b.isLt

/-- No format has OP and RSV overlap (R81). -/
theorem opcodeMask_and_bitsFrom (i : Instr) : (0xFF : Word) &&& bitsFrom (reservedLow i) = 0 := by
  rw [and_bitsFrom_eq_zero]
  cases i <;> rfl

/-- Two disjoint parts of a word compared at once. -/
theorem and_or_eq_iff {n : Nat} {c p x y : BitVec n} (hd : x &&& y = 0) (hp : p &&& x = p) :
    c &&& (x ||| y) = p ↔ c &&& x = p ∧ c &&& y = 0 := by
  constructor
  · intro h
    have hy : p &&& y = 0 := by rw [← hp, BitVec.and_assoc, hd]; exact BitVec.and_zero
    rw [← h, BitVec.and_assoc, BitVec.and_or_distrib_right] at hp hy
    rw [hd, BitVec.and_self] at hy
    rw [BitVec.and_comm y, hd, BitVec.and_self, h] at hp
    exact ⟨by simpa using hp, by simpa using hy⟩
  · rintro ⟨hx, hy⟩
    rw [BitVec.and_or_distrib_left, hx, hy, BitVec.ofNat_eq_ofNat, BitVec.or_zero]

/-! ### The match and mask table -/

/-- A row tests the opcode and the RSV field of its command's format, and takes the operands from the word (R84). -/
theorem matchTable_row {r : MatchRow} (h : r ∈ matchTable) (c : Word) :
    r.pattern = (opcode (r.command c)).setWidth 32 ∧ r.mask = 0xFF ||| bitsFrom (reservedLow (r.command c)) ∧
      HoldsOperands c (r.command c) := by
  have hN : (0xFFFFFFFF : Word) = 0xFF ||| bitsFrom 8 := by decide
  have hS : (0xFFE000FF : Word) = 0xFF ||| bitsFrom 21 := by decide
  have hT : (0xFF0000FF : Word) = 0xFF ||| bitsFrom 24 := by decide
  have hR : (0xFFFFF8FF : Word) = 0xFF ||| bitsFrom 11 := by decide
  revert r
  simp only [matchTable, List.forall_mem_cons]
  exact ⟨⟨rfl, hN, trivial⟩, ⟨rfl, hN, trivial⟩, ⟨rfl, hN, trivial⟩, ⟨rfl, hN, trivial⟩, ⟨rfl, hN, trivial⟩,
    ⟨rfl, hS, rfl, rfl⟩, ⟨rfl, hT, rfl⟩, ⟨rfl, hR, rfl⟩, ⟨rfl, hN, trivial⟩, ⟨rfl, hT, rfl⟩, nofun⟩

/-- Every command has its row (R83, R84). -/
theorem HoldsOperands.exists_row {c : Word} {i : Instr} (h : HoldsOperands c i) : ∃ r ∈ matchTable, r.command c = i := by
  cases i with
  | slice pos width => obtain ⟨rfl, rfl⟩ := h; simp [matchTable]
  | diceStart n | diceRoll n | diceMinRolls n => subst h; simp [matchTable]
  | nop | checksum | validate | encode | decode | diceFinish => simp [matchTable]

/-- Fitting a row is being a word of its command. -/
theorem fits_iff {r : MatchRow} (h : r ∈ matchTable) (c : Word) : r.fits c = true ↔ IsWordOf c (r.command c) := by
  obtain ⟨hp, hm, ha⟩ := matchTable_row h c
  rw [MatchRow.fits, beq_iff_eq, hp, hm, and_or_eq_iff (opcodeMask_and_bitsFrom _) (setWidth_and_opcodeMask _),
    and_opcodeMask_eq, and_bitsFrom_eq_zero]
  exact ⟨fun ⟨ho, hr⟩ => ⟨⟨ho, ha⟩, hr⟩, fun h => ⟨h.op, h.reserved⟩⟩

/-- The decoder is the procedure of R86: a row that fits gives the decoded command, and a decoded command has its row. -/
theorem decode_toOption (c : Word) : (decode c).toOption = decodeByTable c := by
  unfold decodeByTable
  cases hf : matchTable.find? (·.fits c) with
  | some r =>
    have hfit : r.fits c = true := List.find?_some (p := fun r : MatchRow => r.fits c) hf
    have hw : IsWordOf c (r.command c) := (fits_iff (List.mem_of_find?_eq_some hf) c).mp hfit
    rw [decode_eq_ok_iff.mpr hw]; rfl
  | none =>
    rw [List.find?_eq_none] at hf
    cases hd : decode c with
    | error e => rfl
    | ok i =>
      have hw : IsWordOf c i := decode_eq_ok_iff.mp hd
      obtain ⟨r, hr, rfl⟩ := hw.operands.exists_row
      exact absurd ((fits_iff hr c).mpr hw) (hf r hr)

/-- What a word fits shows in its opcode. -/
theorem fits_pattern {r : MatchRow} (h : r ∈ matchTable) {c : Word} (hf : r.fits c = true) : r.pattern = c &&& 0xFF := by
  obtain ⟨hp, -, -⟩ := matchTable_row h c
  rw [hp, and_opcodeMask_eq.mpr ((fits_iff h c).mp hf).op]

theorem patterns_nodup : (matchTable.map (·.pattern)).Nodup := by decide

/-- Settles O4: two rows that fit one word test for one opcode, and no opcode stands twice in the table. -/
theorem decodeFollowsMatchTable : Obligations.DecodeFollowsMatchTable := by
  refine ⟨decode_toOption, fun c j k hj hk hfj hfk => ?_⟩
  have hp : matchTable[j].pattern = matchTable[k].pattern :=
    (fits_pattern (List.getElem_mem hj) hfj).trans (fits_pattern (List.getElem_mem hk) hfk).symm
  exact (patterns_nodup.getElem_inj_iff (hi := by simpa using hj) (hj := by simpa using hk)).mp (by simpa using hp)

/-! ### Illegal words -/

/-- The bits of RSV by opcode are those of the format of the command with that opcode (R81, R83). -/
theorem reservedMask_opcode (i : Instr) : reservedMask (opcode i).toNat = some (bitsFrom (reservedLow i)) := by
  cases i with
  | slice => exact (by decide : reservedMask 0x05 = some (bitsFrom 21))
  | diceStart => exact (by decide : reservedMask 0x10 = some (bitsFrom 24))
  | diceRoll => exact (by decide : reservedMask 0x11 = some (bitsFrom 11))
  | diceMinRolls => exact (by decide : reservedMask 0x13 = some (bitsFrom 24))
  | nop | checksum | validate | encode | decode | diceFinish => decide

/-- The decoder rejects exactly the words R85 calls illegal. -/
theorem illegalWord_iff (c : Word) : IllegalWord c ↔ ∃ e, decode c = .error e := by
  have hop : c.toNat % 256 = bitsAt c 0 8 := by rw [bitsAt_eq]; simp
  rw [IllegalWord, hop]
  rcases decode_cases c with ⟨i, hi⟩ | ⟨hm, he⟩
  · rw [hi.op, reservedMask_opcode, hi.decode_eq, exists_reservedFrom_eq_error, Ne, ← and_bitsFrom_eq_zero]
    simp
  · exact ⟨fun _ => ⟨_, he⟩, fun _ => .inl hm⟩

/-- The engine's turn comes next when it is scheduled or when no turn is (R200; log 1). -/
theorem step_engineNext {s : State} (h : s.turns = [] ∨ ∃ rest, s.turns = .engine :: rest) :
    step s = engineTurn (s.withTurns s.turns.tail) := by
  rcases step_cases s with ⟨-, he⟩ | ⟨a, rest, ht, -⟩ | ⟨b, rest, ht, -⟩
  · exact he
  all_goals simp [ht] at h

/-- Settles O5: the issue is a `CMD` write to the idle block, and an illegal word in flight only completes. -/
theorem illegalWordsCompleteAsIllegal : Obligations.IllegalWordsCompleteAsIllegal := by
  refine fun c => ⟨illegalWord_iff c, fun s rest _ hi ht => ?issue, fun s hc hf ht => ?complete⟩
  case issue =>
    obtain ⟨hb, hp⟩ := hi
    have hw : hostWrite (Reg.offset .cmd) c ((s.withTurns rest).answer none) = ((s.withTurns rest).answer none).issue c :=
      hostWrite_idle hb rfl nofun nofun
    exact ⟨_, (step_hostW hp rfl ht).trans (congrArg _ hw), rfl, rfl, hp⟩
  case complete =>
    obtain ⟨e, he⟩ := (illegalWord_iff c).mp hc
    refine ⟨_, ?_, completesWith_self .illegalCommand _, ⟨rfl, rfl⟩⟩
    rw [step_engineNext ht, engineTurn_inFlight (s := s.withTurns s.turns.tail) hf, completeWord_illegal he]

/-- Settles O1: each word evaluates. -/
theorem encodingExamplesDecode : Obligations.EncodingExamplesDecode := by
  unfold Obligations.EncodingExamplesDecode
  decide

end Sys2Proof.Machine
end

section
/-! PROOFS of the checksum unit's family (40_checksum.md): the message that is hashed, what CHECKSUM leaves, and the length
verdict and the weak-entropy flags of VALIDATE. -/

namespace Sys2Proof.Machine

/-! ### The hashed message and the checksum registers -/

/-- The bytes of a packed string are read off its words (R10, R63). -/
theorem bytes_str {k : Nat} (x : Vector Word k) (n : Nat) :
    bytes (str x n) = (List.range (n / 8)).map (packedByte x) := by
  apply List.ext_getElem (by simp)
  intro j h _
  have hb := bytes_str_getD x (n := n) (j := j) (by simpa using h)
  rw [List.getD_eq_getElem _ _ h] at hb
  simpa using hb

/-- The message hashed is the first L bits of ENT, byte by byte (R109). -/
theorem bytes_entropy (s : State) : bytes (entropy s) = entropyMessage s := bytes_str s.ent (entropyLength s)

/-- The checksum is written to DIGEST and CSUM only (R108, R112). -/
theorem readReg_withChecksum {r : Reg} (h : r ∉ Reg.csum :: digestRegs) (hc : Vector Word 8 × BitString) (s : State) :
    readReg (s.withChecksum hc) r = readReg s r := by
  cases r with
  | csum => simp at h
  | digest i =>
    have hi : 8 ≤ i := by simpa using h
    exact (toList_getD_of_le _ hi).trans (toList_getD_of_le _ hi).symm
  | _ => rfl

/-- Settles O11: the two lengths are the two branches of CHECKSUM. -/
theorem checksumHashesEntropy : Obligations.ChecksumHashesEntropy := by
  refine ⟨by decide, fun s => ⟨fun hl => ?accepted, fun hl => ?rejected⟩⟩
  case accepted =>
    refine ⟨_, execChecksum_good (badEntropyLength_eq_false.mpr hl), ?_, ⟨rfl, rfl⟩, ?_⟩
    · exact completesWith_complete rfl rfl rfl rfl rfl rfl fun _ _ h => readReg_withChecksum h _ s
    · have h := checksumOf_complete (u := s.withChecksum (checksum (entropy s))) .noError (entropy_length_le hl) rfl rfl
      rwa [bytes_entropy, entropy, str_length] at h
  case rejected =>
    have hb : badEntropyLength (entropyLength s) = true := by simpa using mt badEntropyLength_eq_false.mp hl
    exact ⟨_, execChecksum_bad hb, completesWith_self _ s, keepsHidden_self _ s⟩

/-! ### The verdicts -/

/-- The order of R113: the multiple of 32, then the lower bound, then the upper one. -/
theorem lengthVerdict_spec (n : Nat) :
    (n % 32 ≠ 0 → lengthVerdict n = 1) ∧ (n % 32 = 0 → n < 128 → lengthVerdict n = 2) ∧
    (n % 32 = 0 → 256 < n → lengthVerdict n = 3) ∧
    (n % 32 = 0 → 128 ≤ n → n ≤ 256 → lengthVerdict n = 0) := by
  unfold lengthVerdict
  refine ⟨fun h => if_pos h, fun h hlo => ?short, fun h hhi => ?long, fun h hlo hhi => ?standard⟩
  case short => rw [if_neg (not_not.mpr h), if_pos hlo]
  case long => rw [if_neg (not_not.mpr h), if_neg (by omega), if_pos hhi]
  case standard => rw [if_neg (not_not.mpr h), if_neg (by omega), if_neg (by omega)]

theorem allZeros_str {k : Nat} (x : Vector Word k) (n : Nat) :
    allZeros (str x n) = true ↔ ∀ p < n, packedBit x p = false := by simp [allZeros, str]

theorem allOnes_str {k : Nat} (x : Vector Word k) (n : Nat) :
    allOnes (str x n) = true ↔ ∀ p < n, packedBit x p = true := by simp [allOnes, str]

/-- The verdicts are written to FLAGS only (R116). -/
theorem readReg_withVerdicts {r : Reg} (h : r ∉ [Reg.flags]) (s : State) : readReg s.withVerdicts r = readReg s r := by
  cases r with
  | flags => simp at h
  | _ => rfl

/-- Above 256 bits the entropy is not looked at, and WEAK_NA says so (R114, R116). -/
theorem weakFlags_of_long {s : State} (h : 256 < entropyLength s) : s.withVerdicts.flags.weakZero = false ∧
    s.withVerdicts.flags.weakOnes = false ∧ s.withVerdicts.flags.weakNa = true := by
  simp [Config.maxEntBits, h]

/-- Up to 256 bits the weak flags are those of the first L bits of ENT (R114, R116). -/
theorem weakFlags_of_short {s : State} (h : entropyLength s ≤ 256) :
    (s.withVerdicts.flags.weakZero = true ↔ ∀ p < entropyLength s, packedBit s.ent p = false) ∧
    (s.withVerdicts.flags.weakOnes = true ↔ ∀ p < entropyLength s, packedBit s.ent p = true) ∧
    s.withVerdicts.flags.weakNa = false := by
  have hs : decide (entropyLength s > Config.maxEntBits) = false := by simpa [Config.maxEntBits] using h
  simp only [State.withVerdicts_flags_weakZero, State.withVerdicts_flags_weakOnes, State.withVerdicts_flags_weakNa, hs,
    Bool.not_false, Bool.true_and, entropy, allZeros_str, allOnes_str, and_self]

/-- Settles O12: VALIDATE has one way to complete, and each flag it writes is one of the verdicts. -/
theorem validateClassifiesEntropy : Obligations.ValidateClassifiesEntropy := by
  refine ⟨by decide, fun s => ⟨_, execValidate_eq s, ?_, ⟨rfl, rfl⟩, ?_⟩⟩
  · exact completesWith_complete rfl rfl rfl rfl rfl rfl fun _ _ h => readReg_withVerdicts h s
  · obtain ⟨unaligned, short, long, standard⟩ := lengthVerdict_spec (entropyLength s)
    exact ⟨unaligned, short, long, standard, weakFlags_of_long, weakFlags_of_short, rfl, rfl⟩

end Sys2Proof.Machine
end

section
/-! PROOFS of the grouper's family (41_grouper.md). First parts of bit strings and their groups; then, for each command, the
registers it leaves alone and the bits it writes, from which the statements follow. -/

namespace Sys2Proof.Machine

/-! ### Parts of a string -/

theorem take_getD (s : BitString) (n p : Nat) : (s.take n).getD p false = (decide (p < n) && s.getD p false) := by
  by_cases h : p < n <;> simp [h]

theorem substr_getD (s : BitString) {a b p : Nat} (h : p < b - a) :
    (substr s a b).getD p false = s.getD (a + p) false := by
  simp [substr, h]

/-- A part that lies in the second of two strings (R6). -/
theorem substr_append_right (a s : BitString) (p q : Nat) :
    substr (a ++ s) (a.length + p) (a.length + q) = substr s p q := by
  rw [substr, List.drop_length_add_append, Nat.add_sub_add_left]; rfl

theorem field_zero {a : BitString} {w : Nat} (h : a.length = w) (s : BitString) : field (a ++ s) 0 w = uint a := by
  subst h; simp [field, substr]

theorem field_append_right (a s : BitString) (p w : Nat) : field (a ++ s) (a.length + p) w = field s p w := by
  rw [field, Nat.add_assoc, substr_append_right]; rfl

/-! ### Grouping and ungrouping -/

/-- The first eleven bits are the first index, and the rest is grouped by itself (R131). -/
theorem group_append {a : BitString} (h : a.length = 11) (s : BitString) : group (a ++ s) = uint a :: group s := by
  have hlen : (a ++ s).length / Config.indexBits = s.length / Config.indexBits + 1 := by
    rw [List.length_append, h, Nat.add_comm]; exact Nat.add_div_right _ (by decide)
  have hrest (i : Nat) : field (a ++ s) (Config.indexBits * (i + 1)) Config.indexBits =
      field s (Config.indexBits * i) Config.indexBits := by
    rw [← field_append_right a s, h, Nat.mul_add_one, Nat.add_comm]
  rw [group, hlen, List.range_succ_eq_map, List.map_cons, List.map_map, Nat.mul_zero, field_zero h]
  exact congrArg _ (List.map_congr_left fun i _ => hrest i)

theorem group_ungroup (xs : List (BitVec 11)) : group (ungroup xs) = xs.map BitVec.toNat := by
  induction xs with
  | nil => rfl
  | cons x xs ih =>
    rw [ungroup_cons, group_append (bitsOf_length 11 _), uint_bitsOf, Nat.mod_eq_of_lt x.isLt, ih, List.map_cons]

/-- The bits of the index of eleven bits are those bits (R131, R133). -/
theorem bitsOf_ofNat_uint {a : BitString} (h : a.length = 11) : bitsOf 11 (BitVec.ofNat 11 (uint a)).toNat = a := by
  have hlt : uint a < 2 ^ 11 := h ▸ uint_lt a
  rw [BitVec.toNat_ofNat, Nat.mod_eq_of_lt hlt, ← h, bitsOf_uint]

/-- By induction on the number of whole groups: each gives back its own bits. -/
theorem ungroup_group (s : BitString) :
    ungroup ((group s).map (BitVec.ofNat 11)) = s.take (11 * (s.length / 11)) := by
  induction hn : s.length / 11 generalizing s with
  | zero =>
    have hg : group s = [] := List.eq_nil_of_length_eq_zero (by rw [group_length, hn])
    rw [hg]; rfl
  | succ n ih =>
    have hfirst : (s.take 11).length = 11 := by rw [List.length_take]; omega
    have hrest := ih (s.drop 11) (by rw [List.length_drop]; omega)
    have hsplit : group s = uint (s.take 11) :: group (s.drop 11) := by
      rw [← group_append hfirst, List.take_append_drop]
    rw [hsplit, List.map_cons, ungroup_cons, bitsOf_ofNat_uint hfirst, hrest, Nat.mul_add_one, Nat.add_comm,
      List.take_add]

/-- Settles O56: both directions go group by group. -/
theorem groupInvertsUngroup : Obligations.GroupInvertsUngroup := ⟨group_ungroup, ungroup_group⟩

/-! ### SLICE (R143) -/

/-- SLICE writes RESULT only. -/
theorem readReg_withField {r : Reg} (h : r ∉ [Reg.result]) (pos width : Nat) (s : State) :
    readReg (s.withField pos width) r = readReg s r := by
  cases r with
  | result => simp at h
  | _ => rfl

/-- The word of a SLICE, its fields placed by shifts (R81). -/
theorem decode_sliceWord {pos width : Nat} (h : WellFormed (.slice pos width)) :
    decode (BitVec.ofNat 32 (0x05 ||| pos <<< 8 ||| (width - 1) <<< 17)) = .ok (.slice pos width) := by
  simp only [WellFormed, Instr.wellFormed, Bool.and_eq_true, decide_eq_true_eq] at h
  have hlow : 0x05 ||| pos <<< 8 = pos * 2 ^ 8 + 0x05 := by
    rw [Nat.lor_comm, ← Nat.shiftLeft_add_eq_or_of_lt (by decide), Nat.shiftLeft_eq]
  have hword : 0x05 ||| pos <<< 8 ||| (width - 1) <<< 17 = (width - 1) * 2 ^ 17 + (pos * 2 ^ 8 + 0x05) := by
    rw [hlow, Nat.lor_comm, ← Nat.shiftLeft_add_eq_or_of_lt (by omega), Nat.shiftLeft_eq]
  rw [decode_eq_ok_iff, hword]
  refine ⟨⟨?_, ?_, ?_⟩, ?_⟩ <;>
    simp only [reservedLow, opcode, bitsAt_eq, BitVec.toNat_ofNat, BitVec.reduceToNat] <;> omega

/-- Bit `k` of a field in a register (R130, R143). -/
theorem ofNat_field_getLsbD (s : BitString) {n p w k : Nat} (h : p + w ≤ s.length) (hk : k < n) :
    (BitVec.ofNat n (field s p w)).getLsbD k = (decide (k < w) && s.getD (p + (w - 1 - k)) false) := by
  have hl : (substr s p (p + w)).length = w := by rw [substr_length h]; omega
  rw [field, ofNat_uint_getLsbD _ hk, hl]
  by_cases hw : k < w
  · rw [substr_getD s (by omega)]
  · simp [hw]

/-- Settles O17: the field's bounds decide which of the two ways SLICE completes. -/
theorem sliceReadsField : Obligations.SliceReadsField := by
  refine fun s pos width hwf => ⟨decode_sliceWord hwf, fun hin => ?inside, fun hout => ?past⟩
  case inside =>
    refine ⟨_, execSlice_good hin, ?_, ⟨rfl, rfl⟩, fun k hk => ofNat_field_getLsbD s.cb hin hk⟩
    exact completesWith_complete rfl rfl rfl rfl rfl rfl fun _ _ h => readReg_withField h pos width s
  case past => exact ⟨_, execSlice_bad hout, completesWith_self _ s, keepsHidden_self _ s⟩

/-! ### ENCODE (R135) -/

/-- ENCODE writes DIGEST, CSUM, the word count, the indices and, through CB, its length. -/
theorem readReg_withEncoded {r : Reg} (h : r ∉ Reg.csum :: .wordCount :: .cbLen :: (digestRegs ++ idxRegs))
    (s : State) : readReg s.withEncoded r = readReg s r := by
  cases r with
  | csum | wordCount | cbLen => simp at h
  | digest i =>
    have hi : 8 ≤ i := by simpa [idxRegs] using h
    exact (toList_getD_of_le _ hi).trans (toList_getD_of_le _ hi).symm
  | idx i =>
    have hi : 24 ≤ i := by simpa [digestRegs] using h
    exact congrArg (BitVec.setWidth 32) ((toList_getD_of_le _ hi).trans (toList_getD_of_le _ hi).symm)
  | _ => rfl

theorem combinedBits_getD_entropy (s : State) {p : Nat} (h : p < entropyLength s) :
    (combinedBits s).getD p false = packedBit s.ent p := by
  rw [combinedBits, List.getD_append _ _ _ _ (by simpa [entropy] using h), entropy, str_getD _ h]

theorem combinedBits_getD_checksum {s : State} (hl : LengthAccepted s) {p : Nat} (h : p < entropyLength s / 32) :
    (combinedBits s).getD (entropyLength s + p) false = packedBit (checksum (entropy s)).1 p := by
  have hel : (entropy s).length = entropyLength s := str_length _ _
  rw [combinedBits, List.getD_append_right _ _ _ _ (by omega), checksum_bits (entropy_length_le hl), hel,
    Nat.add_sub_cancel_left, str_getD _ h]
  rfl

/-- At most 24 words fit the 264 combined bits (R5, R110). -/
theorem withEncoded_wordCount_toNat {s : State} (hl : LengthAccepted s) :
    s.withEncoded.wordCount.toNat = (combinedBits s).length / 11 := by
  have hc := combinedBits_length hl.2
  have h256 : entropyLength s ≤ 256 := hl.2
  rw [State.withEncoded_wordCount, group_length, BitVec.toNat_ofNat]
  omega

/-- Each index up to the word count is the chunk of its eleven combined bits (R131, R135). -/
theorem withEncoded_idx_getD {s : State} {i : Nat} (hl : LengthAccepted s) (h : i < s.withEncoded.wordCount.toNat) :
    s.withEncoded.idx.toList.getD i 0 = BitVec.ofNat 11 (field (combinedBits s) (11 * i) 11) := by
  have h24 : s.withEncoded.wordCount.toNat ≤ 24 := by
    have h256 : entropyLength s ≤ 256 := hl.2
    rw [withEncoded_wordCount_toNat hl, combinedBits_length hl.2]; omega
  rw [State.withEncoded_idx, tabulate_getD _ _ (by omega), group_getD _ (withEncoded_wordCount_toNat hl ▸ h)]

theorem withEncoded_idx_getD_past {s : State} {i : Nat} (hl : LengthAccepted s) (h24 : i < 24)
    (h : s.withEncoded.wordCount.toNat ≤ i) : s.withEncoded.idx.toList.getD i 0 = 0 := by
  rw [withEncoded_wordCount_toNat hl, ← group_length] at h
  rw [State.withEncoded_idx, tabulate_getD _ _ h24, List.getD_eq_default _ _ h]
  rfl

/-- An index below the word count is a chunk inside the combined bits. -/
theorem chunk_le_combinedBits {s : State} {i : Nat} (hl : LengthAccepted s) (h : i < s.withEncoded.wordCount.toNat) :
    11 * i + 11 ≤ (combinedBits s).length := by
  rw [withEncoded_wordCount_toNat hl] at h; omega

theorem exec_encode_bad {s : State} (hl : ¬ LengthAccepted s) : exec .encode s = .next (s.complete .invalidArgument) :=
  execEncode_bad (by simpa using mt badEntropyLength_eq_false.mp hl)

theorem exec_encode_good {s : State} (hl : LengthAccepted s) :
    exec .encode s = .next (s.withEncoded.complete .noError) :=
  execEncode_good (badEntropyLength_eq_false.mpr hl)

/-- Settles O13: the two lengths are the two ways ENCODE completes. -/
theorem encodeProducesIndices : Obligations.EncodeProducesIndices := by
  refine ⟨by decide, fun s => ⟨fun hl => ?accepted, fun hl => ?rejected⟩⟩
  case accepted =>
    have hel : (entropy s).length = entropyLength s := str_length _ _
    refine ⟨_, exec_encode_good hl, ?frame, rfl, ?checksum, combinedBits_length hl.2,
      fun _ hp => combinedBits_getD_entropy s hp, fun _ hp => combinedBits_getD_checksum hl hp,
      (withEncoded_wordCount_toNat hl).trans (by rw [combinedBits_length hl.2]), ?bits,
      fun _ h24 h => withEncoded_idx_getD_past hl h24 h⟩
    case frame => exact completesWith_complete rfl rfl rfl rfl rfl rfl fun _ _ h => readReg_withEncoded h s
    case checksum =>
      have h := checksumOf_complete (u := s.withEncoded) .noError (entropy_length_le hl) rfl rfl
      rwa [bytes_entropy, hel] at h
    case bits =>
      intro i hi b hb
      have hbit := ofNat_field_getLsbD (n := 11) (k := 10 - b) _ (chunk_le_combinedBits hl hi) (by omega)
      rw [State.complete_idx, withEncoded_idx_getD hl hi, hbit, State.complete_cb, State.withEncoded_cb,
        decide_eq_true (by omega), Bool.true_and]
      congr 2; omega
  case rejected => exact ⟨_, exec_encode_bad hl, completesWith_self _ s, keepsHidden_self _ s⟩

/-- A chunk of eleven bits is the same number in an index and in RESULT. -/
theorem setWidth_ofNat_field (s : BitString) (p : Nat) :
    (BitVec.ofNat 11 (field s p 11)).setWidth 32 = BitVec.ofNat 32 (field s p 11) := by
  have h := field_lt s p 11
  apply BitVec.eq_of_toNat_eq
  rw [BitVec.toNat_setWidth, BitVec.toNat_ofNat, BitVec.toNat_ofNat, Nat.mod_eq_of_lt h]

/-- Settles O18: index `i` and the slice are the same field of the combined bits. -/
theorem sliceAfterEncodeReadsIndex : Obligations.SliceAfterEncodeReadsIndex := by
  intro s t i he herr hi
  by_cases hl : LengthAccepted s
  case neg => rw [exec_encode_bad hl] at he; cases he; cases herr
  case pos =>
    rw [exec_encode_good hl] at he; cases he
    refine ⟨_, execSlice_good (chunk_le_combinedBits hl hi), rfl, ?_⟩
    rw [State.complete_idx, withEncoded_idx_getD hl hi, setWidth_ofNat_field]
    rfl

/-! ### DECODE (R137) -/

theorem readReg_withDecoded {r : Reg} (h : r ∉ [Reg.cbLen, .csumSupplied, .flags]) (s : State) :
    readReg s.withDecoded r = readReg s r := by
  cases r with
  | cbLen | csumSupplied | flags => simp at h
  | _ => rfl

theorem readReg_withRechecked {r : Reg} (h : r ∉ Reg.cbLen :: .csumSupplied :: .flags :: .csum :: digestRegs)
    (s : State) : readReg s.withRechecked r = readReg s r := by
  have hc : r ∉ Reg.csum :: digestRegs := by simp_all
  have hd : r ∉ [Reg.cbLen, .csumSupplied, .flags] := by simp_all
  exact (readReg_withChecksum hc _ _).trans (readReg_withDecoded hd s)

theorem readReg_withRecovered {r : Reg}
    (h : r ∉ Reg.cbLen :: .csumSupplied :: .flags :: .csum :: .entLen :: (digestRegs ++ entRegs)) (s : State) :
    readReg s.withRecovered r = readReg s r := by
  have hr : r ∉ Reg.cbLen :: .csumSupplied :: .flags :: .csum :: digestRegs := by simp_all
  refine Eq.trans ?_ (readReg_withRechecked hr s)
  cases r with
  | flags | entLen => simp at h
  | ent i =>
    have hi : 8 ≤ i := by simpa [digestRegs] using h
    exact (toList_getD_of_le _ hi).trans (toList_getD_of_le _ hi).symm
  | _ => rfl

/-- How a DECODE of up to 24 words ends (R137): at the check of the split, at the check of the checksum (R136), or with the
entropy recovered. -/
inductive DecodeEnds (s : State) : ErrCode → State → Prop
  | split (he : decodedLength s % 8 ≠ 0) : DecodeEnds s .invalidArgument s.withDecoded
  | mismatch (he : decodedLength s % 8 = 0) (hm : suppliedChecksum s ≠ (checksum (decodedEntropy s)).2) :
      DecodeEnds s .checksumMismatch s.withRechecked
  | recovered (he : decodedLength s % 8 = 0) (hm : suppliedChecksum s = (checksum (decodedEntropy s)).2) :
      DecodeEnds s .noError s.withRecovered

theorem exec_decode_long {s : State} (h : 24 < s.wordCount.toNat) :
    exec .decode s = .next (s.complete .invalidArgument) := execDecode_long h

theorem exec_decode_short {s : State} (h : s.wordCount.toNat ≤ 24) :
    ∃ code u, exec .decode s = .next (State.complete code u) ∧ DecodeEnds s code u := by
  by_cases he : decodedLength s % 8 = 0
  · by_cases hm : suppliedChecksum s = (checksum (decodedEntropy s)).2
    · exact ⟨_, _, execDecode_good h he hm, .recovered he hm⟩
    · exact ⟨_, _, execDecode_mismatch h he hm, .mismatch he hm⟩
  · exact ⟨_, _, execDecode_odd h he, .split he⟩

section
variable {s u : State} {code : ErrCode}

theorem DecodeEnds.cb_eq (h : DecodeEnds s code u) : u.cb = decodedBits s := by cases h <;> rfl

theorem DecodeEnds.csumSupplied_eq (h : DecodeEnds s code u) :
    u.csumSupplied = ChecksumReg.ofBits (suppliedChecksum s) := by cases h <;> rfl

theorem DecodeEnds.atypical_eq (h : DecodeEnds s code u) :
    u.flags.atypical = !standardWordCount (mnemonicLength s) := by cases h <;> rfl

theorem DecodeEnds.effect (h : DecodeEnds s code u) (hw : s.wordCount.toNat ≤ 24) : Effect s .decode code u := by
  cases h with
  | split => exact .decodeSplit hw
  | mismatch => exact .decodeMismatch hw
  | recovered => exact .decodeMatch hw

end

theorem decodedBits_getD (s : State) {i b : Nat} (hi : i < s.wordCount.toNat) (hb : b < 11) :
    (decodedBits s).getD (11 * i + b) false = (s.idx.toList.getD i 0).getLsbD (10 - b) := by
  rw [decodedBits, ungroup_getD _ _ hb, mnemonicIndices, mnemonicLength, List.getD_eq_getElem?_getD,
    List.getElem?_take_of_lt hi, ← List.getD_eq_getElem?_getD]

theorem ChecksumReg.ofBits_len {c : BitString} (h : c.length ≤ 8) : (ChecksumReg.ofBits c).len.toNat = c.length := by
  rw [ChecksumReg.ofBits, BitVec.toNat_ofNat]; omega

section
variable {s : State} (hw : s.wordCount.toNat ≤ 24)
include hw

/-- The supplied checksum ends at the last decoded bit (R29, R137). -/
theorem suppliedChecksum_value_getLsbD {k : Nat} (hk : k < 8) :
    (ChecksumReg.ofBits (suppliedChecksum s)).value.getLsbD k =
      (decide (k < (suppliedChecksum s).length) && (decodedBits s).getD (11 * s.wordCount.toNat - 1 - k) false) := by
  have hl := suppliedChecksum_length hw
  rw [ChecksumReg.ofBits, ofNat_uint_getLsbD _ hk]
  by_cases h : k < (suppliedChecksum s).length
  · have hpos : decodedLength s + ((suppliedChecksum s).length - 1 - k) = 11 * s.wordCount.toNat - 1 - k := by omega
    rw [← hpos]
    exact congrArg _ (substr_getD _ (by rw [mnemonicLength]; omega))
  · simp [h]

/-- DIGEST and CSUM once the recovered entropy is hashed (R137). -/
theorem checksumOf_decodedEntropy {u : State} (code : ErrCode) (hd : u.digest = (checksum (decodedEntropy s)).1)
    (hc : u.csum = ChecksumReg.ofBits (checksum (decodedEntropy s)).2) :
    ChecksumOf (bytes ((decodedBits s).take (decodedLength s))) (decodedLength s) (u.complete code) := by
  have hl := decodedEntropy_length hw
  have h := checksumOf_complete code (hl ▸ decodedLength_le hw) hd hc
  rw [hl] at h
  exact h

theorem withRecovered_entLen_toNat : s.withRecovered.entLen.toNat = decodedLength s := by
  have h := decodedLength_le hw
  rw [State.withRecovered_entLen, BitVec.toNat_ofNat]; omega

end

/-- Settles O14: more than 24 words end DECODE at once, and up to 24 words end it in one of three ways. -/
theorem decodeRecoversEntropy : Obligations.DecodeRecoversEntropy := by
  refine ⟨by decide, fun s => ⟨fun hw => ?long, fun hw => ?short⟩⟩
  case long => exact ⟨_, exec_decode_long hw, completesWith_self _ s, keepsHidden_self _ s⟩
  case short =>
    obtain ⟨code, u, hu, hends⟩ := exec_decode_short hw
    obtain ⟨-, -, hacc⟩ := (hends.effect hw).session_eq (by simp) (by simp)
    obtain ⟨hlenv, hzero, hones, hna⟩ := (hends.effect hw).verdicts_eq (by simp)
    have hlen := ChecksumReg.ofBits_len (suppliedChecksum_length_le hw)
    refine ⟨_, hu, hacc, ?_, ?_, ?_, ?_, ?_, hlenv, hzero, hones, hna, fun ho => ?split, fun he => ?whole⟩
    · rw [State.complete_cb, hends.cb_eq, decodedBits_length hw]
    · intro i hi b hb
      rw [State.complete_cb, hends.cb_eq, decodedBits_getD s hi hb]
    · rw [State.complete_csumSupplied, hends.csumSupplied_eq, hlen, suppliedChecksum_length hw]; rfl
    · intro k hk
      rw [State.complete_csumSupplied, State.complete_cb, hends.csumSupplied_eq, hends.cb_eq, hlen,
        suppliedChecksum_value_getLsbD hw hk]
    · simp [hends.atypical_eq, standardWordCount, mnemonicLength]
    case split =>
      cases hends with
      | split =>
        exact ⟨completesWith_complete rfl rfl rfl rfl rfl rfl fun _ _ h => readReg_withDecoded h s, rfl⟩
      | mismatch he | recovered he => exact absurd he ho
    case whole =>
      cases hends with
      | split ho => exact absurd he ho
      | mismatch _ hm =>
        refine ⟨checksumOf_decodedEntropy hw _ rfl rfl, fun _ => ⟨?_, rfl⟩, fun h => ?_⟩
        · exact completesWith_complete rfl rfl rfl rfl rfl rfl fun _ _ h => readReg_withRechecked h s
        · exact absurd ((withRechecked_csum_eq hw).mp h) hm
      | recovered _ hm =>
        refine ⟨checksumOf_decodedEntropy hw _ rfl rfl, fun h => ?_, fun _ => ⟨?_, rfl, ?_, fun p hp => ?_⟩⟩
        · exact absurd ((withRechecked_csum_eq hw).mpr hm) h
        · exact completesWith_complete rfl rfl rfl rfl rfl rfl fun _ _ h => readReg_withRecovered h s
        · exact withRecovered_entLen_toNat hw
        · exact (packedBit_put _ hp).trans (take_getD (decodedBits s) (decodedLength s) p)

/-- Settles O16: a DECODE that reports no error has packed the entropy part of the decoded bits into ENT. -/
theorem decodedEntropyExcludesChecksum : Obligations.DecodedEntropyExcludesChecksum := by
  intro s t hd herr
  by_cases hw : s.wordCount.toNat ≤ 24
  case neg => rw [exec_decode_long (Nat.not_le.mp hw)] at hd; cases hd; cases herr
  case pos =>
    obtain ⟨code, u, hu, hends⟩ := exec_decode_short hw
    rw [hu] at hd; cases hd
    cases hends with
    | split | mismatch => cases herr
    | recovered =>
      have hl := decodedEntropy_length hw
      rw [State.complete_ent, State.complete_entLen, withRecovered_entLen_toNat hw, State.withRecovered_ent, ← hl]
      exact ⟨str_put (hl ▸ decodedLength_le hw), fun p h _ => packedBit_put_of_le h⟩

end Sys2Proof.Machine
end

section
/-! PROOFS of the die-roll sampler's family (42_dice.md): the words of its commands, the registers each of their writes leaves
alone, the commands one by one, and then what a step can do to BADROLL. -/

namespace Sys2Proof.Machine

/-! ### Words with one operand -/

/-- A word whose one operand, of `w` bits, is placed above OP by a shift (R81) decodes as the command with that operand. -/
theorem decode_operandWord {i : Instr} {n w : Nat} (hlow : reservedLow i = 8 + w) (hw : w ≤ 24) (hn : n < 2 ^ w)
    (hi : ∀ c, bitsAt c 8 w = n → HoldsOperands c i) :
    decode (BitVec.ofNat 32 ((opcode i).toNat ||| n <<< 8)) = .ok i := by
  have hop : (opcode i).toNat < 2 ^ 8 := (opcode i).isLt
  have hn24 : n < 2 ^ 24 := Nat.lt_of_lt_of_le hn (Nat.pow_le_pow_right (by decide) hw)
  have hword : (BitVec.ofNat 32 ((opcode i).toNat ||| n <<< 8)).toNat = n * 2 ^ 8 + (opcode i).toNat := by
    rw [BitVec.toNat_ofNat, Nat.lor_comm, ← Nat.shiftLeft_add_eq_or_of_lt hop, Nat.shiftLeft_eq]; omega
  have habove : (n * 2 ^ 8 + (opcode i).toNat) / 2 ^ 8 = n := by omega
  refine decode_eq_ok_iff.mpr ⟨⟨?op, hi _ ?operand⟩, ?reserved⟩
  case op => rw [bitsAt_eq, hword]; omega
  case operand => rw [bitsAt_eq, hword, habove, Nat.mod_eq_of_lt hn]
  case reserved =>
    rw [hlow, bitsAt_eq, hword, Nat.pow_add, ← Nat.div_div_eq_div_mul, habove, Nat.div_eq_of_lt hn, Nat.zero_mod]

theorem decode_diceStartWord {n : Nat} (h : WellFormed (.diceStart n)) :
    decode (BitVec.ofNat 32 (0x10 ||| n <<< 8)) = .ok (.diceStart n) :=
  decode_operandWord (i := .diceStart n) (w := 16) rfl (by decide) (of_decide_eq_true h) fun _ => Eq.symm

theorem decode_diceRollWord {face : Nat} (h : WellFormed (.diceRoll face)) :
    decode (BitVec.ofNat 32 (0x11 ||| face <<< 8)) = .ok (.diceRoll face) :=
  decode_operandWord (i := .diceRoll face) (w := 3) rfl (by decide) (of_decide_eq_true h) fun _ => Eq.symm

theorem decode_diceMinRollsWord {n : Nat} (h : WellFormed (.diceMinRolls n)) :
    decode (BitVec.ofNat 32 (0x13 ||| n <<< 8)) = .ok (.diceMinRolls n) :=
  decode_operandWord (i := .diceMinRolls n) (w := 16) rfl (by decide) (of_decide_eq_true h) fun _ => Eq.symm

/-! ### The registers that the sampler's writes leave alone -/

theorem readReg_withSession {r : Reg} (h : r ∉ Reg.diceState :: .diceCount :: diceOutRegs) (n : Nat) (s : State) :
    readReg (s.withSession n) r = readReg s r := by
  cases r with
  | diceState | diceCount => simp at h
  | diceOut i =>
    have hi : 8 ≤ i := by simpa using h
    exact (toList_getD_of_le _ hi).trans (toList_getD_of_le _ hi).symm
  | _ => rfl

theorem readReg_disarmed {r : Reg} (h : r ∉ [Reg.diceState]) (s : State) : readReg s.disarmed r = readReg s r := by
  cases r with
  | diceState => simp at h
  | _ => rfl

theorem readReg_countRoll {r : Reg} (h : r ∉ [Reg.diceCount]) (s : State) : readReg s.countRoll r = readReg s r := by
  cases r with
  | diceCount => simp at h
  | _ => rfl

theorem readReg_markBadRoll {r : Reg} (h : r ∉ [Reg.diceState]) (s : State) : readReg s.markBadRoll r = readReg s r := by
  cases r with
  | diceState => simp at h
  | _ => rfl

theorem readReg_acceptDigit {r : Reg} (h : r ∉ [Reg.diceCount]) (d : Nat) (s : State) :
    readReg (s.acceptDigit d) r = readReg s r := by
  cases r with
  | diceCount => simp at h
  | _ => rfl

theorem readReg_withOutput {r : Reg} (h : r ∉ diceOutRegs) (s : State) : readReg s.withOutput r = readReg s r := by
  cases r with
  | diceOut i =>
    have hi : 8 ≤ i := by simpa using h
    exact (toList_getD_of_le _ hi).trans (toList_getD_of_le _ hi).symm
  | _ => rfl

theorem readReg_withMinimumRolls {r : Reg} (h : r ∉ [Reg.result]) (n : Nat) (s : State) :
    readReg (s.withMinimumRolls n) r = readReg s r := by
  cases r with
  | result => simp at h
  | _ => rfl

/-! ### DICE_START (R161) -/

/-- DICE_STATE of a new session reads as its target and ARMED (R36, R161). -/
theorem readReg_withSession_diceState {n : Nat} (h : n ≤ 256) (s : State) :
    readReg (s.withSession n) .diceState = BitVec.ofNat 32 (n * 0x10000 + 1) := by
  apply BitVec.eq_of_toNat_eq
  simp only [readReg, State.withSession_diceState, DiceState.word_toNat, BitVec.toNat_ofNat, Bool.toNat_true,
    Bool.toNat_false]
  omega

/-- A new session has no output (R161). -/
theorem readReg_withSession_diceOut (n : Nat) (s : State) {r : Reg} (h : r ∈ diceOutRegs) :
    readReg (s.withSession n) r = 0 := by
  have hzero : ∀ i < 8, (put []).toList.getD i 0 = 0 := by decide
  simp only [diceOutRegs, List.mem_map, List.mem_range] at h
  obtain ⟨i, hi, rfl⟩ := h
  exact hzero i hi

/-- Settles O19: the target decides which of the two ways DICE_START completes. -/
theorem diceStartOpensSession : Obligations.DiceStartOpensSession := by
  refine fun s n hwf => ⟨decode_diceStartWord hwf, fun h0 h2 h256 => ?opened, fun h => ?closed⟩
  case opened =>
    have hcount : (DiceCount.mk 0 0).word = 0 := by decide
    have htarget : (BitVec.ofNat 9 n).toNat = n := by rw [BitVec.toNat_ofNat]; omega
    refine ⟨_, execDiceStart_good h0 h2 h256, ?_, rfl, rfl, rfl, rfl, htarget, readReg_withSession_diceState h256 s,
      hcount, fun r hr => ?_⟩
    · exact completesWith_complete rfl rfl rfl rfl rfl rfl fun _ _ h => readReg_withSession h n s
    · have hstatus : r ≠ .status := by rintro rfl; simp [diceOutRegs] at hr
      rw [readReg_complete hstatus, readReg_withSession_diceOut n s hr]
  case closed =>
    refine ⟨_, execDiceStart_bad h, ?_, ⟨rfl, rfl⟩, rfl⟩
    exact completesWith_complete rfl rfl rfl rfl rfl rfl fun _ _ h => readReg_disarmed h s

/-! ### DICE_ROLL (R164) -/

theorem classifyFace_invalid {face : Nat} (h : face = 0 ∨ face = 7) : classifyFace face = .invalid := by
  rcases h with rfl | rfl <;> rfl

theorem classifyFace_discarded {face : Nat} (h : face = 4 ∨ face = 5) : classifyFace face = .discarded := by
  rcases h with rfl | rfl <;> rfl

theorem classifyFace_accepted {face : Nat} (h : face = 1 ∨ face = 2 ∨ face = 3 ∨ face = 6) :
    classifyFace face = .accepted (if face = 6 then 0 else face) := by
  rcases h with rfl | rfl | rfl | rfl <;> rfl

/-- A digit beyond the first TARGET/2 is not placed (R164). -/
theorem acceptDigit_acc_of_le {s : State} (h : s.diceState.target.toNat / 2 ≤ s.diceCount.accepted.toNat) (d : Nat) :
    (s.acceptDigit d).acc = s.acc := if_neg (Nat.not_lt.mpr h)

/-- Digit `i` is placed at bits 2i+1:2i of ACC (R165). -/
theorem acceptDigit_acc_of_lt {s : State} (h : s.diceCount.accepted.toNat < s.diceState.target.toNat / 2) (d : Nat) :
    (s.acceptDigit d).acc = setDigit s.acc s.diceCount.accepted.toNat d := if_pos h

/-- Settles O20: the session and the class of the face decide which of the four ways DICE_ROLL completes. -/
theorem diceRollFeedsFace : Obligations.DiceRollFeedsFace := by
  refine fun s face hwf => ⟨decode_diceRollWord hwf, fun ha => ?noSession, fun ha => ?session⟩
  case noSession => exact ⟨_, execDiceRoll_unarmed ha, completesWith_self _ s, keepsHidden_self _ s⟩
  case session =>
    have hface : face < 2 ^ 3 := of_decide_eq_true hwf
    have hclass : (face = 0 ∨ face = 7) ∨ (face = 4 ∨ face = 5) ∨ (face = 1 ∨ face = 2 ∨ face = 3 ∨ face = 6) := by
      omega
    rcases hclass with hbad | hdiscard | haccept
    · refine ⟨_, execDiceRoll_invalid ha (classifyFace_invalid hbad), rfl, sat16_toNat _, fun _ => ⟨?_, rfl, rfl, rfl⟩,
        fun h => absurd h (by omega), fun h => absurd h (by omega)⟩
      refine completesWith_complete rfl rfl rfl rfl rfl rfl fun r _ h => ?_
      obtain ⟨hstate, hcount⟩ : r ∉ [Reg.diceState] ∧ r ∉ [Reg.diceCount] := by simpa using h
      rw [readReg_markBadRoll hstate, readReg_countRoll hcount]
    · refine ⟨_, execDiceRoll_discarded ha (classifyFace_discarded hdiscard), rfl, sat16_toNat _,
        fun h => absurd h (by omega), fun _ => ⟨?_, rfl, rfl⟩, fun h => absurd h (by omega)⟩
      exact completesWith_complete rfl rfl rfl rfl rfl rfl fun _ _ h => readReg_countRoll h s
    · have hdigit := classifyFace_accepted haccept
      refine ⟨_, execDiceRoll_accepted ha hdigit, rfl, sat16_toNat _, fun h => absurd h (by omega),
        fun h => absurd h (by omega), fun _ => ⟨?_, sat16_toNat _, fun hfull => ?_, fun hroom b hb => ?_⟩⟩
      · refine completesWith_complete rfl rfl rfl rfl rfl rfl fun r _ h => ?_
        rw [readReg_acceptDigit h, readReg_countRoll h]
      · exact acceptDigit_acc_of_le (s := s.countRoll) hfull _
      · rw [State.complete_acc, acceptDigit_acc_of_lt (s := s.countRoll) hroom]
        exact setDigit_getLsbD s.acc _ (classifyFace_digit_lt hdigit) hb

/-! ### DICE_FINISH (R167) -/

/-- The output's first position is the top one of the low `n` bits of ACC (R167). -/
theorem sessionOutput_getD (acc : BitVec 256) (n p : Nat) :
    (sessionOutput acc n).getD p false = (decide (p < n) && acc.getLsbD (n - 1 - p)) := by
  by_cases h : p < n
  · have hlow : n - 1 - p < n := by omega
    rw [sessionOutput, bitsOf_getD h, Nat.testBit_mod_two_pow]
    simp only [hlow, h, decide_true, Bool.true_and, BitVec.testBit_toNat]
  · rw [List.getD_eq_default _ _ (by rw [sessionOutput, bitsOf_length]; omega), decide_eq_false h, Bool.false_and]

/-- Settles O21: DICE_FINISH completes at one of its three checks, or with the output. -/
theorem diceFinishPacksOutput : Obligations.DiceFinishPacksOutput := by
  refine ⟨by decide, fun s =>
    ⟨fun ha => ?noSession, fun ha hb => ?badRoll, fun ha hb hn => ?few, fun ha hb hn => ?output⟩⟩
  case noSession => exact ⟨_, execDiceFinish_unarmed ha, completesWith_self _ s, keepsHidden_self _ s⟩
  case badRoll => exact ⟨_, execDiceFinish_badRoll ha hb, completesWith_self _ s, keepsHidden_self _ s⟩
  case few => exact ⟨_, execDiceFinish_few ha hb hn, completesWith_self _ s, keepsHidden_self _ s⟩
  case output =>
    refine ⟨_, execDiceFinish_good ha hb hn, ?_, ⟨rfl, rfl⟩, fun p hp => ?_⟩
    · exact completesWith_complete rfl rfl rfl rfl rfl rfl fun _ _ h => readReg_withOutput h s
    · exact (packedBit_put _ hp).trans (sessionOutput_getD s.acc _ p)

/-! ### DICE_MINROLLS (R175) -/

/-- Settles O22: an even N of 16 bits has its half in RESULT, and any other N fails before the write. -/
theorem diceMinRollsHalves : Obligations.DiceMinRollsHalves := by
  refine fun s n hwf => ⟨decode_diceMinRollsWord hwf, fun h0 h2 => ?half, fun h => ?rejected⟩
  case half =>
    have hn : n < 2 ^ 16 := of_decide_eq_true hwf
    refine ⟨_, execDiceMinRolls_good h0 h2, ?_, ⟨rfl, rfl⟩, ?_⟩
    · exact completesWith_complete rfl rfl rfl rfl rfl rfl fun _ _ h => readReg_withMinimumRolls h n s
    · simp only [State.complete_result, State.withMinimumRolls_result, minimumRolls, BitVec.toNat_ofNat]
      omega
  case rejected => exact ⟨_, execDiceMinRolls_bad h, completesWith_self _ s, keepsHidden_self _ s⟩

/-! ### Who clears BADROLL (R166) -/

/-- Of the commands, only a DICE_START that opens a session clears BADROLL (R161, R166). -/
theorem Effect.badRoll_cleared {s u : State} {i : Instr} {code : ErrCode} (h : Effect s i code u)
    (hs : s.diceState.badRoll = true) (hu : u.diceState.badRoll = false) : (∃ n, i = .diceStart n) ∧ code = .noError := by
  cases h with
  | diceOpen n => exact ⟨⟨n, rfl⟩, rfl⟩
  | rollInvalid => cases hu
  | _ => cases hs.symm.trans hu

theorem writeReg_diceState (v : Word) (s : State) (r : Reg) : (writeReg v s r).diceState = s.diceState := by
  cases r <;> rfl

/-- While the reset input is released, only a completion or a reset writes DICE_STATE (R36, R231). -/
theorem step_diceState_cases {s t : State} (hp : s.resetPin = false) (h : step s = .next t) :
    t.diceState = s.diceState ∨
    (∃ c, InFlight c s ∧ completeWord c (s.withTurns s.turns.tail) = .next t) ∨
    ∃ rest, (∃ b, s.turns = .resetPin b :: rest) ∨ ∃ v, s.turns = hostW .ctrl v :: rest ∧ v.getLsbD 1 = true := by
  rcases step_released_cases hp h with ⟨-, he⟩ | ⟨b, rest, ht, -⟩ | ⟨a, rest, -, hcase⟩
  · rcases engineTurn_cases (s.withTurns s.turns.tail) with ⟨hr, -⟩ | ⟨-, e⟩ | ⟨-, -, e⟩ | ⟨c, hc, e⟩
    · cases hp.symm.trans hr
    · rw [e] at he; cases he; exact .inl rfl
    · rw [e] at he; cases he
    · exact .inr (.inl ⟨c, hc, e ▸ he⟩)
  · exact .inr (.inr ⟨rest, .inl ⟨b, ht⟩⟩)
  · rcases hcase with rfl | rfl | ⟨v, rfl⟩ | ⟨v, hw, rfl⟩ | ⟨v, -, rfl⟩ | ⟨-, rfl⟩ | ⟨r, v, -, -, -, -, -, rfl⟩
    · exact .inl rfl
    · exact .inl rfl
    · exact .inl rfl
    · cases hs : v.getLsbD 1 with
      | true => exact .inr (.inr ⟨rest, .inr ⟨v, hw, hs⟩⟩)
      | false => exact .inl (by rw [writeCtrl_of_clear hs]; rfl)
    · exact .inl rfl
    · exact .inl rfl
    · exact .inl (writeReg_diceState v _ r)

/-- Settles O41: of what a step can do to DICE_STATE, only the opening of a session and a reset clear BADROLL. -/
theorem badRollIsSticky : Obligations.BadRollIsSticky := by
  intro s t hp hs h ht
  rcases step_diceState_cases hp h with e | ⟨c, ⟨hb, hc, -⟩, he⟩ | hreset
  · rw [e] at ht; cases hs.symm.trans ht
  · obtain rfl | ⟨i, code, u, hd, hu, rfl⟩ := completeWord_effect he
    · cases hs.symm.trans ht
    · obtain ⟨⟨n, rfl⟩, rfl⟩ := hu.badRoll_cleared hs ht
      exact .inl ⟨c, n, hc, hd, hb, rfl, rfl⟩
  · exact .inr hreset

end Sys2Proof.Machine
end

section
/-! PROOFS of the exceptions' family (60_exceptions.md). First issue and completion as steps, with the statements on one of
them; then the interrupt; then the runs that a schedule makes. -/

namespace Sys2Proof.Machine

/-! ### Issue and completion, as steps -/

/-- A `CMD` write to the idle block is an issue (R65, R200). -/
theorem step_cmd_idle {s : State} {v : Word} {rest : List Turn} (hi : Idle s) (ht : s.turns = hostW .cmd v :: rest) :
    step s = .next (((s.withTurns rest).answer none).issue v) := by
  obtain ⟨hb, hp⟩ := hi
  rw [step_hostW hp rfl ht]
  exact congrArg _ (hostWrite_idle (r := .cmd) hb rfl nofun nofun)

/-- With a command word in flight, the engine's turn is its completion (R200). -/
theorem step_inFlight {s : State} {c : Word} (hf : InFlight c s) (ht : s.turns = [] ∨ ∃ rest, s.turns = .engine :: rest) :
    step s = completeWord c (s.withTurns s.turns.tail) := by
  rw [step_engineNext ht, engineTurn_inFlight (s := s.withTurns s.turns.tail) hf]

/-- Settles O6: the completion of a legal word runs the command it decodes as. -/
theorem stepRunsDecodedCommand : Obligations.StepRunsDecodedCommand := by
  intro s c i hf hd ht
  rw [step_inFlight hf ht, completeWord_ok hd]

/-- Settles O7: the engine's turn leaves the idle block as it is. -/
theorem idleBlockExecutesNothing : Obligations.IdleBlockExecutesNothing := fun s hi =>
  ⟨fun ht => (step_nil ht).trans (engineTurn_idle hi),
    fun rest ht => (step_engine ht).trans (engineTurn_idle (s := s.withTurns rest) hi)⟩

/-- Settles O8: the step is the issue, which writes PEND and STATUS only. -/
theorem cmdWriteIssuesCommand : Obligations.CmdWriteIssuesCommand := by
  intro s v rest hi ht
  refine ⟨_, step_cmd_idle hi ht, rfl, rfl, fun r hr => ?frame, ⟨rfl, rfl⟩, rfl, rfl, rfl, hi.2⟩
  case frame => rw [readReg_issue hr, readReg_answer, readReg_withTurns]

/-- ERR is set exactly by the codes other than 0 (R24, R201). -/
theorem ErrCode.err_iff (code : ErrCode) : (code != .noError) = true ↔ code.bits ≠ 0 := by
  rw [Ne, ErrCode.bits_eq_zero, bne_iff_ne]

/-- Settles O9: the completion of a word writes STATUS by its code, which some command produces. -/
theorem everyCommandCompletes : Obligations.EveryCommandCompletes := by
  intro s c rest hf ht
  obtain ⟨code, u, he, hcode, hctrl, hstatus, -, hturns, -, -⟩ := completeWord_completes c (s.withTurns rest)
  have hstep : step s = completeWord c (s.withTurns rest) := by rw [step_inFlight hf (.inr ⟨rest, ht⟩), ht]; rfl
  exact ⟨_, hstep.trans he, rfl, rfl, rfl, code.err_iff, by rw [State.complete_status_overrun, hstatus]; rfl, hctrl, hturns, hcode⟩

/-- Settles O10: the word 0 is NOP's only word, and NOP ends before any write. -/
theorem nopOnlyCompletes : Obligations.NopOnlyCompletes := by
  refine ⟨by decide, fun c hop hne => ?reserved, fun s => ⟨_, rfl, completesWith_self _ s, keepsHidden_self _ s⟩⟩
  case reserved =>
    have hnop : ReadsAs c .nop := ⟨by rw [bitsAt_eq]; simpa [opcode] using hop, trivial⟩
    have hrsv : bitsAt c 8 (32 - 8) ≠ 0 := by
      intro h
      rw [bitsAt_eq] at h
      exact hne (BitVec.eq_of_toNat_eq (by simp; omega))
    exact hnop.decode_eq.trans (if_neg hrsv)

/-! ### The interrupt (R210) -/

theorem irq_eq_bits (s : State) : irq s = ((readReg s .ctrl).getLsbD 0 && (readReg s .status).getLsbD 1) :=
  (congrArg₂ (· && ·) (append_bit_getLsbD_zero _ s.ctrl.ie) (Status.word_getLsbD s.status 1)).symm

theorem irq_complete (code : ErrCode) (s : State) : irq (s.complete code) = s.ctrl.ie := Bool.and_true _

theorem irq_issue (v : Word) (s : State) : irq (s.issue v) = false := Bool.and_false _

theorem irq_writeStatus (v : Word) (s : State) : irq (writeStatus v s) = (irq s && !v.getLsbD 1) :=
  (Bool.and_assoc ..).symm

/-- A write of CTRL leaves the interrupt low unless it sets IE without SRST (R23). -/
theorem irq_writeCtrl (v : Word) (s : State) :
    irq (writeCtrl v s) = (!v.getLsbD 1 && (v.getLsbD 0 && s.status.done)) := by
  cases h1 : v.getLsbD 1 with
  | true => rw [writeCtrl, h1]; rfl
  | false => rw [writeCtrl_of_clear h1]; rfl

/-- Of the other registers, only a write of CMD reaches the interrupt. -/
theorem irq_writeReg {r : Reg} (h : r ≠ .cmd) (v : Word) (s : State) : irq (writeReg v s r) = irq s := by
  cases r with
  | cmd => exact absurd rfl h
  | _ => rfl

/-- The completion of any word sets the interrupt to IE (R200, R210). -/
theorem completeWord_irq {c : Word} {s t : State} (h : completeWord c s = .next t) :
    irq t = s.ctrl.ie ∧ t.ctrl = s.ctrl ∧ t.status.busy = false := by
  obtain ⟨code, u, he, -, hctrl, -⟩ := completeWord_completes c s
  rw [he] at h
  cases h
  exact ⟨(irq_complete code u).trans (congrArg Ctrl.ie hctrl), hctrl, rfl⟩

/-- While the reset input is asserted, a step leaves the interrupt as it is or takes it low (R230). -/
theorem step_irq_resetPin {s t : State} (hp : s.resetPin = true) (h : step s = .next t) : irq t = irq s ∨ irq t = false := by
  rcases step_cases s with ⟨-, e⟩ | ⟨a, rest, -, e⟩ | ⟨b, rest, -, e⟩ <;> rw [e] at h
  · rw [engineTurn_resetPin (s := s.withTurns s.turns.tail) hp] at h
    cases h; exact .inr rfl
  · rcases hostTurn_cases a (s.withTurns rest) with ⟨-, e⟩ | ⟨-, r, e⟩ | ⟨off, -, -, -, e⟩ <;> rw [e] at h <;> cases h
    · exact .inl rfl
    · rcases accessAt_cases off a.kind (s.withTurns rest) with ⟨-, v, e⟩ | ⟨hr, -⟩ | ⟨hr, -⟩
      · rw [e]; exact .inr rfl
      all_goals cases hp.symm.trans hr
  · cases h; exact .inr rfl

/-- While the reset input is released, a step moves the interrupt by a completion, by the host's write of IE, or by one of
the events that lower it (R210). -/
theorem step_irq_cases {s t : State} (hp : s.resetPin = false) (h : step s = .next t) :
    irq t = irq s ∨
    (s.status.busy = true ∧ t.status.busy = false ∧ t.ctrl = s.ctrl ∧ irq t = s.ctrl.ie) ∨
    (∃ v rest, s.turns = hostW .ctrl v :: rest ∧ v.getLsbD 0 = true ∧ irq t = s.status.done) ∨
    (LowersIrq s ∧ irq t = false) := by
  rcases step_released_cases hp h with ⟨-, he⟩ | ⟨b, rest, ht, rfl⟩ | ⟨a, rest, -, hcase⟩
  · rcases engineTurn_cases (s.withTurns s.turns.tail) with ⟨hr, -⟩ | ⟨-, e⟩ | ⟨-, -, e⟩ | ⟨c, ⟨hb, -, -⟩, e⟩
    · cases hp.symm.trans hr
    · rw [e] at he; cases he; exact .inl rfl
    · rw [e] at he; cases he
    · obtain ⟨hirq, hctrl, hidle⟩ := completeWord_irq (e ▸ he)
      exact .inr (.inl ⟨hb, hidle, hctrl, hirq⟩)
  · exact .inr (.inr (.inr ⟨⟨rest, .inl ⟨b, ht⟩⟩, rfl⟩))
  · rcases hcase with rfl | rfl | ⟨v, rfl⟩ | ⟨v, hw, rfl⟩ | ⟨v, hw, rfl⟩ | ⟨-, rfl⟩ | ⟨r, v, -, -, -, hb, hw, rfl⟩
    · exact .inl rfl
    · exact .inl rfl
    · exact .inl rfl
    · have hirq := irq_writeCtrl v ((s.withTurns rest).answer none)
      cases h1 : v.getLsbD 1 with
      | true => exact .inr (.inr (.inr ⟨⟨rest, .inr ⟨v, .inr (.inl ⟨hw, .inr h1⟩)⟩⟩, by rw [hirq, h1]; rfl⟩))
      | false =>
        cases h0 : v.getLsbD 0 with
        | true => exact .inr (.inr (.inl ⟨v, rest, hw, h0, by rw [hirq, h1, h0]; rfl⟩))
        | false => exact .inr (.inr (.inr ⟨⟨rest, .inr ⟨v, .inr (.inl ⟨hw, .inl h0⟩)⟩⟩, by rw [hirq, h1, h0]; rfl⟩))
    · have hirq := irq_writeStatus v ((s.withTurns rest).answer none)
      cases h1 : v.getLsbD 1 with
      | true => exact .inr (.inr (.inr ⟨⟨rest, .inr ⟨v, .inl ⟨hw, h1⟩⟩⟩, by rw [hirq, h1]; exact Bool.and_false _⟩))
      | false => exact .inl (by rw [hirq, h1]; exact Bool.and_true _)
    · exact .inl rfl
    · by_cases hr : r = .cmd
      · subst hr
        exact .inr (.inr (.inr ⟨⟨rest, .inr ⟨v, .inr (.inr ⟨hw, hb⟩)⟩⟩, irq_issue v _⟩))
      · exact .inl (irq_writeReg hr v _)

/-- Each of the events that lower the interrupt is taken, and leaves it low (R210). -/
theorem step_lowersIrq {s : State} (hp : s.resetPin = false) (h : LowersIrq s) : ∃ t, step s = .next t ∧ irq t = false := by
  obtain ⟨rest, ⟨b, ht⟩ | ⟨v, ⟨ht, h1⟩ | ⟨ht, hv⟩ | ⟨ht, hb⟩⟩⟩ := h
  · exact ⟨_, step_resetPin ht, rfl⟩
  · exact ⟨_, step_hostW hp rfl ht, (irq_writeStatus v _).trans (by rw [h1]; exact Bool.and_false _)⟩
  · refine ⟨_, step_hostW hp rfl ht, (irq_writeCtrl v _).trans ?_⟩
    rcases hv with h0 | h1
    · rw [h0]; exact Bool.and_false _
    · rw [h1]; rfl
  · exact ⟨_, step_cmd_idle ⟨hb, hp⟩ ht, irq_issue v _⟩

/-- Settles O40: the ways a step moves the interrupt, read once for its rise and once for its fall. -/
theorem interruptFollowsDoneAndEnable : Obligations.InterruptFollowsDoneAndEnable := by
  refine ⟨irq_eq_bits, fun s c rest hf ht => ?completion, fun s t h hlow hhigh => ?rise, fun s => step_lowersIrq,
    fun s t hheld h hhigh hlow => ?fall⟩
  case completion =>
    obtain ⟨code, u, he, -⟩ := completeWord_completes c (s.withTurns s.turns.tail)
    exact ⟨_, (step_inFlight hf (.inr ⟨rest, ht⟩)).trans he, (completeWord_irq he).1⟩
  case rise =>
    cases hp : s.resetPin with
    | true =>
      rcases step_irq_resetPin hp h with e | e
      · cases hlow.symm.trans (e.symm.trans hhigh)
      · cases e.symm.trans hhigh
    | false =>
      rcases step_irq_cases hp h with e | ⟨hb, hb', hctrl, -⟩ | ⟨v, rest, hw, h0, e⟩ | ⟨-, e⟩
      · cases hlow.symm.trans (e.symm.trans hhigh)
      · exact .inl ⟨hb, hb', hctrl⟩
      · exact .inr ⟨v, rest, hw, h0, e.symm.trans hhigh⟩
      · cases e.symm.trans hhigh
  case fall =>
    have hp : s.resetPin = false := by
      by_contra hp
      rw [← hheld (by simpa using hp)] at hhigh
      cases hhigh
    obtain ⟨hie, hdone⟩ := Bool.and_eq_true_iff.mp hhigh
    rcases step_irq_cases hp h with e | ⟨-, -, -, e⟩ | ⟨-, -, -, -, e⟩ | ⟨hl, -⟩
    · cases hhigh.symm.trans (e.symm.trans hlow)
    · cases hie.symm.trans (e.symm.trans hlow)
    · cases hdone.symm.trans (e.symm.trans hlow)
    · exact hl

/-! ### Runs -/

theorem run_succ {s t : State} (h : step s = .next t) (k : Nat) : core.run (k + 1) s = core.run k t := by
  have h' : core.step s = .next t := h
  simp only [Host.Core.run, h']

theorem runs_one {s t : State} (h : step s = .next t) : Runs 1 s t := run_succ h 0

theorem runs_add {s t u : State} {j k : Nat} (h : Runs j s t) (h' : Runs k t u) : Runs (j + k) s u := by
  induction j generalizing s with
  | zero => cases h; rwa [Nat.zero_add]
  | succ j ih =>
    simp only [Runs, Host.Core.run] at h
    split at h
    · next v hv =>
      rw [Nat.succ_add]
      exact (run_succ hv (j + k)).trans (ih h)
    · cases h
    · cases h

/-! ### The fields that no command reads -/

/-- `s` with CTRL, STATUS and the model's own fields as in `t`: the fields that the schedule can change while a command is in
flight. -/
def State.withHostFieldsOf (s t : State) : State :=
  { s with
    ctrl := t.ctrl
    status := t.status
    turns := t.turns
    response := t.response
    draws := t.draws }

/-- What a command leaves where the host's fields are those of `t`. -/
def outcomeAmid (t : State) : Host.Outcome State Fault Refusal → Host.Outcome State Fault Refusal
  | .next u => .next { u.withHostFieldsOf t with status := { u.status with overrun := t.status.overrun } }
  | o => o

/-- A command neither decides by the host's fields nor lets them into what it writes (R72, R200). -/
theorem exec_withHostFieldsOf (i : Instr) (s t : State) : exec i (s.withHostFieldsOf t) = outcomeAmid t (exec i s) := by
  cases i with
  | nop | validate => rfl
  | checksum => simp only [exec, execChecksum, apply_ite (outcomeAmid t)]; rfl
  | encode => simp only [exec, execEncode, apply_ite (outcomeAmid t)]; rfl
  | decode => simp only [exec, execDecode, apply_ite (outcomeAmid t)]; rfl
  | slice pos width => simp only [exec, execSlice, apply_ite (outcomeAmid t)]; rfl
  | diceStart n => simp only [exec, execDiceStart, apply_ite (outcomeAmid t)]; rfl
  | diceRoll face =>
    simp only [exec, execDiceRoll, apply_ite (outcomeAmid t)]
    cases classifyFace face <;> rfl
  | diceFinish => simp only [exec, execDiceFinish, apply_ite (outcomeAmid t)]; rfl
  | diceMinRolls n => simp only [exec, execDiceMinRolls, apply_ite (outcomeAmid t)]; rfl

/-- A command word completes with the same code and the same writes, whatever the host's fields are. -/
theorem completeWord_withHostFieldsOf (c : Word) (s : State) :
    ∃ (code : ErrCode) (u : State), u.resetPin = s.resetPin ∧
      ∀ t, completeWord c (s.withHostFieldsOf t) = .next ((u.withHostFieldsOf t).complete code) := by
  cases hd : decode c with
  | error e => exact ⟨_, s, rfl, fun t => completeWord_illegal hd _⟩
  | ok i =>
    obtain ⟨code, u, he, -, -, -, hpin, -⟩ := exec_completes i s
    refine ⟨code, u, hpin, fun t => ?_⟩
    rw [completeWord_ok hd, exec_withHostFieldsOf, he]; rfl

/-- `t` is `s` but for the host's fields. -/
def HostFieldsOnly (s t : State) : Prop := t = s.withHostFieldsOf t

theorem HostFieldsOnly.trans {s t u : State} (h : HostFieldsOnly s t) (h' : HostFieldsOnly t u) : HostFieldsOnly s u := by
  rw [HostFieldsOnly] at h
  rw [HostFieldsOnly, h', h]; rfl

theorem HostFieldsOnly.withTurns {s t : State} (h : HostFieldsOnly s t) (ts : List Turn) :
    HostFieldsOnly s (t.withTurns ts) :=
  congrArg (State.withTurns ts) h

/-! ### From issue to completion -/

/-- No accepted access but a soft reset touches the command in flight, or anything it reads (R65, R72, R241). -/
theorem accessAt_inFlight {s : State} {c : Word} {off : Nat} {kind : AccessKind} (hf : InFlight c s) (h4 : off % 4 = 0)
    (hn : ∀ v, off = 0x004 → kind = .write v → v.getLsbD 1 = false) :
    InFlight c (accessAt off kind s) ∧ HostFieldsOnly s (accessAt off kind s) := by
  have ⟨hbusy, _, hp⟩ := hf
  rcases accessAt_cases off kind s with ⟨hr, -⟩ | ⟨-, -, e⟩ | ⟨-, v, hk, e⟩
  · cases hp.symm.trans hr
  · rcases hostRead_cases off s with e' | e' <;> rw [e, e'] <;> exact ⟨hf, rfl⟩
  · rcases hostWrite_cases off v (s.answer none) h4 with ⟨ho, e'⟩ | ⟨-, e'⟩ | ⟨-, e'⟩ | ⟨hb, -⟩ | ⟨hb, -⟩
    · rw [e, e', writeCtrl_of_clear (hn v ho hk)]; exact ⟨hf, rfl⟩
    · rw [e, e']; exact ⟨hf, rfl⟩
    · rw [e, e']; exact ⟨hf, rfl⟩
    all_goals cases hbusy.symm.trans hb

/-- The step of such an access is taken, and leaves the turns after it. -/
theorem step_access_inFlight {s : State} {c : Word} {a : Access} {rest : List Turn} (hf : InFlight c s)
    (ha : a.Accepted ∧ ¬ a.SoftReset) (ht : s.turns = .host a :: rest) :
    ∃ t, step s = .next t ∧ InFlight c t ∧ HostFieldsOnly s t ∧ t.turns = rest := by
  obtain ⟨⟨hw, off, ho, h4, haddr⟩, hsoft⟩ := ha
  have hclear : ∀ v, off = 0x004 → a.kind = .write v → v.getLsbD 1 = false := by
    rintro v rfl hk
    exact Bool.eq_false_iff.mpr fun h1 => hsoft ⟨haddr, v, hk, h1⟩
  obtain ⟨hf', hs⟩ := accessAt_inFlight (s := s.withTurns rest) (kind := a.kind) hf h4 hclear
  exact ⟨_, (step_host ht).trans (hostTurn_accepted _ hw ho h4 haddr), hf',
    HostFieldsOnly.trans (t := s.withTurns rest) rfl hs, accessAt_turns h4 a.kind _⟩

/-- Any number of such accesses leave the command in flight, and everything that it reads (R72). -/
theorem runs_accesses {s : State} {c : Word} {accesses : List Access} {next : List Turn} (hf : InFlight c s)
    (ha : ∀ a ∈ accesses, a.Accepted ∧ ¬ a.SoftReset) (ht : s.turns = accesses.map .host ++ next) :
    ∃ t, Runs accesses.length s t ∧ InFlight c t ∧ HostFieldsOnly s t ∧ t.turns = next := by
  induction accesses generalizing s with
  | nil => exact ⟨s, rfl, hf, rfl, ht⟩
  | cons a accesses ih =>
    obtain ⟨ha, has⟩ := List.forall_mem_cons.mp ha
    obtain ⟨t, hstep, hft, hst, htt⟩ := step_access_inFlight hf ha ht
    obtain ⟨u, hrun, hfu, htu, hu⟩ := ih hft has htt
    exact ⟨u, (run_succ hstep _).trans hrun, hfu, hst.trans htu, hu⟩

/-- `t` is `u` but for IE, OVERRUN and the host's own reads. -/
def SameResult (t u : State) : Prop :=
  t = { u with
    ctrl := t.ctrl
    status := { u.status with overrun := t.status.overrun }
    response := t.response
    draws := t.draws }

/-- The engine's turn completes the command in flight in the host's fields of that moment. -/
theorem step_completes {s v u : State} {c : Word} {code : ErrCode} (hf : InFlight c v) (hs : HostFieldsOnly s v)
    (hv : v.turns = [] ∨ ∃ rest, v.turns = .engine :: rest)
    (hu : ∀ t, completeWord c (s.withHostFieldsOf t) = .next ((u.withHostFieldsOf t).complete code)) :
    step v = .next ((u.withHostFieldsOf (v.withTurns v.turns.tail)).complete code) := by
  rw [step_inFlight hf hv]
  exact (congrArg _ (hs.withTurns _)).trans (hu _)

/-- A command whose host's fields have changed since `s` completes as it does in `s`. -/
theorem step_sameResult {s v : State} {c : Word} (hf : InFlight c s) (hfv : InFlight c v) (hs : HostFieldsOnly s v)
    (hv : v.turns = [] ∨ ∃ rest, v.turns = .engine :: rest) :
    ∃ t u, step v = .next t ∧ step (s.withTurns (.engine :: v.turns.tail)) = .next u ∧ t.turns = v.turns.tail ∧
      t.pend = none ∧ t.status.busy = false ∧ t.status.done = true ∧ SameResult t u := by
  obtain ⟨code, u, -, hu⟩ := completeWord_withHostFieldsOf c s
  have hnow := step_completes (v := s.withTurns (.engine :: v.turns.tail)) hf rfl (.inr ⟨_, rfl⟩) hu
  exact ⟨_, _, step_completes hfv hs hv hu, hnow, rfl, rfl, rfl, rfl, rfl⟩

/-- Settles O43: the accesses change the host's fields only, and the completion does not depend on them. -/
theorem scheduleNeverChangesResult : Obligations.ScheduleNeverChangesResult := by
  intro s c accesses rest hf ha
  obtain ⟨v, hrun, hfv, hs, hv⟩ := runs_accesses (s := s.withTurns (accesses.map .host ++ .engine :: rest)) hf ha rfl
  obtain ⟨t, u, ht, hu, -, -, -, -, htu⟩ := step_sameResult hf hfv hs (.inr ⟨rest, hv⟩)
  rw [hv] at hu
  exact ⟨t, u, runs_add hrun (runs_one ht), runs_one hu, htu⟩

/-- Turns without a turn of the reset input: accesses up to the end, or up to the engine's first turn. -/
theorem exists_accesses_append {ts : List Turn} (h : ∀ b, Turn.resetPin b ∉ ts) :
    ∃ accesses next, ts = List.map Turn.host accesses ++ next ∧ (next = [] ∨ ∃ rest, next = .engine :: rest) := by
  induction ts with
  | nil => exact ⟨[], [], rfl, .inl rfl⟩
  | cons turn ts ih =>
    cases turn with
    | engine => exact ⟨[], _, rfl, .inr ⟨ts, rfl⟩⟩
    | host a =>
      obtain ⟨accesses, next, rfl, hnext⟩ := ih fun b hb => h b (List.mem_cons_of_mem _ hb)
      exact ⟨a :: accesses, next, rfl, hnext⟩
    | resetPin b => exact absurd List.mem_cons_self (h b)

/-- After the engine's turn no command is in flight (R200). -/
theorem engineTurn_idles {s t : State} (h : engineTurn s = .next t) : t.status.busy = false ∧ t.turns = s.turns := by
  rcases engineTurn_cases s with ⟨-, e⟩ | ⟨⟨hb, -⟩, e⟩ | ⟨-, -, e⟩ | ⟨c, -, e⟩ <;> rw [e] at h
  · cases h; exact ⟨rfl, rfl⟩
  · cases h; exact ⟨hb, rfl⟩
  · cases h
  · obtain ⟨code, u, he, -, -, -, -, hturns, -⟩ := completeWord_completes c s
    rw [he] at h
    cases h; exact ⟨rfl, hturns⟩

/-- Where PEND agrees with BUSY, the engine's turn is taken (R46, R200). -/
theorem exists_engineTurn {s : State} (h : LatchAgrees s) : ∃ t, engineTurn s = .next t := by
  rcases engineTurn_cases s with ⟨-, e⟩ | ⟨-, e⟩ | ⟨-, -, e⟩ | ⟨c, -, e⟩
  · exact ⟨_, e⟩
  · exact ⟨_, e⟩
  · exact absurd e (engineTurn_ne_fault h _)
  · obtain ⟨code, u, he, -⟩ := completeWord_completes c s
    exact ⟨_, e.trans he⟩

/-- From PEND in agreement with BUSY, a turn that is no unaccepted access is taken, and the next turn follows it. -/
theorem exists_step {s : State} {turn : Turn} {rest : List Turn} (hl : LatchAgrees s) (ht : s.turns = turn :: rest)
    (ha : ∀ a, turn = .host a → a.Accepted) : ∃ t, step s = .next t ∧ t.turns = rest := by
  cases turn with
  | engine =>
    obtain ⟨t, h⟩ := exists_engineTurn (s := s.withTurns rest) hl
    exact ⟨t, (step_engine ht).trans h, (engineTurn_idles h).2⟩
  | host a =>
    obtain ⟨hw, off, ho, h4, haddr⟩ := ha a rfl
    exact ⟨_, (step_host ht).trans (hostTurn_accepted _ hw ho h4 haddr), accessAt_turns h4 a.kind _⟩
  | resetPin b => exact ⟨_, step_resetPin ht, rfl⟩

/-- When every scheduled turn has been taken, the engine's turn comes and leaves the block idle (R200; log 1). -/
theorem runs_idle {s : State} {ts : List Turn} (hl : LatchAgrees s) (ht : s.turns = ts)
    (ha : ∀ a, Turn.host a ∈ ts → a.Accepted) : ∃ t, Runs (ts.length + 1) s t ∧ t.status.busy = false := by
  induction ts generalizing s with
  | nil =>
    obtain ⟨t, h⟩ := exists_engineTurn hl
    exact ⟨t, runs_one ((step_nil ht).trans h), (engineTurn_idles h).1⟩
  | cons turn ts ih =>
    obtain ⟨t, hstep, htt⟩ := exists_step hl ht fun a h => ha a (h ▸ List.mem_cons_self)
    obtain ⟨u, hrun, hu⟩ := ih (latchAgrees_stepInvariant.step hl hstep) htt fun a h => ha a (List.mem_cons_of_mem _ h)
    exact ⟨u, (run_succ hstep _).trans hrun, hu⟩

/-- Settles O44: without resets, the accesses before the engine's first turn; with them, all the turns and one more. -/
theorem commandCompletesEventually : Obligations.CommandCompletesEventually := by
  refine ⟨fun s c hf ha hr => ?completes, fun s hl ha => ?idles⟩
  case completes =>
    obtain ⟨accesses, next, ht, hnext⟩ := exists_accesses_append hr
    have hacc : ∀ a ∈ accesses, a.Accepted ∧ ¬ a.SoftReset := fun a h => ha a (by simp [ht, h])
    obtain ⟨v, hrun, hfv, hs, rfl⟩ := runs_accesses hf hacc ht
    obtain ⟨t, u, hstep, hu, htt, hpend, hbusy, hdone, htu⟩ := step_sameResult hf hfv hs hnext
    rw [← htt] at hu
    exact ⟨_, t, u, by simp [ht], runs_add hrun (runs_one hstep), runs_one hu, hpend, hbusy, hdone, htu⟩
  case idles =>
    obtain ⟨t, hrun, hb⟩ := runs_idle hl rfl ha
    exact ⟨_, t, Nat.le_refl _, hrun, hb⟩

/-! ### One command as the host runs it (R88, R234) -/

/-- STATUS can be polled at any time: the poll answers it and changes nothing else (R66). -/
theorem step_poll {s : State} {rest : List Turn} (hp : s.resetPin = false) (ht : s.turns = hostR .status :: rest) :
    step s = .next ((s.withTurns rest).answer (some (readReg s .status))) := by
  rw [step_read hp (offset_lt (r := .status) rfl) rfl ht]
  exact congrArg _ (hostRead_readable (s := s.withTurns rest) (.inr rfl))

/-- Any number of polls leave at most the last answer. -/
theorem runs_polls {s : State} (n : Nat) {next : List Turn} (hp : s.resetPin = false)
    (ht : s.turns = List.replicate n (hostR .status) ++ next) : ∃ r, Runs n s ((s.withTurns next).answer r) := by
  induction n generalizing s with
  | zero => exact ⟨s.response, by cases s; cases ht; rfl⟩
  | succ n ih =>
    have hstep := step_poll hp ht
    obtain ⟨r, hrun⟩ := ih (s := (s.withTurns (List.replicate n (hostR .status) ++ next)).answer _) hp rfl
    exact ⟨r, (run_succ hstep n).trans hrun⟩

/-- An issue and any number of polls leave the issued command, and at most the last answer. -/
theorem runs_issue_polls {s : State} {v : Word} {polls : Nat} {next : List Turn} (hi : Idle s)
    (ht : s.turns = hostW .cmd v :: (List.replicate polls (hostR .status) ++ next)) :
    ∃ r, Runs (polls + 1) s (((s.issue v).withTurns next).answer r) := by
  have hissue := step_cmd_idle hi ht
  obtain ⟨r, hpolls⟩ := runs_polls (s := ((s.withTurns (List.replicate polls (hostR .status) ++ next)).answer none).issue v)
    polls hi.2 rfl
  exact ⟨r, (run_succ hissue polls).trans hpolls⟩

/-- Settles O45: the issue and the polls, the completion in the host's fields that they leave, and the last poll. -/
theorem issueAndWaitRunsCommand : Obligations.IssueAndWaitRunsCommand := by
  intro s i polls rest hi hw ht
  obtain ⟨code, u, hpin, hu⟩ := completeWord_withHostFieldsOf (encode i) (s.issue (encode i))
  have hexec : exec i (s.issue (encode i)) = .next ((u.withHostFieldsOf (s.issue (encode i))).complete code) :=
    (completeWord_ok (decodeInvertsEncode i hw) _).symm.trans (hu (s.issue (encode i)))
  refine ⟨_, hexec, ?run, Status.word_getLsbD _ 0⟩
  case run =>
    have hturns : s.turns = command i :: (List.replicate polls (hostR .status) ++ .engine :: hostR .status :: rest) := by
      rw [ht, commandAndWait, waitTurns, List.cons_append, List.append_assoc]; rfl
    obtain ⟨r, hpolls⟩ := runs_issue_polls hi hturns
    have hcompletion := step_completes (v := ((s.issue (encode i)).withTurns (.engine :: hostR .status :: rest)).answer r)
      ⟨rfl, rfl, hi.2⟩ rfl (.inr ⟨_, rfl⟩) hu
    exact runs_add (k := 2) hpolls ((run_succ hcompletion 1).trans (runs_one (step_poll (hpin.trans hi.2) rfl)))

end Sys2Proof.Machine
end

section
/-! PROOFS of the reset's and the hazards' family (70_reset_and_hazards.md). First what each event leaves of the reset input's
level, and the two resets; then OVERRUN, which a dropped write sets and only the host or a reset clears. -/

namespace Sys2Proof.Machine

/-! ### The level of the reset input (R230) -/

theorem writeReg_resetPin (v : Word) (s : State) (r : Reg) : (writeReg v s r).resetPin = s.resetPin := by cases r <;> rfl

theorem writeCtrl_resetPin (v : Word) (s : State) : (writeCtrl v s).resetPin = s.resetPin := by
  unfold writeCtrl
  split <;> rfl

theorem hostWrite_resetPin {off : Nat} (h4 : off % 4 = 0) (v : Word) (s : State) :
    (hostWrite off v s).resetPin = s.resetPin := by
  rcases hostWrite_cases off v s h4 with ⟨-, e⟩ | ⟨-, e⟩ | ⟨-, e⟩ | ⟨-, e⟩ | ⟨-, r, -, -, -, -, e⟩ <;> rw [e]
  · exact writeCtrl_resetPin v s
  · rfl
  · rfl
  · exact writeReg_resetPin v s r

theorem accessAt_resetPin {off : Nat} (h4 : off % 4 = 0) (kind : AccessKind) (s : State) :
    (accessAt off kind s).resetPin = s.resetPin := by
  rcases accessAt_cases off kind s with ⟨-, v, e⟩ | ⟨-, -, e⟩ | ⟨-, v, -, e⟩ <;> rw [e]
  · rfl
  · rcases hostRead_cases off s with e' | e' <;> rw [e'] <;> rfl
  · exact hostWrite_resetPin h4 v _

theorem completeWord_resetPin {c : Word} {s t : State} (h : completeWord c s = .next t) : t.resetPin = s.resetPin := by
  obtain ⟨code, u, e, -, -, -, hpin, -⟩ := completeWord_completes c s
  rw [e] at h
  cases h; exact hpin

theorem engineTurn_keeps_resetPin {s t : State} (h : engineTurn s = .next t) : t.resetPin = s.resetPin := by
  rcases engineTurn_cases s with ⟨-, e⟩ | ⟨-, e⟩ | ⟨-, -, e⟩ | ⟨c, -, e⟩ <;> rw [e] at h
  · cases h; rfl
  · cases h; rfl
  · cases h
  · exact completeWord_resetPin h

/-- Neither the engine nor the host moves the reset input. -/
theorem step_keeps_resetPin {s t : State} (h : step s = .next t) (hpin : ∀ b rest, s.turns ≠ .resetPin b :: rest) :
    t.resetPin = s.resetPin := by
  rcases step_cases s with ⟨-, e⟩ | ⟨a, rest, -, e⟩ | ⟨b, rest, ht, -⟩
  · exact engineTurn_keeps_resetPin (s := s.withTurns s.turns.tail) (e ▸ h)
  · rw [e] at h
    rcases hostTurn_cases a (s.withTurns rest) with ⟨-, e⟩ | ⟨-, r, e⟩ | ⟨off, -, h4, -, e⟩ <;> rw [e] at h <;> cases h
    · rfl
    · exact accessAt_resetPin h4 a.kind _
  · exact absurd ht (hpin b rest)

/-! ### The block held in reset (R230) -/

/-- With the reset input released there is nothing to hold. -/
theorem resetHeld_of_released {s : State} (h : s.resetPin = false) : ResetHeld s := fun hp => nomatch hp.symm.trans h

theorem resetHeld_stepInvariant : StepInvariant ResetHeld where
  withTurns _ ts h hp := congrArg (State.withTurns ts) (h hp)
  answer _ v h hp := congrArg (State.answer v) (h hp)
  answerFree _ h hp := congrArg State.answerFree (h hp)
  resetBlock _ _ := rfl
  resetPinTurn _ _ _ := rfl
  withEnable _ _ hp _ := resetHeld_of_released hp
  writeStatus _ _ hp _ := resetHeld_of_released hp
  markOverrun _ hp _ := resetHeld_of_released hp
  writeReg s v r hi _ := resetHeld_of_released ((writeReg_resetPin v s r).trans hi.2)
  completeWord s t c hc _ h := by
    obtain ⟨-, -, hp⟩ := hc
    exact resetHeld_of_released ((completeWord_resetPin h).trans hp)

/-- Settles O49: a reset block stays one under each turn, and what else writes the block needs the input released. -/
theorem stepKeepsReset : Obligations.StepKeepsReset := fun _ _ => resetHeld_stepInvariant.step

/-- A turn of the reset input is a reset of the block at the new level (log 9). -/
theorem resetPinTurn_eq (b : Bool) (s : State) : resetPinTurn b s = { s with resetPin := b }.resetBlock := rfl

/-- Settles O30: a turn of the input resets the block, a held block is a reset one, and no other turn moves the level. -/
theorem hardwareResetHoldsBlock : Obligations.HardwareResetHoldsBlock := by
  refine ⟨fun s b rest ht => ?edge, fun s t _ hheld h hp => ?held, fun s t => step_keeps_resetPin⟩
  case edge =>
    refine ⟨_, step_resetPin ht, fun r => ?_, rfl, rfl, rfl, rfl, rfl, rfl⟩
    rw [resetPinTurn_eq, readReg_resetBlock]
  case held =>
    have hreset : t.resetBlock = t := resetHeld_stepInvariant.step hheld h hp
    rw [← hreset]
    exact ⟨readReg_resetBlock t, rfl, rfl, rfl⟩

/-! ### The soft reset (R231) -/

/-- A write of CTRL with SRST resets the block, whether the reset input is asserted or not. -/
theorem accessAt_softReset {v : Word} (h : v.getLsbD 1 = true) (s : State) :
    accessAt Reg.ctrl.offset (.write v) s = (s.answer none).resetBlock := by
  have hsoft : hostWrite Reg.ctrl.offset v (s.answer none) = (s.answer none).resetBlock := by
    rw [Reg.offset, hostWrite_ctrl, writeCtrl, if_pos h]
  rw [accessAt, hsoft, ite_self]

/-- Settles O29: the write is taken at any time, and leaves a reset block. -/
theorem softResetClearsBlock : Obligations.SoftResetClearsBlock := by
  intro s v rest ht h
  have hstep := step_access ht (offset_lt (r := .ctrl) rfl) (offset_aligned .ctrl)
  rw [accessAt_softReset h] at hstep
  exact ⟨_, hstep, readReg_resetBlock _, rfl, rfl, rfl, rfl, rfl⟩

/-! ### OVERRUN (R24, R241) -/

/-- A write at any offset while the reset input is released (R65). -/
theorem step_write {s : State} {off : Nat} {v : Word} {rest : List Turn} (hp : s.resetPin = false) (ho : off < 0x200)
    (h4 : off % 4 = 0) (h : s.turns = .host ⟨Config.base + off, 32, .write v⟩ :: rest) :
    step s = .next (hostWrite off v ((s.withTurns rest).answer none)) := by
  rw [step_access h ho h4]
  simp [accessAt, hp]

/-- A dropped write sets bit 3 of STATUS as read. -/
theorem markOverrun_word (s : State) : s.markOverrun.status.word = s.status.word ||| 0x8 := by
  have h8 : (0x8 : Word) = BitVec.twoPow 32 3 := rfl
  apply BitVec.eq_of_getLsbD_eq
  intro k _
  rw [BitVec.getLsbD_or, h8, BitVec.getLsbD_twoPow, Status.word_getLsbD, Status.word_getLsbD]
  match k with
  | 0 | 1 | 2 | 3 | k + 4 => simp

/-- Settles O31: the step is the dropped write, which sets OVERRUN and writes nothing else. -/
theorem writeWhileBusyDropped : Obligations.WriteWhileBusyDropped := by
  intro s c v off rest hf hoff h4 hctrl hstatus ht
  obtain ⟨hb, hpend, hp⟩ := hf
  have hstep : step s = .next ((s.withTurns rest).answer none).markOverrun := by
    rw [step_write hp hoff h4 ht, hostWrite_busy (s := (s.withTurns rest).answer none) hb hctrl hstatus]
  refine ⟨_, hstep, fun r hr => ?frame, markOverrun_word _, ⟨rfl, rfl⟩, ⟨hb, hpend, hp⟩, rfl⟩
  case frame => rw [readReg_markOverrun hr, readReg_answer, readReg_withTurns]

theorem writeReg_overrun (v : Word) (s : State) (r : Reg) : (writeReg v s r).status.overrun = s.status.overrun := by
  cases r <;> rfl

/-- While the reset input is released, the engine leaves OVERRUN as it is (R200). -/
theorem engineTurn_overrun {s t : State} (hp : s.resetPin = false) (h : engineTurn s = .next t) :
    t.status.overrun = s.status.overrun := by
  rcases engineTurn_cases s with ⟨hr, -⟩ | ⟨-, e⟩ | ⟨-, -, e⟩ | ⟨c, -, e⟩
  · cases hp.symm.trans hr
  · rw [e] at h; cases h; rfl
  · rw [e] at h; cases h
  · obtain ⟨code, u, e', -, -, hstatus, -⟩ := completeWord_completes c s
    rw [e, e'] at h
    cases h; exact (State.complete_status_overrun code u).trans (congrArg Status.overrun hstatus)

/-- Settles O32: of what a step can do to OVERRUN, only a reset and the host's write of its bit clear it. -/
theorem overrunClearedOnlyByHost : Obligations.OverrunClearedOnlyByHost := by
  intro s t hp hs h ht
  have hkept : t.status.overrun ≠ s.status.overrun := by rw [hs, ht]; exact Bool.false_ne_true
  rcases step_released_cases hp h with ⟨-, he⟩ | ⟨b, rest, hturn, -⟩ | ⟨a, rest, -, hcase⟩
  · exact absurd (engineTurn_overrun (s := s.withTurns s.turns.tail) hp he) hkept
  · exact ⟨rest, .inl ⟨b, hturn⟩⟩
  · rcases hcase with rfl | rfl | ⟨v, rfl⟩ | ⟨v, hw, rfl⟩ | ⟨v, hw, rfl⟩ | ⟨-, rfl⟩ | ⟨r, v, -, -, -, -, -, rfl⟩
    · exact absurd rfl hkept
    · exact absurd rfl hkept
    · exact absurd rfl hkept
    · cases hsoft : v.getLsbD 1 with
      | true => exact ⟨rest, .inr ⟨v, .inr ⟨hw, hsoft⟩⟩⟩
      | false => exact absurd (by rw [writeCtrl_of_clear hsoft]; rfl) hkept
    · cases hclear : v.getLsbD 3 with
      | true => exact ⟨rest, .inr ⟨v, .inl ⟨hw, hclear⟩⟩⟩
      | false => exact absurd (by simp [-BitVec.getLsbD_eq_getElem, hclear]) hkept
    · cases ht
    · exact absurd (writeReg_overrun v _ r) hkept

end Sys2Proof.Machine
end

section
/-! PROOFS of the statements on several commands together and on SHA-256. First DECODE's split, and what DECODE does with the
indices of an ENCODE and with changed ones (41_grouper.md); then the die-roll session as the source's function of its faces
(42_dice.md); then the padded message and the message schedule (40_checksum.md). -/

namespace Sys2Proof.Machine

/-! ### DECODE's split (R134, R138) -/

theorem splitPoint_eq_of_mul {w k : Nat} (h : w = 3 * k) : splitPoint (11 * w) = 32 * k := by
  rw [splitPoint]; omega

/-- A split at a whole byte is a split of 33 bits for every three words (R138). -/
theorem splitPoint_mod_eight_iff {w : Nat} : splitPoint (11 * w) % 8 = 0 ↔ ∃ k, w = 3 * k := by
  constructor
  · intro h
    rw [splitPoint] at h
    exact ⟨w / 3, by omega⟩
  · rintro ⟨k, hk⟩
    rw [splitPoint_eq_of_mul hk]; omega

theorem mem_decodable_iff {w : Nat} (hw : w ≤ 24) : w ∈ [0, 3, 6, 9, 12, 15, 18, 21, 24] ↔ ∃ k, w = 3 * k := by
  simp only [List.mem_cons, List.not_mem_nil, or_false]
  constructor
  · intro h
    exact ⟨w / 3, by omega⟩
  · rintro ⟨k, hk⟩
    omega

/-- The splits that R138 lists for the other word counts. -/
theorem splitPoint_undecodable : ∀ w ≤ 24, w ∉ [0, 3, 6, 9, 12, 15, 18, 21, 24] → (w, splitPoint (11 * w)) ∈
    [(1, 10), (2, 21), (4, 42), (5, 53), (7, 74), (8, 85), (10, 106), (11, 117), (13, 138), (14, 149), (16, 170),
      (17, 181), (19, 202), (20, 213), (22, 234), (23, 245)] := by decide

/-- Once DECODE has passed the split, CSUM has a bit for every 32 of the entropy (R110, R137). -/
theorem DecodeEnds.csum_len {s u : State} {code : ErrCode} (h : DecodeEnds s code u) (hw : s.wordCount.toNat ≤ 24)
    (he : decodedLength s % 8 = 0) : u.csum.len.toNat = decodedLength s / 32 := by
  have hl := decodedEntropy_length hw
  have h256 := decodedLength_le hw
  have hc : (checksum (decodedEntropy s)).2.length = decodedLength s / 32 := by rw [checksum_length (by omega), hl]
  have hu : u.csum = ChecksumReg.ofBits (checksum (decodedEntropy s)).2 := by
    cases h with
    | split ho => exact absurd he ho
    | mismatch | recovered => rfl
  rw [hu, ChecksumReg.ofBits_len (by omega), hc]

/-- Settles O15: DECODE passes the split exactly for the word counts of three times a number. -/
theorem decodableWordCounts : Obligations.DecodableWordCounts := by
  intro s hw
  obtain ⟨code, u, hu, hends⟩ := exec_decode_short hw
  refine ⟨_, hu, splitPoint_mod_eight_iff.trans (mem_decodable_iff hw).symm, fun hmem => ?whole,
    fun hmem => ⟨splitPoint_undecodable _ hw hmem, ?odd⟩⟩
  case whole =>
    obtain ⟨k, hk⟩ := (mem_decodable_iff hw).mp hmem
    have hsplit : decodedLength s = 32 * k := splitPoint_eq_of_mul hk
    have he : decodedLength s % 8 = 0 := by omega
    refine ⟨by rw [splitPoint_eq_of_mul hk]; omega, ?supplied, ?computed, ?code⟩
    case supplied =>
      rw [State.complete_csumSupplied, hends.csumSupplied_eq, ChecksumReg.ofBits_len (suppliedChecksum_length_le hw),
        suppliedChecksum_length hw]
      omega
    case computed => rw [State.complete_csum, hends.csum_len hw he]; omega
    case code =>
      cases hends with
      | split ho => exact absurd he ho
      | mismatch | recovered => simp [ErrCode.bits]
  case odd =>
    have ho : decodedLength s % 8 ≠ 0 := mt (splitPoint_mod_eight_iff.trans (mem_decodable_iff hw).symm).mp hmem
    cases hends with
    | split => rfl
    | mismatch he | recovered he => exact absurd he ho

/-! ### ENCODE, then DECODE (R140) -/

section
variable {s t : State} (hl : LengthAccepted s) (hw : t.wordCount = s.withEncoded.wordCount)
include hl hw

theorem mnemonicLength_of_encoded : mnemonicLength t = (entropyLength s + entropyLength s / 32) / 11 := by
  rw [mnemonicLength, hw, withEncoded_wordCount_toNat hl, combinedBits_length hl.2]

/-- The indices of an ENCODE are those of its combined bits (R131, R135). -/
theorem mnemonicIndices_of_encoded (hi : t.idx = s.withEncoded.idx) :
    mnemonicIndices t = (group (combinedBits s)).map (BitVec.ofNat 11) := by
  have hlen : mnemonicLength t = (group (combinedBits s)).length := by
    rw [mnemonicLength, hw, withEncoded_wordCount_toNat hl, group_length]
  have h24 : mnemonicLength t ≤ 24 := by
    have h256 : entropyLength s ≤ 256 := hl.2
    rw [mnemonicLength_of_encoded hl hw]; omega
  apply List.ext_getElem
  · simpa [mnemonicIndices, hlen] using h24
  · intro i _ h2
    have hig : i < (group (combinedBits s)).length := by simpa using h2
    simp [mnemonicIndices, hi, List.getElem?_eq_getElem hig]

/-- DECODE joins the bits of an ENCODE's indices to its combined bits, without the grouping remainder (R131, R133). -/
theorem decodedBits_of_encoded (hi : t.idx = s.withEncoded.idx) :
    decodedBits t = (combinedBits s).take (11 * ((entropyLength s + entropyLength s / 32) / 11)) := by
  rw [decodedBits, mnemonicIndices_of_encoded hl hw hi, ungroup_group, combinedBits_length hl.2]

/-- Without a grouping remainder DECODE finds the entropy and the checksum that ENCODE joined (R140). -/
theorem decoded_of_encoded (hi : t.idx = s.withEncoded.idx) {k : Nat} (hk : entropyLength s = 32 * k) :
    decodedLength t = entropyLength s ∧ decodedEntropy t = entropy s ∧
      suppliedChecksum t = (checksum (entropy s)).2 := by
  have hel : (entropy s).length = entropyLength s := str_length _ _
  have hcl := combinedBits_length hl.2
  have hlen : mnemonicLength t = 3 * k := by rw [mnemonicLength_of_encoded hl hw]; omega
  have hsplit : decodedLength t = (entropy s).length := by
    rw [decodedLength, splitPoint_eq_of_mul hlen]; omega
  have hend : 11 * mnemonicLength t - (entropy s).length = (checksum (entropy s)).2.length := by
    rw [checksum_length (entropy_length_le hl)]; omega
  have hbits : decodedBits t = entropy s ++ (checksum (entropy s)).2 := by
    rw [decodedBits_of_encoded hl hw hi]
    exact List.take_of_length_le (by rw [hcl]; omega)
  refine ⟨hsplit.trans hel, ?_, ?_⟩
  · rw [decodedEntropy, hsplit, hbits]; simp [substr]
  · rw [suppliedChecksum, hsplit, hbits, substr, List.drop_left, hend, List.take_length]

end

/-- Settles O23: without a grouping remainder DECODE reads back the combined bits and splits them where ENCODE joined them;
a length that comes back is 32 bits for every three words, and has no remainder. -/
theorem encodeDecodeRoundTrip : Obligations.EncodeDecodeRoundTrip := by
  refine fun s => ⟨fun hmem => ?roundTrip, fun hl hr => ?remainder, fun h40 => ?forty⟩
  case roundTrip =>
    simp only [List.mem_cons, List.not_mem_nil, or_false] at hmem
    obtain ⟨k, hk⟩ : ∃ k, entropyLength s = 32 * k := ⟨entropyLength s / 32, by omega⟩
    have hl : LengthAccepted s := ⟨by omega, by rw [Config.maxEntBits]; omega⟩
    refine ⟨_, exec_encode_good hl, rfl, fun t hw hi => ?_⟩
    obtain ⟨hlen, hent, hsup⟩ := decoded_of_encoded hl hw hi hk
    have hw24 : t.wordCount.toNat ≤ 24 := by
      have hm := mnemonicLength_of_encoded hl hw
      have h256 : entropyLength s ≤ 256 := hl.2
      rw [mnemonicLength] at hm; omega
    have he : decodedLength t % 8 = 0 := by omega
    refine ⟨_, execDecode_good hw24 he (by rw [hsup, hent]), rfl, rfl, ?_, ?_⟩
    · exact BitVec.eq_of_toNat_eq ((withRecovered_entLen_toNat hw24).trans hlen)
    · have hput := str_put (entropy_length_le hl)
      rw [entropy, str_length] at hput
      rw [State.complete_ent, State.withRecovered_ent, hent]
      exact hput
  case remainder =>
    have hwc := mnemonicLength_of_encoded (t := s.withEncoded.complete .noError) hl rfl
    have h256 : entropyLength s ≤ 256 := hl.2
    have hw24 : (s.withEncoded.complete .noError).wordCount.toNat ≤ 24 := by rw [mnemonicLength] at hwc; omega
    obtain ⟨code, u, hu, hends⟩ := exec_decode_short hw24
    refine ⟨_, _, exec_encode_good hl, rfl, hu, ?_⟩
    cases hends with
    | split | mismatch => exact .inl rfl
    | recovered he =>
      refine .inr fun hback => hr ?_
      obtain ⟨k, hk⟩ := splitPoint_mod_eight_iff.mp he
      have hlen : 32 * k = entropyLength s := by
        rw [← splitPoint_eq_of_mul hk, entropyLength, ← hback]
        exact (withRecovered_entLen_toNat hw24).symm
      omega
  case forty =>
    have hl : LengthAccepted s := by rw [LengthAccepted, h40]; decide
    have hwc := mnemonicLength_of_encoded (t := s.withEncoded.complete .noError) hl rfl
    rw [h40] at hwc
    have hw3 : (s.withEncoded.complete .noError).wordCount.toNat = 3 := hwc
    obtain ⟨code, u, hu, hends⟩ := exec_decode_short (by omega : (s.withEncoded.complete .noError).wordCount.toNat ≤ 24)
    refine ⟨_, _, exec_encode_good hl, hu, BitVec.eq_of_toNat_eq hw3, fun herr => ?_⟩
    cases hends with
    | split | mismatch => cases herr
    | recovered => rw [State.complete_entLen, State.withRecovered_entLen, decodedLength, hwc]; rfl

/-! ### Changed indices (R141) -/

theorem decodedBits_eq_append {s : State} (hw : s.wordCount.toNat ≤ 24) :
    decodedBits s = decodedEntropy s ++ suppliedChecksum s := by
  have hl := decodedBits_length hw
  have hsup : (decodedBits s).drop (decodedLength s) = suppliedChecksum s := by
    rw [suppliedChecksum, substr, List.take_of_length_le (by rw [List.length_drop, hl, mnemonicLength])]
  rw [← hsup]
  exact (List.take_append_drop _ _).symm

/-- Different indices differ in the entropy part or in the checksum part. -/
theorem mnemonicIndices_eq_of_parts {s t : State} (hs : s.wordCount.toNat ≤ 24) (ht : t.wordCount.toNat ≤ 24)
    (he : decodedEntropy t = decodedEntropy s) (hc : suppliedChecksum t = suppliedChecksum s) :
    mnemonicIndices t = mnemonicIndices s := by
  have hbits : ungroup (mnemonicIndices t) = ungroup (mnemonicIndices s) := by
    have h := decodedBits_eq_append ht
    rw [he, hc, ← decodedBits_eq_append hs] at h
    exact h
  have h := congrArg group hbits
  rw [group_ungroup, group_ungroup] at h
  exact List.map_injective_iff.mpr (fun _ _ => BitVec.eq_of_toNat_eq) h

/-- A DECODE that reports no error had up to 24 words, passed the split, and found its checksum (R137). -/
theorem decode_succeeds {s t : State} (h : exec .decode s = .next t) (herr : t.status.err = false) :
    s.wordCount.toNat ≤ 24 ∧ decodedLength s % 8 = 0 ∧ suppliedChecksum s = (checksum (decodedEntropy s)).2 := by
  by_cases hw : s.wordCount.toNat ≤ 24
  case neg => rw [exec_decode_long (Nat.not_le.mp hw)] at h; cases h; cases herr
  case pos =>
    obtain ⟨code, u, hu, hends⟩ := exec_decode_short hw
    rw [hu] at h; cases h
    cases hends with
    | split | mismatch => cases herr
    | recovered he hm => exact ⟨hw, he, hm⟩

/-- Zero entropy of 128 bits with bit 0 set, and the checksum of the zero entropy (95_test_vectors.md, section 2.3). -/
def collidingIndices : State :=
  { State.reset with
    wordCount := 12
    idx := tabulate 24 fun i => if i = 0 then 0x400 else if i = 11 then 3 else 0 }

theorem collidingIndices_checksum :
    suppliedChecksum collidingIndices = (checksum (decodedEntropy collidingIndices)).2 := by decide +kernel

/-- Settles O24: DECODE compares the supplied checksum with one that only the entropy part determines. -/
theorem changedChecksumBitsFail : Obligations.ChangedChecksumBitsFail := by
  refine ⟨fun s s' t hd herr hwc hne => ?changed, ?collision⟩
  case changed =>
    obtain ⟨hw, he, hm⟩ := decode_succeeds hd herr
    have hw' : s'.wordCount.toNat ≤ 24 := hwc ▸ hw
    have he' : decodedLength s' % 8 = 0 := by rwa [decodedLength, mnemonicLength, hwc]
    refine ⟨fun hent => ?checksumPart, fun hsup => ?entropyPart⟩
    case checksumPart =>
      have hm' : suppliedChecksum s' ≠ (checksum (decodedEntropy s')).2 := by
        rw [hent, ← hm]
        exact fun hsup => hne (mnemonicIndices_eq_of_parts hw hw' hent hsup)
      exact ⟨_, execDecode_mismatch hw' he' hm', rfl, rfl⟩
    case entropyPart =>
      rw [← hm, ← hsup]
      by_cases hm' : suppliedChecksum s' = (checksum (decodedEntropy s')).2
      · exact ⟨_, execDecode_good hw' he' hm', .inl rfl, iff_of_true rfl hm'.symm⟩
      · exact ⟨_, execDecode_mismatch hw' he' hm', .inr rfl, iff_of_false (by simp [ErrCode.bits]) (Ne.symm hm')⟩
  case collision =>
    exact ⟨_, execDecode_good (by decide) (by decide) collidingIndices_checksum, rfl, by decide +kernel,
      by decide +kernel⟩

/-! ### The source's digits (R160, R165, R168) -/

theorem digitTotal_eq_ofDigits (ds : List Nat) : digitTotal ds = Nat.ofDigits 4 ds :=
  (Nat.ofDigits_eq_foldr 4 ds).symm

theorem acceptedDigits_append (fs gs : List Nat) :
    acceptedDigits (fs ++ gs) = acceptedDigits fs ++ acceptedDigits gs := by
  simp [acceptedDigits]

/-- A face outside 1..6 (R160). -/
def invalidFace (f : Nat) : Bool := f == 0 || 6 < f

/-- What the source's policy makes of one face is its class (R160). -/
theorem classifyFace_cases (f : Nat) :
    (classifyFace f = .invalid ∧ invalidFace f = true) ∨
    (classifyFace f = .discarded ∧ invalidFace f = false ∧ acceptedDigits [f] = []) ∨
    ∃ d < 4, classifyFace f = .accepted d ∧ invalidFace f = false ∧ acceptedDigits [f] = [d] := by
  have hsmall : ∀ f < 7, (classifyFace f = .invalid ∧ invalidFace f = true) ∨
      (classifyFace f = .discarded ∧ invalidFace f = false ∧ acceptedDigits [f] = []) ∨
      ∃ d < 4, classifyFace f = .accepted d ∧ invalidFace f = false ∧ acceptedDigits [f] = [d] := by decide
  by_cases h : f < 7
  · exact hsmall f h
  · refine .inl ⟨?_, ?_⟩
    · rw [classifyFace, if_neg (by omega), if_neg (by omega), if_neg (by omega)]
    · simp [invalidFace]; omega

/-- The digits of valid faces are base-4 digits (R160). -/
theorem acceptedDigits_lt {fs : List Nat} (h : fs.any invalidFace = false) : ∀ d ∈ acceptedDigits fs, d < 4 := by
  induction fs with
  | nil => simp [acceptedDigits]
  | cons f fs ih =>
    rw [List.any_cons, Bool.or_eq_false_iff] at h
    intro d hd
    rw [← List.singleton_append, acceptedDigits_append, List.mem_append] at hd
    rcases hd with hd | hd
    · rcases classifyFace_cases f with ⟨-, hf⟩ | ⟨-, -, hf⟩ | ⟨e, he, -, -, hf⟩
      · cases h.1.symm.trans hf
      · rw [hf] at hd; cases hd
      · rw [hf, List.mem_singleton] at hd; exact hd ▸ he
    · exact ih h.2 d hd

/-- The low `2k` bits of the source's total are its first `k` digits (R165). -/
theorem digitTotal_mod {ds : List Nat} (h : ∀ d ∈ ds, d < 4) (k : Nat) :
    digitTotal ds % 2 ^ (2 * k) = digitTotal (ds.take k) := by
  rw [digitTotal_eq_ofDigits, digitTotal_eq_ofDigits, Nat.pow_mul]
  exact Nat.ofDigits_mod_pow_eq_ofDigits_take k (by decide) ds h

/-- One more digit counts in units of the power of the digits before it (R165). -/
theorem digitTotal_append_singleton (ds : List Nat) (d : Nat) :
    digitTotal (ds ++ [d]) = digitTotal ds + 4 ^ ds.length * d := by
  rw [digitTotal_eq_ofDigits, digitTotal_eq_ofDigits, Nat.ofDigits_append, Nat.ofDigits_singleton]

theorem digitTotal_lt {ds : List Nat} (h : ∀ d ∈ ds, d < 4) : digitTotal ds < 4 ^ ds.length := by
  rw [digitTotal_eq_ofDigits]
  exact Nat.ofDigits_lt_base_pow_length (by decide) h

/-- A digit placed where ACC has none yet is added in units of its position (R165). -/
theorem setDigit_toNat {acc : BitVec 256} {i d : Nat} (hacc : acc.toNat < 4 ^ i) (hd : d < 4) (hi : i < 128) :
    (setDigit acc i d).toNat = acc.toNat + 4 ^ i * d := by
  have hpow : (4 : Nat) ^ i = 2 ^ (2 * i) := (Nat.pow_mul 2 2 i).symm
  rw [hpow] at hacc ⊢
  rw [Nat.add_comm]
  apply Nat.eq_of_testBit_eq
  intro b
  rw [Nat.testBit_two_pow_mul_add d hacc, BitVec.testBit_toNat]
  have hhigh {x k m : Nat} (hx : x < 2 ^ k) (hm : k ≤ m) : x.testBit m = false :=
    Nat.testBit_lt_two_pow (Nat.lt_of_lt_of_le hx (Nat.pow_le_pow_right (by decide) hm))
  rcases (by omega : b < 2 * i ∨ b / 2 = i ∨ 2 * i + 2 ≤ b) with hb | hb | hb
  · rw [setDigit_getLsbD acc i hd (by omega), if_neg (by omega), if_pos hb, BitVec.testBit_toNat]
  · rw [setDigit_getLsbD acc i hd (by omega), if_pos hb, if_neg (by omega), show b - 2 * i = b % 2 by omega]
  · rw [if_neg (by omega), hhigh (k := 2) hd (by omega), ← BitVec.testBit_toNat]
    refine hhigh ?_ hb
    have h := setDigit_lt (i := i) (by rwa [hpow]) hd
    rwa [← Nat.pow_mul 2 2] at h

/-! ### The session after some rolls (R162, R164) -/

/-- The open session for target `n` that has seen `rolls`: BADROLL, ACCEPTED and ACC as the source's digits give them. -/
structure SessionAfter (n : Nat) (rolls : List Nat) (s : State) : Prop where
  armed : s.diceState.armed = true
  target : s.diceState.target.toNat = n
  badRoll : s.diceState.badRoll = rolls.any invalidFace
  accepted : rolls.any invalidFace = false → s.diceCount.accepted.toNat = min (acceptedDigits rolls).length 0xFFFF
  digits : rolls.any invalidFace = false → s.acc.toNat = digitTotal ((acceptedDigits rolls).take (n / 2))

theorem SessionAfter.of_eq {n : Nat} {rolls : List Nat} {s t : State} (h : SessionAfter n rolls s)
    (hs : t.diceState = s.diceState) (hc : t.diceCount = s.diceCount) (ha : t.acc = s.acc) : SessionAfter n rolls t := by
  obtain ⟨h1, h2, h3, h4, h5⟩ := h
  exact ⟨by rwa [hs], by rwa [hs], by rwa [hs], by rwa [hc], by rwa [ha]⟩

theorem sessionAfter_withSession {n : Nat} (h256 : n ≤ 256) (s : State) : SessionAfter n [] (s.withSession n) where
  armed := rfl
  target := by simp; omega
  badRoll := rfl
  accepted _ := rfl
  digits _ := by simp [acceptedDigits, digitTotal]

theorem any_invalidFace_append (rolls : List Nat) (f : Nat) :
    (rolls ++ [f]).any invalidFace = (rolls.any invalidFace || invalidFace f) := by
  simp

/-- An accepted digit takes its place in ACC while one of the first TARGET/2, and is counted (R164, R165). -/
theorem SessionAfter.acceptDigit {n : Nat} {rolls : List Nat} {s : State} (h : SessionAfter n rolls s) (h256 : n ≤ 256)
    {f d : Nat} (hd : d < 4) (hf : invalidFace f = false) (hdigit : acceptedDigits [f] = [d]) :
    SessionAfter n (rolls ++ [f]) (s.acceptDigit d) where
  armed := h.armed
  target := h.target
  badRoll := by rw [any_invalidFace_append, hf, Bool.or_false]; exact h.badRoll
  accepted hv := by
    rw [any_invalidFace_append, hf, Bool.or_false] at hv
    have hcount := h.accepted hv
    rw [acceptedDigits_append, hdigit, List.length_append, List.length_singleton]
    simp [sat16_toNat]; omega
  digits hv := by
    rw [any_invalidFace_append, hf, Bool.or_false] at hv
    have hcount := h.accepted hv
    have hacc := h.digits hv
    have htarget := h.target
    rw [acceptedDigits_append, hdigit]
    by_cases hroom : (acceptedDigits rolls).length < n / 2
    · have hi : s.diceCount.accepted.toNat = (acceptedDigits rolls).length := by omega
      rw [List.take_of_length_le (by omega)] at hacc
      rw [acceptDigit_acc_of_lt (by omega), List.take_of_length_le (by simp; omega), digitTotal_append_singleton, hi,
        setDigit_toNat (by rw [hacc]; exact digitTotal_lt (acceptedDigits_lt hv)) hd (by omega), hacc]
    · rw [acceptDigit_acc_of_le (by omega), List.take_append_of_le_length (by omega), hacc]

/-- One more roll, of any face, feeds the session as the source's policy feeds its digits (R160, R164). -/
theorem SessionAfter.roll {n : Nat} {rolls : List Nat} {s : State} (h : SessionAfter n rolls s) (h256 : n ≤ 256)
    (f : Nat) : ∃ t, exec (.diceRoll f) s = .next t ∧ SessionAfter n (rolls ++ [f]) t := by
  have hcounted : SessionAfter n rolls s.countRoll := ⟨h.armed, h.target, h.badRoll, h.accepted, h.digits⟩
  rcases classifyFace_cases f with ⟨hc, hf⟩ | ⟨hc, hf, hnone⟩ | ⟨d, hd, hc, hf, hdigit⟩
  · have hbad : (rolls ++ [f]).any invalidFace = true := by rw [any_invalidFace_append, hf, Bool.or_true]
    exact ⟨_, execDiceRoll_invalid h.armed hc, h.armed, h.target, hbad.symm, fun hv => (by cases hbad.symm.trans hv),
      fun hv => (by cases hbad.symm.trans hv)⟩
  · refine ⟨_, execDiceRoll_discarded h.armed hc, ?_⟩
    have hany : (rolls ++ [f]).any invalidFace = rolls.any invalidFace := by
      rw [any_invalidFace_append, hf, Bool.or_false]
    have hds : acceptedDigits (rolls ++ [f]) = acceptedDigits rolls := by
      rw [acceptedDigits_append, hnone, List.append_nil]
    obtain ⟨h1, h2, h3, h4, h5⟩ := hcounted
    exact ⟨h1, h2, hany ▸ h3, by rwa [hany, hds], by rwa [hany, hds]⟩
  · exact ⟨_, execDiceRoll_accepted h.armed hc, (hcounted.acceptDigit h256 hd hf hdigit).of_eq rfl rfl rfl⟩

/-- Any commands but another DICE_START feed the session the faces of the DICE_ROLLs among them (R162, R168). -/
theorem SessionAfter.commands {n : Nat} (h256 : n ≤ 256) (commands : List Instr) {rolls : List Nat} {s : State}
    (h : SessionAfter n rolls s) (hns : ∀ m, Instr.diceStart m ∉ commands) :
    ∃ t, execAll commands s = some t ∧ SessionAfter n (rolls ++ facesOf commands) t := by
  induction commands generalizing rolls s with
  | nil => exact ⟨s, rfl, by simpa [facesOf] using h⟩
  | cons i is ih =>
    have hrest : ∀ m, Instr.diceStart m ∉ is := fun m hm => hns m (List.mem_cons_of_mem _ hm)
    have hfirst : ∀ m, i ≠ .diceStart m := fun m hm => hns m (hm ▸ List.mem_cons_self)
    obtain ⟨v, hv, hsession⟩ : ∃ v, exec i s = .next v ∧ SessionAfter n (rolls ++ facesOf [i]) v := by
      by_cases hroll : ∃ f, i = .diceRoll f
      · obtain ⟨f, rfl⟩ := hroll
        exact h.roll h256 f
      · have hnone : facesOf [i] = [] := by
          cases i with
          | diceRoll f => exact absurd ⟨f, rfl⟩ hroll
          | _ => rfl
        obtain ⟨code, u, he, hu⟩ := exec_effect i s
        obtain ⟨hstate, hcount, hacc⟩ := hu.session_eq hfirst fun f hf => hroll ⟨f, hf⟩
        rw [hnone, List.append_nil]
        exact ⟨_, he, h.of_eq hstate hcount hacc⟩
    obtain ⟨t, ht, hend⟩ := ih hsession hrest
    refine ⟨t, by simp only [execAll, hv, ht], ?_⟩
    have hfaces : facesOf (i :: is) = facesOf [i] ++ facesOf is := by
      rw [facesOf, facesOf, facesOf, ← List.filterMap_append]; rfl
    rwa [hfaces, ← List.append_assoc]

/-- A session from its DICE_START on (R161, R168). -/
theorem exists_sessionAfter (s : State) {n : Nat} (h0 : n ≠ 0) (h2 : n % 2 = 0) (h256 : n ≤ 256)
    {commands : List Instr} (hns : ∀ m, Instr.diceStart m ∉ commands) :
    ∃ t, execAll (.diceStart n :: commands) s = some t ∧ SessionAfter n (facesOf commands) t := by
  have hopen : exec (.diceStart n) s = .next ((s.withSession n).complete .noError) := execDiceStart_good h0 h2 h256
  have hnew : SessionAfter n [] ((s.withSession n).complete .noError) :=
    (sessionAfter_withSession h256 s).of_eq rfl rfl rfl
  obtain ⟨t, ht, h⟩ := hnew.commands h256 commands hns
  exact ⟨t, by simp only [execAll, hopen, ht], h⟩

/-! ### DICE_FINISH and the source's function (R168, R169) -/

section
variable {n : Nat} {rolls : List Nat}

theorem rollsToBitstring_invalid (hv : rolls.any invalidFace = true) :
    rollsToBitstring rolls n = .error .invalidArgument := if_pos hv

theorem rollsToBitstring_few (hv : rolls.any invalidFace = false) (hn : (acceptedDigits rolls).length < n / 2) :
    rollsToBitstring rolls n = .error .insufficientEntropy :=
  (if_neg (ne_true_of_eq_false hv)).trans (if_pos hn)

theorem rollsToBitstring_output (hv : rolls.any invalidFace = false) (hn : n / 2 ≤ (acceptedDigits rolls).length) :
    rollsToBitstring rolls n = .ok (bitsOf n (digitTotal (acceptedDigits rolls) % 2 ^ n)) :=
  (if_neg (ne_true_of_eq_false hv)).trans (if_neg (Nat.not_lt.mpr hn))

end

section
variable {n : Nat} {rolls : List Nat} {s : State} (h : SessionAfter n rolls s)
include h

theorem SessionAfter.finish_invalid (hv : rolls.any invalidFace = true) :
    exec .diceFinish s = .next (s.complete .invalidArgument) :=
  execDiceFinish_badRoll h.armed (h.badRoll.trans hv)

theorem SessionAfter.finish_few (h256 : n ≤ 256) (h2 : n % 2 = 0) (hv : rolls.any invalidFace = false)
    (hn : (acceptedDigits rolls).length < n / 2) : exec .diceFinish s = .next (s.complete .insufficientEntropy) := by
  refine execDiceFinish_few h.armed (h.badRoll.trans hv) ?_
  rw [h.target, h.accepted hv, minimumRolls]; omega

theorem SessionAfter.finish_output (h256 : n ≤ 256) (h2 : n % 2 = 0) (hv : rolls.any invalidFace = false)
    (hn : n / 2 ≤ (acceptedDigits rolls).length) :
    ∃ u, exec .diceFinish s = .next u ∧ u.status.err = false ∧ u.status.errCode = 0 ∧
      str u.diceOut n = bitsOf n (digitTotal (acceptedDigits rolls) % 2 ^ n) := by
  refine ⟨_, execDiceFinish_good h.armed (h.badRoll.trans hv) ?enough, rfl, rfl, ?output⟩
  case enough => rw [h.target, h.accepted hv, minimumRolls]; omega
  case output =>
    have htotal : s.acc.toNat = digitTotal (acceptedDigits rolls) % 2 ^ n := by
      rw [h.digits hv, ← digitTotal_mod (acceptedDigits_lt hv), show 2 * (n / 2) = n by omega]
    have hout : sessionOutput s.acc n = bitsOf n (digitTotal (acceptedDigits rolls) % 2 ^ n) := by
      rw [sessionOutput, htotal, Nat.mod_mod]
    have hput := str_put (s := sessionOutput s.acc n) (by rwa [sessionOutput, bitsOf_length])
    rw [sessionOutput, bitsOf_length, ← sessionOutput] at hput
    rw [State.complete_diceOut, State.withOutput_diceOut, h.target, hput, hout]

end

/-- Settles O25: the session holds what the source computes from all the rolls at once. -/
theorem diceStreamComputesSourceFunction : Obligations.DiceStreamComputesSourceFunction := by
  intro s n commands h0 h2 h256 hns _
  obtain ⟨t, ht, h⟩ := exists_sessionAfter s h0 h2 h256 hns
  cases hv : (facesOf commands).any invalidFace with
  | true =>
    rw [rollsToBitstring_invalid hv]
    exact ⟨t, _, ht, h.finish_invalid hv, rfl, rfl⟩
  | false =>
    by_cases hn : n / 2 ≤ (acceptedDigits (facesOf commands)).length
    · obtain ⟨u, hu, -, hcode, hout⟩ := h.finish_output h256 h2 hv hn
      rw [rollsToBitstring_output hv hn]
      exact ⟨t, u, ht, hu, hcode, hout⟩
    · rw [rollsToBitstring_few hv (Nat.not_le.mp hn)]
      exact ⟨t, _, ht, h.finish_few h256 h2 hv (Nat.not_le.mp hn), rfl, rfl⟩

/-! ### The output of each choice of digits (R171) -/

/-- The source's digits of valid faces are as many as the accepted faces (R160). -/
theorem acceptedDigits_length {faces : List Nat} (h : ∀ f ∈ faces, 1 ≤ f ∧ f ≤ 6) :
    (acceptedDigits faces).length = (faces.map acceptedFace).count true := by
  have hone : ∀ f < 7, 1 ≤ f → (acceptedDigits [f]).length = [acceptedFace f].count true := by decide
  induction faces with
  | nil => rfl
  | cons f fs ih =>
    obtain ⟨hf, hfs⟩ := List.forall_mem_cons.mp h
    rw [← List.singleton_append, acceptedDigits_append, List.length_append, hone f (by omega) hf.1, ih hfs,
      List.map_append, List.count_append, List.map_singleton]

/-- The face whose digit is `d` (R160). -/
def faceOfDigit (d : Nat) : Nat := if d = 0 then 6 else d

theorem faceOfDigit_spec : ∀ d < 4, acceptedFace (faceOfDigit d) = true ∧ 1 ≤ faceOfDigit d ∧ faceOfDigit d ≤ 6 ∧
    acceptedDigits [faceOfDigit d] = [d] := by decide

/-- Faces accepted as the pattern says, whose digits begin with the given ones: 4 where a face is discarded, and digit 0
once the given ones are used up. -/
def facesFor : List Bool → List Nat → List Nat
  | [], _ => []
  | false :: pattern, ds => 4 :: facesFor pattern ds
  | true :: pattern, ds => faceOfDigit (ds.headD 0) :: facesFor pattern ds.tail

theorem facesFor_spec (pattern : List Bool) {ds : List Nat} (h : ∀ d ∈ ds, d < 4) :
    (facesFor pattern ds).map acceptedFace = pattern ∧ ∀ f ∈ facesFor pattern ds, 1 ≤ f ∧ f ≤ 6 := by
  induction pattern generalizing ds with
  | nil => simp [facesFor]
  | cons b pattern ih =>
    cases b with
    | false =>
      obtain ⟨hmap, hface⟩ := ih h
      exact ⟨congrArg (false :: ·) hmap, List.forall_mem_cons.mpr ⟨by decide, hface⟩⟩
    | true =>
      obtain ⟨hmap, hface⟩ := ih fun d hd => h d (List.mem_of_mem_tail hd)
      have hd : ds.headD 0 < 4 := by
        cases ds with
        | nil => decide
        | cons d ds => exact h d List.mem_cons_self
      obtain ⟨hacc, h1, h6, -⟩ := faceOfDigit_spec _ hd
      exact ⟨congrArg₂ List.cons hacc hmap, List.forall_mem_cons.mpr ⟨⟨h1, h6⟩, hface⟩⟩

theorem acceptedDigits_facesFor_isPrefix (pattern : List Bool) {ds : List Nat} (h : ∀ d ∈ ds, d < 4)
    (hn : ds.length ≤ pattern.count true) : ds <+: acceptedDigits (facesFor pattern ds) := by
  induction pattern generalizing ds with
  | nil =>
    obtain rfl : ds = [] := List.eq_nil_of_length_eq_zero (by simpa using hn)
    exact List.nil_prefix
  | cons b pattern ih =>
    cases b with
    | false => exact ih h (by simpa using hn)
    | true =>
      cases ds with
      | nil => exact List.nil_prefix
      | cons d ds =>
        obtain ⟨hd, hds⟩ := List.forall_mem_cons.mp h
        obtain ⟨-, -, -, hdigit⟩ := faceOfDigit_spec d hd
        have hfirst : acceptedDigits (facesFor (true :: pattern) (d :: ds)) =
            d :: acceptedDigits (facesFor pattern ds) := by
          rw [facesFor, ← List.singleton_append, acceptedDigits_append]
          exact congrArg (· ++ _) hdigit
        rw [hfirst]
        exact (List.prefix_cons_inj d).mpr (ih hds (by simpa using hn))

/-- Every string of `n` bits is the total of exactly one choice of `n / 2` digits (R165, R171). -/
theorem exists_digits {out : BitString} {n : Nat} (h2 : n % 2 = 0) (hl : out.length = n) :
    ∃ digits : List Nat, digits.length = n / 2 ∧ (∀ d ∈ digits, d < 4) ∧
      ∀ ds : List Nat, ds.length = n / 2 → (∀ d ∈ ds, d < 4) → (bitsOf n (digitTotal ds) = out ↔ ds = digits) := by
  have hpow : (4 : Nat) ^ (n / 2) = 2 ^ n := by
    rw [show (4 : Nat) = 2 ^ 2 from rfl, ← Nat.pow_mul, show 2 * (n / 2) = n by omega]
  have hbij := Nat.bijOn_ofDigits (b := 4) (by decide) (n / 2)
  have hlt : uint out < 4 ^ (n / 2) := by rw [hpow, ← hl]; exact uint_lt out
  obtain ⟨digits, ⟨hlen, hdigits⟩, hv⟩ := hbij.surjOn hlt
  refine ⟨digits, hlen, hdigits, fun ds hdl hds => ⟨fun h => ?_, fun h => ?_⟩⟩
  · refine hbij.injOn ⟨hdl, hds⟩ ⟨hlen, hdigits⟩ ?_
    have htotal : digitTotal ds < 2 ^ n := hpow ▸ hdl ▸ digitTotal_lt hds
    rw [hv, ← h, uint_bitsOf, Nat.mod_eq_of_lt htotal, digitTotal_eq_ofDigits]
  · rw [h, digitTotal_eq_ofDigits, hv, ← hl, bitsOf_uint]

theorem facesOf_map_diceRoll (faces : List Nat) : facesOf (faces.map .diceRoll) = faces := by
  induction faces with
  | nil => rfl
  | cons f fs ih => exact congrArg (f :: ·) ih

/-- Settles O26: the output is the total of the first n/2 digits, and the pattern leaves them free. -/
theorem diceOutputsAreBijective : Obligations.DiceOutputsAreBijective := by
  intro s n pattern out h0 h2 h256 hcount hlen
  obtain ⟨digits, hdl, hdigits, hunique⟩ := exists_digits h2 hlen
  refine ⟨digits, ?chosen, fun faces hp hf => ?unique⟩
  case chosen =>
    obtain ⟨hmap, hface⟩ := facesFor_spec pattern hdigits
    refine ⟨facesFor pattern digits, hmap, hface, ?_⟩
    rw [← hdl]
    exact (List.prefix_iff_eq_take.mp (acceptedDigits_facesFor_isPrefix pattern hdigits (hdl ▸ hcount))).symm
  case unique =>
    have hv : faces.any invalidFace = false := by
      rw [List.any_eq_false]
      intro f hmem
      have hface := hf f hmem
      simp [invalidFace]; omega
    have hmany : n / 2 ≤ (acceptedDigits faces).length := by rwa [acceptedDigits_length hf, hp]
    obtain ⟨t, ht, h⟩ := exists_sessionAfter s h0 h2 h256 (commands := faces.map .diceRoll) (by simp)
    rw [facesOf_map_diceRoll] at h
    obtain ⟨u, hu, herr, -, hout⟩ := h.finish_output h256 h2 hv hmany
    refine ⟨t, u, ht, hu, herr, ?_⟩
    have hlt := acceptedDigits_lt hv
    have hmod := digitTotal_mod hlt (n / 2)
    rw [show 2 * (n / 2) = n by omega] at hmod
    rw [hout, hmod]
    exact hunique _ (by rw [List.length_take]; omega) fun d hd => hlt d (List.mem_of_mem_take hd)

/-! ### The bytes of a string (R10) and the padded message (R103) -/

/-- Bit `b` of byte `j` is the string's position `8j + 7 - b` (R10). -/
theorem bytes_getD_getLsbD (s : BitString) {j b : Nat} (hj : j < s.length / 8) (hb : b < 8) :
    ((bytes s).getD j 0).getLsbD b = s.getD (8 * j + (7 - b)) false := by
  have hlen : (substr s (8 * j) (8 * j + 8)).length = 8 := by rw [substr_length (by omega)]; omega
  have hbyte : (bytes s).getD j 0 = BitVec.ofNat 8 (uint (substr s (8 * j) (8 * j + 8))) := by
    simp [bytes, List.getD_eq_getElem?_getD, hj]
  rw [hbyte, ofNat_uint_getLsbD _ hb, hlen, decide_eq_true hb, Bool.true_and, substr_getD s (by omega)]

/-- Byte `j` of a number written in `k` bytes, most significant first (R10). -/
theorem bytes_bitsOf_getD {k v j : Nat} (hj : j < k) :
    (bytes (bitsOf (8 * k) v)).getD j 0 = BitVec.ofNat 8 (v / 2 ^ (8 * (k - 1 - j))) := by
  apply BitVec.eq_of_getLsbD_eq
  intro b hb
  rw [bytes_getD_getLsbD _ (by rw [bitsOf_length]; omega) hb, bitsOf_getD (by omega), BitVec.getLsbD_ofNat,
    decide_eq_true hb, Bool.true_and, Nat.testBit_div_two_pow]
  congr 1; omega

/-- Byte `j` of the padding's 64-bit bit count (R103). -/
theorem shaPad_getD_count {b : List Byte} (h : b.length ≤ 32) {j : Nat} (hj : j < 8) :
    (shaPad b).getD (56 + j) 0 = BitVec.ofNat 8 (8 * b.length / 2 ^ (8 * (7 - j))) := by
  rw [shaPad, List.getD_append_right _ _ _ _ (by simp; omega), ← bytes_bitsOf_getD (k := 8) hj]
  congr 1; simp; omega

theorem shaPad_length {b : List Byte} (h : b.length ≤ 32) : (shaPad b).length = 64 := by
  simp [shaPad]; omega

/-- The message stands first in its padding (R103). -/
theorem shaPad_getD_message (b : List Byte) {j : Nat} (hj : j < b.length) : (shaPad b).getD j 0 = b.getD j 0 := by
  simp only [shaPad, List.append_assoc]
  exact List.getD_append _ _ _ _ hj

/-- Between the marker and the bit count the padding is 0 (R103). -/
theorem shaPad_getD_zero {b : List Byte} {j : Nat} (hb : b.length < j) (hj : j < 56) : (shaPad b).getD j 0 = 0 := by
  have hmarker : (b ++ [0x80]).length ≤ j := by simpa using hb
  have hfill : j < (b ++ [0x80] ++ List.replicate (55 - b.length) (0 : Byte)).length := by simp; omega
  rw [shaPad, List.getD_append _ _ _ _ hfill, List.getD_append_right _ _ _ _ hmarker]
  simp

/-- Settles O52: each position lies in one of the four parts of the padding, and the bit count, up to 256, in the last two
of its eight bytes. -/
theorem paddingIsOneBlock : Obligations.PaddingIsOneBlock := by
  intro b hb
  refine ⟨shaPad_length hb, fun j hj => shaPad_getD_message b hj, ?marker, fun j hj hbj => ?zeros, ?high, ?low⟩
  case marker => simp [shaPad]
  case zeros =>
    by_cases h : j < 56
    · exact shaPad_getD_zero hbj h
    · have hcount := shaPad_getD_count hb (j := j - 56) (by omega)
      have hsmall : 8 * b.length < 2 ^ (8 * (7 - (j - 56))) :=
        Nat.lt_of_lt_of_le (by omega : _ < 2 ^ 16) (Nat.pow_le_pow_right (by decide) (by omega))
      rwa [Nat.add_sub_cancel' (Nat.not_lt.mp h), Nat.div_eq_of_lt hsmall] at hcount
  case high => exact shaPad_getD_count hb (j := 6) (by decide)
  case low =>
    have hcount := shaPad_getD_count hb (j := 7) (by decide)
    rw [hcount, Nat.sub_self, Nat.mul_zero, Nat.pow_zero, Nat.div_one]
    exact BitVec.eq_of_toNat_eq (by simp)

/-! ### The message schedule (R104) -/

theorem setWidth_append_byte {n : Nat} (x : BitVec n) (y : Byte) (w : Nat) :
    (x ++ y).setWidth w = x.setWidth w <<< 8 ||| y.setWidth w := by
  apply BitVec.eq_of_getLsbD_eq
  intro i hi
  rw [BitVec.getLsbD_setWidth, BitVec.getLsbD_append, BitVec.getLsbD_or, BitVec.getLsbD_shiftLeft,
    BitVec.getLsbD_setWidth, BitVec.getLsbD_setWidth]
  by_cases h : i < 8
  · simp [hi, h]
  · simp [hi, h, show i - 8 < w by omega, BitVec.getLsbD_of_ge y i (by omega)]

/-- Four bytes, big-endian (R104). -/
theorem append_bytes_eq_or (a b c d : Byte) :
    a ++ b ++ c ++ d = a.setWidth 32 <<< 24 ||| b.setWidth 32 <<< 16 ||| c.setWidth 32 <<< 8 ||| d.setWidth 32 := by
  rw [← BitVec.setWidth_eq (a ++ b ++ c ++ d)]
  simp only [setWidth_append_byte, BitVec.shiftLeft_or_distrib, ← BitVec.shiftLeft_add]

/-- The four bytes of a word, big-endian, are the word (R63). -/
theorem append_extractLsb'_bytes (w : Word) :
    w.extractLsb' 24 8 ++ w.extractLsb' 16 8 ++ w.extractLsb' 8 8 ++ w.extractLsb' 0 8 = w := by
  apply BitVec.eq_of_toNat_eq
  simp only [append_toNat, BitVec.extractLsb'_toNat, Nat.shiftRight_eq_div_pow]
  have hw := w.isLt
  omega

/-- Word `t` by the recurrence of R104, from the words before it, oldest first. -/
def recurrenceWord (ws : List Word) (t : Nat) : Word :=
  ssig1 (ws.getD (t - 2) 0) + ws.getD (t - 7) 0 + ssig0 (ws.getD (t - 15) 0) + ws.getD (t - 16) 0

/-- From word 16 on, the words, oldest first, are those of the recurrence. -/
def FollowsRecurrence (ws : List Word) : Prop := ∀ t, 16 ≤ t → t < ws.length → ws.getD t 0 = recurrenceWord ws t

/-- The recurrence looks at earlier words only. -/
theorem recurrenceWord_append {ws : List Word} {t : Nat} (h : 16 ≤ t) (ht : t ≤ ws.length) (vs : List Word) :
    recurrenceWord (ws ++ vs) t = recurrenceWord ws t := by
  simp only [recurrenceWord]
  rw [List.getD_append _ _ _ (t - 2) (by omega), List.getD_append _ _ _ (t - 7) (by omega),
    List.getD_append _ _ _ (t - 15) (by omega), List.getD_append _ _ _ (t - 16) (by omega)]

theorem FollowsRecurrence.append {ws : List Word} (h : FollowsRecurrence ws) :
    FollowsRecurrence (ws ++ [recurrenceWord ws ws.length]) := by
  intro t h16 ht
  rw [List.length_append, List.length_singleton] at ht
  rw [recurrenceWord_append h16 (by omega)]
  by_cases hlast : t < ws.length
  · rw [List.getD_append _ _ _ _ hlast, h t h16 hlast]
  · obtain rfl : t = ws.length := by omega
    rw [List.getD_append_right _ _ _ _ (Nat.le_refl _), Nat.sub_self]; rfl

/-- Newest first, `k` words back is word `len - 1 - k`. -/
theorem reverse_getD {ws : List Word} {k : Nat} (h : k < ws.length) :
    ws.reverse.getD (ws.length - (k + 1)) 0 = ws.getD k 0 := by
  rw [List.getD_eq_getElem _ _ (by simp; omega), List.getD_eq_getElem _ _ h, List.getElem_reverse]
  congr 1; omega

/-- The word that extends a schedule of at least 16 words is the recurrence's next one (R104). -/
theorem extendSchedule_succ (n : Nat) {ws : List Word} (h : 16 ≤ ws.length) :
    extendSchedule (n + 1) ws = extendSchedule n (recurrenceWord ws.reverse ws.reverse.length :: ws) := by
  rw [extendSchedule, recurrenceWord, List.length_reverse, reverse_getD (by omega : 1 < _),
    reverse_getD (by omega : 6 < _), reverse_getD (by omega : 14 < _), reverse_getD (by omega : 15 < _)]

/-- Extending a schedule by `n` words keeps its words and follows the recurrence (R104). -/
theorem extendSchedule_spec (n : Nat) {ws : List Word} (h : 16 ≤ ws.length) (hr : FollowsRecurrence ws.reverse) :
    (extendSchedule n ws).length = n + ws.length ∧ ws <:+ extendSchedule n ws ∧
      FollowsRecurrence (extendSchedule n ws).reverse := by
  induction n generalizing ws with
  | zero => exact ⟨(Nat.zero_add _).symm, List.suffix_rfl, hr⟩
  | succ n ih =>
    rw [extendSchedule_succ n h]
    obtain ⟨hlen, hsuffix, hrec⟩ := ih (ws := recurrenceWord ws.reverse ws.reverse.length :: ws)
      (by simp only [List.length_cons]; omega) (by rw [List.reverse_cons]; exact hr.append)
    exact ⟨by rw [hlen, List.length_cons]; omega, (List.suffix_cons _ _).trans hsuffix, hrec⟩

theorem schedule_spec (p : List Byte) : (schedule p).length = 64 ∧
    (List.range 16).map (messageWord p) <+: schedule p ∧ FollowsRecurrence (schedule p) := by
  have h16 : ((List.range 16).map (messageWord p)).reverse.length = 16 := by simp
  have hnone : FollowsRecurrence ((List.range 16).map (messageWord p)).reverse.reverse := fun t h ht =>
    absurd ht (by rw [List.length_reverse, h16]; omega)
  obtain ⟨hlen, hsuffix, hrec⟩ := extendSchedule_spec 48 (by omega) hnone
  refine ⟨by rw [schedule, List.length_reverse, hlen, h16], ?_, hrec⟩
  rw [schedule, ← List.reverse_suffix, List.reverse_reverse]
  exact hsuffix

theorem schedule_getD_message (p : List Byte) {t : Nat} (h : t < 16) : (schedule p).getD t 0 = messageWord p t := by
  obtain ⟨-, ⟨vs, hvs⟩, -⟩ := schedule_spec p
  rw [← hvs, List.getD_append _ _ _ _ (by simpa using h)]
  simp [h]

/-- Byte `i` of message word `t`, where the message is the entropy of `n` registers (R63, R104). -/
theorem shaPad_getD_register {k : Nat} (x : Vector Word k) {n t i : Nat} (ht : t < n) (hi : i < 4) :
    (shaPad (bytes (str x (32 * n)))).getD (4 * t + i) 0 = (x.toList.getD t 0).extractLsb' (24 - 8 * i) 8 := by
  rw [shaPad_getD_message _ (by simp; omega), bytes_str_getD x (by omega), packedByte,
    show (4 * t + i) / 4 = t by omega, show (4 * t + i) % 4 = i by omega]

/-- Settles O53: the schedule is built newest word first, each new word the recurrence's next. -/
theorem scheduleFollowsRecurrence : Obligations.ScheduleFollowsRecurrence := by
  refine ⟨fun p => ?recurrence, fun x k t hk ht => ?registers⟩
  case recurrence =>
    obtain ⟨hlen, -, hrec⟩ := schedule_spec p
    refine ⟨hlen, fun t ht => ?_, fun t h16 h64 => hrec t h16 (hlen ▸ h64)⟩
    rw [schedule_getD_message p ht, messageWord, append_bytes_eq_or]
  case registers =>
    have hzero := shaPad_getD_register x ht (i := 0) (by decide)
    rw [schedule_getD_message _ (by omega), messageWord, shaPad_getD_register x ht (by decide : 1 < 4),
      shaPad_getD_register x ht (by decide : 2 < 4), shaPad_getD_register x ht (by decide : 3 < 4)]
    exact (congrArg (· ++ _ ++ _ ++ _) hzero).trans (append_extractLsb'_bytes _)

/-- Settles O54, by running the hash on the two messages. -/
theorem shaCheckValues : Obligations.ShaCheckValues := by
  refine ⟨?empty, ?abc⟩
  case empty => decide +kernel
  case abc => decide +kernel

end Sys2Proof.Machine
end
